-- ==== Sys2Proof/Word.lean ====
section
/-! DEFINITION. The plain vocabulary of the model: the widths the spec names, the two chip-select
lines and the two chip variants. -/

namespace Sys2Proof

/-- The host's request word `req[35:0]` (30_encoding.md R66). -/
abbrev Request := BitVec 36

/-- One addressable unit of a controller, a 4-bit nibble (00_scope.md R11, 20_memory.md R41). -/
abbrev Nibble := BitVec 4

/-- A bit list in wire order, first bit sent at the head (00_scope.md R8). -/
abbrev Bits := List Bool

/-- The chip-select lines `CS[0]` and `CS[1]`, `N_CS = 2` (00_scope.md R7, 60_exceptions.md R207). -/
inductive Cs
  | c0
  | c1
  deriving DecidableEq, Repr, Inhabited

/-- The two chip variants of the spec (00_scope.md R5): A has a 6-bit address field, B a 7-bit one. -/
inductive Variant
  | A
  | B
  deriving DecidableEq, Repr, Inhabited

/-- The chip-select line that is not `k`. -/
def Cs.other : Cs → Cs
  | .c0 => .c1
  | .c1 => .c0

end Sys2Proof
end

