-- ==== Sys2Proof/Syntax.lean ====
section
/-! DEFINITION. The instructions: one constructor for each row of spec/opcode_table.json. -/

namespace Sys2Proof

/-- What the hardware can be asked to do. The first sixteen constructors are the values of the `op`
field of the request word (30_encoding.md R67, R68); an operation keeps only the fields it uses, the
others are ignored (R71). The others are the wire frames (30_encoding.md R60, R62): a command
frame has no operand but an unnamed code, a data frame has the controller address `a` and the
payload `d`, payload bit 0 being the first data bit on the wire. Which controller a frame is for is
no part of the frame (R65): the selected line is in the state. -/
inductive Instr
  -- host requests
  | sendbits (value : BitVec 16) (bitCount : BitVec 5)
  | sendcmd (cs : Cs) (cmd : BitVec 8)
  | wrdata (cs : Cs) (address : BitVec 7) (payload : BitVec 16) (bitWidth : BitVec 5)
  | revbits (payload : BitVec 16) (bitWidth : BitVec 5)
  | resolveDigit (cs : Cs) (position : BitVec 7) (value : BitVec 16)
  | resolveInd (cs : Cs) (name : BitVec 7) (on : Bool)
  | glyph (index : BitVec 16)
  | unassigned7
  | init (cs : Cs)
  | allset (cs : Cs) (on : Bool)
  | renderDigit (cs : Cs) (position : BitVec 7) (value : BitVec 16)
  | renderChar (cs : Cs) (position : BitVec 7) (index : BitVec 16)
  | setInd (cs : Cs) (name : BitVec 7) (on : Bool)
  | pwrOn (cs : Cs)
  | pwrOff (cs : Cs)
  | unassignedF
  -- command frames
  | sysDis
  | sysEn
  | lcdOff
  | lcdOn
  | timerDis
  | wdtDis
  | toneOff
  | rcSel
  | tone4k40
  | tone4k60
  | irqDis
  | irqEn
  | cmdUnnamed (code : BitVec 8)
  -- data frames of variant A
  | dataAW4 (a : BitVec 6) (d : BitVec 4)
  | dataAW5 (a : BitVec 6) (d : BitVec 5)
  | dataAW6 (a : BitVec 6) (d : BitVec 6)
  | dataAW7 (a : BitVec 6) (d : BitVec 7)
  | dataAW8 (a : BitVec 6) (d : BitVec 8)
  | dataAW9 (a : BitVec 6) (d : BitVec 9)
  | dataAW10 (a : BitVec 6) (d : BitVec 10)
  | dataAW11 (a : BitVec 6) (d : BitVec 11)
  | dataAW12 (a : BitVec 6) (d : BitVec 12)
  | dataAW13 (a : BitVec 6) (d : BitVec 13)
  | dataAW14 (a : BitVec 6) (d : BitVec 14)
  | dataAW15 (a : BitVec 6) (d : BitVec 15)
  | dataAW16 (a : BitVec 6) (d : BitVec 16)
  -- data frames of variant B
  | dataBW4 (a : BitVec 7) (d : BitVec 4)
  | dataBW5 (a : BitVec 7) (d : BitVec 5)
  | dataBW6 (a : BitVec 7) (d : BitVec 6)
  | dataBW7 (a : BitVec 7) (d : BitVec 7)
  | dataBW8 (a : BitVec 7) (d : BitVec 8)
  | dataBW9 (a : BitVec 7) (d : BitVec 9)
  | dataBW10 (a : BitVec 7) (d : BitVec 10)
  | dataBW11 (a : BitVec 7) (d : BitVec 11)
  | dataBW12 (a : BitVec 7) (d : BitVec 12)
  | dataBW13 (a : BitVec 7) (d : BitVec 13)
  | dataBW14 (a : BitVec 7) (d : BitVec 14)
  | dataBW15 (a : BitVec 7) (d : BitVec 15)
  | dataBW16 (a : BitVec 7) (d : BitVec 16)
  deriving DecidableEq, Repr

end Sys2Proof
end

