-- ==== Sys2Proof/WellFormed.lean ====
section
/-! DEFINITION. Which instructions stand for a row of the opcode table: the operand checks that a
field's width does not make. -/

namespace Sys2Proof

/-- The twelve command codes the spec names (30_encoding.md R76, 45_controller_commands.md R170). -/
def namedCodes : List (BitVec 8) :=
  [0x00, 0x01, 0x02, 0x03, 0x04, 0x05, 0x08, 0x18, 0x40, 0x60, 0x80, 0x88]

/-- An instruction is well formed when its operands lie in its row of the table. Only the row of
the unnamed codes excludes values its field could hold (45_controller_commands.md R183). -/
def Instr.wf : Instr → Bool
  | .cmdUnnamed code => !namedCodes.contains code
  | .sendbits _ _ | .sendcmd _ _ | .wrdata _ _ _ _ | .revbits _ _
  | .resolveDigit _ _ _ | .resolveInd _ _ _ | .glyph _ | .unassigned7
  | .init _ | .allset _ _ | .renderDigit _ _ _ | .renderChar _ _ _
  | .setInd _ _ _ | .pwrOn _ | .pwrOff _ | .unassignedF
  | .sysDis | .sysEn | .lcdOff | .lcdOn | .timerDis | .wdtDis
  | .toneOff | .rcSel | .tone4k40 | .tone4k60 | .irqDis | .irqEn
  | .dataAW4 _ _ | .dataAW5 _ _ | .dataAW6 _ _ | .dataAW7 _ _ | .dataAW8 _ _
  | .dataAW9 _ _ | .dataAW10 _ _ | .dataAW11 _ _ | .dataAW12 _ _ | .dataAW13 _ _
  | .dataAW14 _ _ | .dataAW15 _ _ | .dataAW16 _ _
  | .dataBW4 _ _ | .dataBW5 _ _ | .dataBW6 _ _ | .dataBW7 _ _ | .dataBW8 _ _
  | .dataBW9 _ _ | .dataBW10 _ _ | .dataBW11 _ _ | .dataBW12 _ _ | .dataBW13 _ _
  | .dataBW14 _ _ | .dataBW15 _ _ | .dataBW16 _ _ => true

/-- The variant whose address field a data frame has; `none` for everything that is sent or decoded
alike on both (30_encoding.md R62, R65). -/
def Instr.frameVariant : Instr → Option Variant
  | .dataAW4 _ _ | .dataAW5 _ _ | .dataAW6 _ _ | .dataAW7 _ _ | .dataAW8 _ _
  | .dataAW9 _ _ | .dataAW10 _ _ | .dataAW11 _ _ | .dataAW12 _ _ | .dataAW13 _ _
  | .dataAW14 _ _ | .dataAW15 _ _ | .dataAW16 _ _ => some .A
  | .dataBW4 _ _ | .dataBW5 _ _ | .dataBW6 _ _ | .dataBW7 _ _ | .dataBW8 _ _
  | .dataBW9 _ _ | .dataBW10 _ _ | .dataBW11 _ _ | .dataBW12 _ _ | .dataBW13 _ _
  | .dataBW14 _ _ | .dataBW15 _ _ | .dataBW16 _ _ => some .B
  | .sendbits _ _ | .sendcmd _ _ | .wrdata _ _ _ _ | .revbits _ _
  | .resolveDigit _ _ _ | .resolveInd _ _ _ | .glyph _ | .unassigned7
  | .init _ | .allset _ _ | .renderDigit _ _ _ | .renderChar _ _ _
  | .setInd _ _ _ | .pwrOn _ | .pwrOff _ | .unassignedF
  | .sysDis | .sysEn | .lcdOff | .lcdOn | .timerDis | .wdtDis
  | .toneOff | .rcSel | .tone4k40 | .tone4k60 | .irqDis | .irqEn
  | .cmdUnnamed _ => none

/-- Whether a controller of variant `v` reads the instruction's bits as that instruction: a data
frame needs a controller with its address width (30_encoding.md R65). -/
def Instr.fits (i : Instr) (v : Variant) : Bool :=
  match i.frameVariant with
  | none => true
  | some u => u == v

/-- The line the frames of an instruction go to: its `cs` operand, for a wire frame the Frame
Encoder's input `fe_cs` (which stands too for the operations that send no frame). -/
def Instr.line (i : Instr) (feCs : Cs) : Cs :=
  match i with
  | .sendcmd k _ | .wrdata k _ _ _ | .init k | .allset k _ | .renderDigit k _ _
  | .renderChar k _ _ | .setInd k _ _ | .pwrOn k | .pwrOff k => k
  | .sendbits _ _ | .revbits _ _ | .resolveDigit _ _ _ | .resolveInd _ _ _ | .glyph _
  | .unassigned7 | .unassignedF
  | .sysDis | .sysEn | .lcdOff | .lcdOn | .timerDis | .wdtDis
  | .toneOff | .rcSel | .tone4k40 | .tone4k60 | .irqDis | .irqEn
  | .cmdUnnamed _
  | .dataAW4 _ _ | .dataAW5 _ _ | .dataAW6 _ _ | .dataAW7 _ _ | .dataAW8 _ _
  | .dataAW9 _ _ | .dataAW10 _ _ | .dataAW11 _ _ | .dataAW12 _ _ | .dataAW13 _ _
  | .dataAW14 _ _ | .dataAW15 _ _ | .dataAW16 _ _
  | .dataBW4 _ _ | .dataBW5 _ _ | .dataBW6 _ _ | .dataBW7 _ _ | .dataBW8 _ _
  | .dataBW9 _ _ | .dataBW10 _ _ | .dataBW11 _ _ | .dataBW12 _ _ | .dataBW13 _ _
  | .dataBW14 _ _ | .dataBW15 _ _ | .dataBW16 _ _ => feCs

end Sys2Proof
end

