-- ==== Sys2Proof/Decode.lean ====
section
/-! DEFINITION. Encodings (30_encoding.md): reading an instruction from a request word or from the
bits of a wire frame, total and refusing by name, and after it the encoder, written from the same
tables. -/

namespace Sys2Proof

/-- What an instruction is encoded in: the host's 36-bit request word (30_encoding.md R66) or the bit
list of a wire frame (R60, R62). -/
inductive Code
  | request (w : Request)
  | frame (bits : Bits)
  deriving DecidableEq, Repr

/-- Why a bit list is no frame of the opcode table. -/
inductive DecodeError
  /-- the first three bits are neither `100` nor `101` (30_encoding.md R65) -/
  | modePrefix
  /-- a `100` frame that has not twelve bits (R60) -/
  | commandLength
  /-- a twelve-bit `100` frame whose trailer is not 1 (R60: the trailer is "fixed to 1") -/
  | trailer
  /-- a `101` frame whose payload has fewer than 4 or more than 16 bits on this variant (R62, R63) -/
  | dataLength
  deriving DecidableEq, Repr

/-! ### Bit lists -/

/-- `bitsMSB(v, n)`: `v[n-1], ..., v[0]` (00_scope.md R8). -/
def bitsMSB {w : Nat} (v : BitVec w) : Nat → Bits
  | 0 => []
  | n + 1 => v.getLsbD n :: bitsMSB v n

/-- `v[0], ..., v[n-1]`: the order in which a payload is sent (20_memory.md R42). -/
def bitsLSB {w : Nat} (v : BitVec w) (n : Nat) : Bits := (bitsMSB v n).reverse

/-- A bit list read as a number, most significant bit first. -/
def natOfMSB (bits : Bits) : Nat := bits.foldl (fun n b => 2 * n + b.toNat) 0

/-- A field of `w` bits read most significant bit first. -/
def fieldMSB (w : Nat) (bits : Bits) : BitVec w := BitVec.ofNat w (natOfMSB bits)

/-- A field of `w` bits read least significant bit first (a payload: bit 0 comes first). -/
def fieldLSB (w : Nat) (bits : Bits) : BitVec w := fieldMSB w bits.reverse

/-- The bits of `PFX_CMD = 0b100` (00_scope.md R5). -/
def prefixCmd : Bits := [true, false, false]

/-- The bits of `PFX_DATA = 0b101` (00_scope.md R5). -/
def prefixData : Bits := [true, false, true]

/-- The command frame of code `cmd` (30_encoding.md R60). -/
def commandBits (cmd : BitVec 8) : Bits := prefixCmd ++ bitsMSB cmd 8 ++ [true]

/-- The data frame with the low `aw` bits of `a` and the low `w` bits of `d` (30_encoding.md R62). -/
def dataBits {m n : Nat} (aw : Nat) (a : BitVec m) (w : Nat) (d : BitVec n) : Bits :=
  prefixData ++ bitsMSB a aw ++ bitsLSB d w

/-! ### The request word (30_encoding.md R66) -/

/-- `op = req[35:32]` -/
def reqOp (w : Request) : BitVec 4 := w.extractLsb' 32 4

/-- `cs = req[31]` -/
def reqCs (w : Request) : BitVec 1 := w.extractLsb' 31 1

/-- `width = req[27:23]` -/
def reqWidth (w : Request) : BitVec 5 := w.extractLsb' 23 5

/-- `addr = req[22:16]` -/
def reqAddr (w : Request) : BitVec 7 := w.extractLsb' 16 7

/-- `dat = req[15:0]` -/
def reqDat (w : Request) : BitVec 16 := w.extractLsb' 0 16

/-- The chip-select line a `cs` bit names (30_encoding.md R66). -/
def Cs.ofBit (b : BitVec 1) : Cs := if b = 0#1 then .c0 else .c1

/-- The `cs` bit of a line. -/
def Cs.toBit : Cs → BitVec 1
  | .c0 => 0
  | .c1 => 1

/-- The operation a request word asks for (30_encoding.md R67) with its operands placed as R68 says;
reserved bits and the fields an operation does not use are not looked at (R71). Every word is one
of the sixteen rows. -/
def decodeRequest (w : Request) : Instr :=
  let cs := Cs.ofBit (reqCs w)
  let width := reqWidth w
  let addr := reqAddr w
  let dat := reqDat w
  match (reqOp w).toNat with
  | 0x0 => .sendbits dat width
  | 0x1 => .sendcmd cs (dat.setWidth 8)
  | 0x2 => .wrdata cs addr dat width
  | 0x3 => .revbits dat width
  | 0x4 => .resolveDigit cs addr dat
  | 0x5 => .resolveInd cs addr (dat.getLsbD 0)
  | 0x6 => .glyph dat
  | 0x7 => .unassigned7
  | 0x8 => .init cs
  | 0x9 => .allset cs (dat.getLsbD 0)
  | 0xA => .renderDigit cs addr dat
  | 0xB => .renderChar cs addr dat
  | 0xC => .setInd cs addr (dat.getLsbD 0)
  | 0xD => .pwrOn cs
  | 0xE => .pwrOff cs
  | _ => .unassignedF

/-! ### Wire frames (30_encoding.md R60, R62) -/

/-- The row of a command code (45_controller_commands.md R171 to R183). -/
def commandOf (code : BitVec 8) : Instr :=
  match code.toNat with
  | 0x00 => .sysDis
  | 0x01 => .sysEn
  | 0x02 => .lcdOff
  | 0x03 => .lcdOn
  | 0x04 => .timerDis
  | 0x05 => .wdtDis
  | 0x08 => .toneOff
  | 0x18 => .rcSel
  | 0x40 => .tone4k40
  | 0x60 => .tone4k60
  | 0x80 => .irqDis
  | 0x88 => .irqEn
  | _ => .cmdUnnamed code

/-- What follows the prefix `100`: eight code bits, most significant first, and the trailer 1. -/
def decodeCommand (rest : Bits) : Except DecodeError Instr :=
  if rest.length = 9 then
    if rest.drop 8 = [true] then .ok (commandOf (fieldMSB 8 (rest.take 8)))
    else .error .trailer
  else .error .commandLength

/-- What follows the prefix `101` on variant A: 6 address bits, most significant first, then the
payload, bit 0 first; the row is the payload's length. -/
def decodeDataA (rest : Bits) : Except DecodeError Instr :=
  let a := fieldMSB 6 (rest.take 6)
  let d := rest.drop 6
  match d.length with
  | 4 => .ok (.dataAW4 a (fieldLSB 4 d))
  | 5 => .ok (.dataAW5 a (fieldLSB 5 d))
  | 6 => .ok (.dataAW6 a (fieldLSB 6 d))
  | 7 => .ok (.dataAW7 a (fieldLSB 7 d))
  | 8 => .ok (.dataAW8 a (fieldLSB 8 d))
  | 9 => .ok (.dataAW9 a (fieldLSB 9 d))
  | 10 => .ok (.dataAW10 a (fieldLSB 10 d))
  | 11 => .ok (.dataAW11 a (fieldLSB 11 d))
  | 12 => .ok (.dataAW12 a (fieldLSB 12 d))
  | 13 => .ok (.dataAW13 a (fieldLSB 13 d))
  | 14 => .ok (.dataAW14 a (fieldLSB 14 d))
  | 15 => .ok (.dataAW15 a (fieldLSB 15 d))
  | 16 => .ok (.dataAW16 a (fieldLSB 16 d))
  | _ => .error .dataLength

/-- What follows the prefix `101` on variant B: 7 address bits, most significant first, then the
payload, bit 0 first; the row is the payload's length. -/
def decodeDataB (rest : Bits) : Except DecodeError Instr :=
  let a := fieldMSB 7 (rest.take 7)
  let d := rest.drop 7
  match d.length with
  | 4 => .ok (.dataBW4 a (fieldLSB 4 d))
  | 5 => .ok (.dataBW5 a (fieldLSB 5 d))
  | 6 => .ok (.dataBW6 a (fieldLSB 6 d))
  | 7 => .ok (.dataBW7 a (fieldLSB 7 d))
  | 8 => .ok (.dataBW8 a (fieldLSB 8 d))
  | 9 => .ok (.dataBW9 a (fieldLSB 9 d))
  | 10 => .ok (.dataBW10 a (fieldLSB 10 d))
  | 11 => .ok (.dataBW11 a (fieldLSB 11 d))
  | 12 => .ok (.dataBW12 a (fieldLSB 12 d))
  | 13 => .ok (.dataBW13 a (fieldLSB 13 d))
  | 14 => .ok (.dataBW14 a (fieldLSB 14 d))
  | 15 => .ok (.dataBW15 a (fieldLSB 15 d))
  | 16 => .ok (.dataBW16 a (fieldLSB 16 d))
  | _ => .error .dataLength

/-- The frame a controller of variant `v` reads: the prefix tells the kind, the variant the address
width, the end of the frame the payload's length (30_encoding.md R65). -/
def decodeFrame (v : Variant) (bits : Bits) : Except DecodeError Instr :=
  match bits with
  | true :: false :: false :: rest => decodeCommand rest
  | true :: false :: true :: rest =>
    match v with
    | .A => decodeDataA rest
    | .B => decodeDataB rest
  | _ => .error .modePrefix

/-- The instruction in a code, for a frame as a controller of variant `v` reads it. -/
def decode (v : Variant) : Code → Except DecodeError Instr
  | .request w => .ok (decodeRequest w)
  | .frame bits => decodeFrame v bits

/-! ### The opcode table's numbering -/

/-- The wire bits of a frame that the table gives as a number: the first bit sent is the most
significant bit, and it is 1 in both prefixes, so the zeros above it are no part of the frame. -/
def tableFrameBits (nbits w : Nat) : Bits :=
  (bitsMSB (BitVec.ofNat nbits w) nbits).dropWhile (fun b => !b)

/-- The variant on which a frame given as a bare number is read. Nothing in a frame tells the two
apart (30_encoding.md R65), and every length from 13 to 25 is a data frame of variant A; only the
26-bit frame can be variant B's alone (R63). -/
def tableVariant (bits : Bits) : Variant := if bits.length = 26 then .B else .A

/-- The code of a table row's `nbits`-bit word: the table's frames take at most 32 bits in whole
bytes, a request word 40. -/
def tableCode (nbits w : Nat) : Code :=
  if nbits ≤ 32 then .frame (tableFrameBits nbits w) else .request (BitVec.ofNat 36 w)

/-- The variant on which `decodeTableWord` reads a code. -/
def Code.variant : Code → Variant
  | .request _ => .A
  | .frame bits => tableVariant bits

/-- The instruction the decoder reads from a word numbered as the opcode table numbers it. -/
def decodeTableWord (nbits w : Nat) : Option Instr :=
  (decode (tableCode nbits w).variant (tableCode nbits w)).toOption

/-! ### The encoder -/

/-- A request word from its fields, the reserved bits 0 (30_encoding.md R66). -/
def mkRequest (op : BitVec 4) (cs : BitVec 1) (width : BitVec 5) (addr : BitVec 7)
    (dat : BitVec 16) : Request :=
  op ++ cs ++ 0#3 ++ width ++ addr ++ dat

/-- An on/off operand in `dat[0]` (30_encoding.md R68). -/
def onDat (on : Bool) : BitVec 16 := (BitVec.ofBool on).setWidth 16

/-- The code of an instruction, the fields it does not use 0 (30_encoding.md R60, R62, R66 to R68). -/
def encode : Instr → Code
  | .sendbits value bitCount => .request (mkRequest 0x0 0 bitCount 0 value)
  | .sendcmd cs cmd => .request (mkRequest 0x1 cs.toBit 0 0 (cmd.setWidth 16))
  | .wrdata cs address payload bitWidth => .request (mkRequest 0x2 cs.toBit bitWidth address payload)
  | .revbits payload bitWidth => .request (mkRequest 0x3 0 bitWidth 0 payload)
  | .resolveDigit cs position value => .request (mkRequest 0x4 cs.toBit 0 position value)
  | .resolveInd cs name on => .request (mkRequest 0x5 cs.toBit 0 name (onDat on))
  | .glyph index => .request (mkRequest 0x6 0 0 0 index)
  | .unassigned7 => .request (mkRequest 0x7 0 0 0 0)
  | .init cs => .request (mkRequest 0x8 cs.toBit 0 0 0)
  | .allset cs on => .request (mkRequest 0x9 cs.toBit 0 0 (onDat on))
  | .renderDigit cs position value => .request (mkRequest 0xA cs.toBit 0 position value)
  | .renderChar cs position index => .request (mkRequest 0xB cs.toBit 0 position index)
  | .setInd cs name on => .request (mkRequest 0xC cs.toBit 0 name (onDat on))
  | .pwrOn cs => .request (mkRequest 0xD cs.toBit 0 0 0)
  | .pwrOff cs => .request (mkRequest 0xE cs.toBit 0 0 0)
  | .unassignedF => .request (mkRequest 0xF 0 0 0 0)
  | .sysDis => .frame (commandBits 0x00)
  | .sysEn => .frame (commandBits 0x01)
  | .lcdOff => .frame (commandBits 0x02)
  | .lcdOn => .frame (commandBits 0x03)
  | .timerDis => .frame (commandBits 0x04)
  | .wdtDis => .frame (commandBits 0x05)
  | .toneOff => .frame (commandBits 0x08)
  | .rcSel => .frame (commandBits 0x18)
  | .tone4k40 => .frame (commandBits 0x40)
  | .tone4k60 => .frame (commandBits 0x60)
  | .irqDis => .frame (commandBits 0x80)
  | .irqEn => .frame (commandBits 0x88)
  | .cmdUnnamed code => .frame (commandBits code)
  | .dataAW4 a d => .frame (dataBits 6 a 4 d)
  | .dataAW5 a d => .frame (dataBits 6 a 5 d)
  | .dataAW6 a d => .frame (dataBits 6 a 6 d)
  | .dataAW7 a d => .frame (dataBits 6 a 7 d)
  | .dataAW8 a d => .frame (dataBits 6 a 8 d)
  | .dataAW9 a d => .frame (dataBits 6 a 9 d)
  | .dataAW10 a d => .frame (dataBits 6 a 10 d)
  | .dataAW11 a d => .frame (dataBits 6 a 11 d)
  | .dataAW12 a d => .frame (dataBits 6 a 12 d)
  | .dataAW13 a d => .frame (dataBits 6 a 13 d)
  | .dataAW14 a d => .frame (dataBits 6 a 14 d)
  | .dataAW15 a d => .frame (dataBits 6 a 15 d)
  | .dataAW16 a d => .frame (dataBits 6 a 16 d)
  | .dataBW4 a d => .frame (dataBits 7 a 4 d)
  | .dataBW5 a d => .frame (dataBits 7 a 5 d)
  | .dataBW6 a d => .frame (dataBits 7 a 6 d)
  | .dataBW7 a d => .frame (dataBits 7 a 7 d)
  | .dataBW8 a d => .frame (dataBits 7 a 8 d)
  | .dataBW9 a d => .frame (dataBits 7 a 9 d)
  | .dataBW10 a d => .frame (dataBits 7 a 10 d)
  | .dataBW11 a d => .frame (dataBits 7 a 11 d)
  | .dataBW12 a d => .frame (dataBits 7 a 12 d)
  | .dataBW13 a d => .frame (dataBits 7 a 13 d)
  | .dataBW14 a d => .frame (dataBits 7 a 14 d)
  | .dataBW15 a d => .frame (dataBits 7 a 15 d)
  | .dataBW16 a d => .frame (dataBits 7 a 16 d)

end Sys2Proof
end

