-- ==== Sys2Proof/Config.lean ====
section
/-! DEFINITION. What an implementation fixes: the parameters the spec leaves open (00_scope.md R6),
as plain data that is well formed by its types (70_reset_and_hazards.md R225). -/

namespace Sys2Proof

/-- The open parameters of 00_scope.md R6. Every value of this type meets the constraints the spec
gives, so a configuration that breaks one (93_implementation_defined.md U11, U12) cannot be written:
a duration is its minimum plus an excess, a variant-B address is at most `0x51`, the digit nibble
table has ten rows, five indicators have an address, and the font entry of 'A' is no field. -/
structure Config where
  /-- `UNIT - 1`, the length of a timing unit in steps of some base time (log 23) -/
  unitOver : Nat
  /-- `period(clk) - UNIT`, in the same steps (70_reset_and_hazards.md R225) -/
  periodOver : Nat
  /-- `D_SU - 1` -/
  suOver : Nat
  /-- `D_WR - 2` -/
  wrOver : Nat
  /-- `D_HD - 1` -/
  hdOver : Nat
  /-- `D_POR - 1000` -/
  porOver : Nat
  /-- the strap `cfg_variant[0]` (10_state.md R20) -/
  strap0 : Variant
  /-- the strap `cfg_variant[1]` -/
  strap1 : Variant
  /-- `IND_ADDR_B[0..4]`: heart, pulse, time, speed, colon -/
  indAddr : Vector (Fin 82) 5
  /-- `DIGADDR_B`, one pair (lo, hi) a position; its length is `NDIG_B` -/
  digAddr : List (Fin 82 × Fin 82)
  /-- `DIGNIB_B[0..9]`, one pair (lo, hi) a decimal digit -/
  digNib : Vector (Nibble × Nibble) 10
  /-- `FONT[0..9]`, the digits '0' to '9' -/
  fontDigits : Vector (BitVec 16) 10
  /-- `FONT[10 .. 9 + N_SYM]`, the symbols; its length is `N_SYM` -/
  fontSymbols : List (BitVec 16)
  /-- `FONT[11 + N_SYM .. 35 + N_SYM]`, the letters 'B' to 'Z' -/
  fontLetters : Vector (BitVec 16) 25
  /-- whether `TONE4K_CODE(A)` is `0x60` (then `TONE4K_CODE(B)` is `0x40`) or the other way round -/
  toneAIs60 : Bool
  deriving DecidableEq, Repr, Inhabited

/-- `UNIT`, a positive duration, in steps of the base time (00_scope.md R6). -/
def Config.unit (c : Config) : Nat := c.unitOver + 1

/-- `period(clk) >= UNIT`, in steps of the base time (10_state.md R21). -/
def Config.period (c : Config) : Nat := c.unit + c.periodOver

/-- `D_SU >= 1`, the setup delay in units (00_scope.md R6). -/
def Config.dSU (c : Config) : Nat := c.suOver + 1

/-- `D_WR >= 2`, the per-bit write delay in units (00_scope.md R6). -/
def Config.dWR (c : Config) : Nat := c.wrOver + 2

/-- `D_HD >= 1`, the hold delay in units (00_scope.md R6). -/
def Config.dHD (c : Config) : Nat := c.hdOver + 1

/-- `D_POR >= 1000`, the power-up delay in units (00_scope.md R6). -/
def Config.dPOR (c : Config) : Nat := c.porOver + 1000

/-- `TONE4K_CODE(v)`, the code of the 4 kHz tone command on variant `v` (00_scope.md R6,
92_eei_decisions.md D26). No operation reads it (45_controller_commands.md R179). -/
def Config.tone4kCode (c : Config) : Variant → BitVec 8
  | .A => if c.toneAIs60 then 0x60 else 0x40
  | .B => if c.toneAIs60 then 0x40 else 0x60

/-- The board the reset state stands on. The spec gives none of its values (00_scope.md R6: "None has
a default in the normative text"), so it is a constant without a body: nothing can be proved about
its values but what their types say. -/
opaque Config.board : Config

end Sys2Proof
end

