-- ==== Sys2Proof/Machine/State.lean ====
section
/-! DEFINITION. The state of the machine as plain data, and the state after reset (10_state.md). -/

namespace Sys2Proof.Machine

/-- One output pin (10_state.md R20, R22). -/
inductive Line
  | cs (k : Cs)
  | wr
  | data
  deriving DecidableEq, Repr

/-- A bus event (00_scope.md R9): a pin takes a level, or at least `n` units pass. -/
inductive Event
  | set (line : Line) (level : Bool)
  | wait (n : Nat)
  deriving DecidableEq, Repr

/-- The lifecycle of a controller (10_state.md R31, R33). -/
inductive Life
  | uninitialized
  | systemEnabled
  | displayOff
  | displayOn
  | unknown
  deriving DecidableEq, Repr

/-- The display RAM of a controller (10_state.md R32): the nibbles whose value is known, addresses
strictly rising. An address that is not listed reads as `unknown` (`Ram.unlisted`). -/
abbrev Ram := List (Nat × Nibble)

/-- What the observers of one controller hold (10_state.md R30, R31): the frames received, the frame
in progress (the spec's `open[k]`), and the ghost state of the chip. -/
structure Ctl where
  sink : List Bits
  openBits : Option Bits
  life : Life
  clkCfg : Bool
  ram : Ram
  deriving DecidableEq, Repr

/-- How `rst` comes about (70_reset_and_hazards.md R221). -/
inductive ResetKind
  /-- the power-up of the whole board -/
  | board
  /-- the CORE alone, the controllers staying powered -/
  | coreOnly
  deriving DecidableEq, Repr

/-- What the outside does next (log 4). -/
inductive Input
  /-- the host holds `req_valid` with this word until it is accepted -/
  | request (w : Request)
  /-- the host holds `req_valid` with this word, and `rst` rises while the operation is in progress -/
  | cutRequest (w : Request)
  /-- no request is offered for a while -/
  | idle
  /-- `rst` -/
  | rst (kind : ResetKind)
  /-- the Frame Encoder's internal interface asks for this frame on this line (log 6) -/
  | frame (k : Cs) (bits : Bits)
  /-- another master drives a bus line, which 70_reset_and_hazards.md R230 forbids (log 16) -/
  | foreignDrive
  deriving DecidableEq, Repr

/-- The machine: configuration, registers (10_state.md R22 to R28), observers (R29 to R35), and the
model's own list of inputs to come. -/
@[ext]
structure State where
  /-- the open parameters; no step writes them (10_state.md R36) -/
  cfg : Config
  cs0 : Bool
  cs1 : Bool
  wr : Bool
  data : Bool
  variant0 : Variant
  variant1 : Variant
  op : BitVec 4
  cs : BitVec 1
  width : BitVec 5
  addr : BitVec 7
  dat : BitVec 16
  sh : BitVec 16
  cnt : BitVec 5
  acc : BitVec 16
  dly : Nat
  fa : BitVec 7
  fi : Nat
  si : Nat
  busy : Bool
  porDone : Bool
  rspValid : Bool
  rspErr : BitVec 3
  rspData : BitVec 32
  feCs : Cs
  tr : List Event
  ctl0 : Ctl
  ctl1 : Ctl
  inbox : List Input
  deriving DecidableEq, Repr

/-- Why the machine stops. No operation of the spec does: its errors are responses
(60_exceptions.md R195). -/
inductive Fault
  /-- raised by a step on the input `foreignDrive`: 70_reset_and_hazards.md R230 forbids another
  master to drive `WR`, `DATA` or a `CS` line and does not say what all observers see if one does;
  safe, since the model makes no claim after it -/
  | busContention
  deriving DecidableEq, Repr

/-- What the model does not take on. -/
inductive Refusal
  /-- raised by an arm of `exec` whose instruction has no meaning yet; safe -/
  | notModelled (mnemonic : String)
  /-- raised by a step on the input `frame` when its bits are no frame of the opcode table, for the
  reason `e`: the Frame Encoder's interface cannot ask for such a frame (41_frame_encoder.md R100),
  and the CORE sends none (R110, 30_encoding.md R63, R65); safe, since nothing is sent and the model
  makes no claim after it (log 8) -/
  | noSuchFrame (e : DecodeError)
  deriving DecidableEq, Repr

/-- A controller just powered up (10_state.md R37). -/
def Ctl.powerUp : Ctl where
  sink := []
  openBits := none
  life := .uninitialized
  clkCfg := false
  ram := []

/-- The machine after `rst` at the power-up of a board with configuration `c` (10_state.md R37):
every register at its reset value, `VARIANT[k]` loaded from the strap. -/
def State.powerOn (c : Config) : State where
  cfg := c
  cs0 := true
  cs1 := true
  wr := true
  data := false
  variant0 := c.strap0
  variant1 := c.strap1
  op := 0
  cs := 0
  width := 0
  addr := 0
  dat := 0
  sh := 0
  cnt := 0
  acc := 0
  dly := c.dPOR
  fa := 0
  fi := 0
  si := 0
  busy := false
  porDone := false
  rspValid := false
  rspErr := 0
  rspData := 0
  feCs := .c0
  tr := []
  ctl0 := Ctl.powerUp
  ctl1 := Ctl.powerUp
  inbox := []

/-- The machine right after reset (10_state.md R37). -/
def State.reset : State := State.powerOn Config.board

end Sys2Proof.Machine
end

