-- ==== Sys2Proof/Machine/Operands.lean ====
section
/-! DEFINITION. Operand forms: the per-variant constants, the range checks, the bit reversal, and the
layout of a lookup's result. -/

namespace Sys2Proof

/-- `AW(v)`, the width of the address field (00_scope.md R5). -/
def Variant.aw : Variant → Nat
  | .A => 6
  | .B => 7

/-- `TOP(v)`, the highest valid controller address (00_scope.md R5). -/
def Variant.top : Variant → Nat
  | .A => 0x3F
  | .B => 0x51

end Sys2Proof

namespace Sys2Proof.Machine

/-- `bitCount` in `BT_MIN..BT_MAX` (40_bit_transmitter.md R90, 41_frame_encoder.md R101). -/
def transmitWidthOk (w : BitVec 5) : Bool := 1 ≤ w.toNat && w.toNat ≤ 16

/-- `bitWidth` in `WD_MIN..WD_MAX` (41_frame_encoder.md R107). -/
def dataWidthOk (w : BitVec 5) : Bool := 4 ≤ w.toNat && w.toNat ≤ 16

/-- The loop of the bit reversal on the accumulator and the rest of the payload, `n` turns to go
(41_frame_encoder.md R101). -/
def revLoop : Nat → BitVec 16 → BitVec 16 → BitVec 16
  | 0, acc, _ => acc
  | n + 1, acc, p => revLoop n ((acc <<< 1) ||| (p &&& 1#16)) (p >>> 1)

/-- `REV(payload, W)` (41_frame_encoder.md R101). -/
def rev (payload : BitVec 16) (w : Nat) : BitVec 16 := revLoop w 0 payload

/-- The all-elements nibble, `0xF` on and `0x0` off (44_display_driver.md R153). -/
def allNibble (on : Bool) : Nibble := if on then 0xF else 0x0

/-- `IND_ON` and `IND_OFF` (00_scope.md R5, 42_address_element_map.md R126). -/
def indNibble (on : Bool) : Nibble := if on then 0b0100 else 0b0000

/-- The result of `RESOLVE_DIGIT` on variant A (30_encoding.md R70). -/
def digitAResult (a : BitVec 7) : BitVec 32 := 0#5 ++ 16#5 ++ 0#15 ++ a

/-- The result of `RESOLVE_DIGIT` on variant B (30_encoding.md R70). -/
def digitBResult (al ah : BitVec 7) (nl nh : Nibble) : BitVec 32 :=
  0#4 ++ 1#1 ++ 4#5 ++ nh ++ nl ++ ah ++ al

/-- The result of `RESOLVE_IND` (30_encoding.md R70). -/
def indResult (a : BitVec 7) (nib : Nibble) : BitVec 32 := 0#5 ++ 4#5 ++ 0#4 ++ nib ++ 0#7 ++ a

end Sys2Proof.Machine
end

