-- ==== Sys2Proof/Machine/Ops.lean ====
section
/-! DEFINITION. The shared operations: per-controller accessors, the ghost RAM and the ghost
controller, the bus events with their observers, the power-up delay, reset, and the entry of an
error. -/

namespace Sys2Proof.Machine

/-! ### Per-controller state -/

/-- `CS[k]` (10_state.md R22). -/
def State.csPin (s : State) : Cs → Bool
  | .c0 => s.cs0
  | .c1 => s.cs1

/-- `CS[k] <- b`. -/
def State.putCsPin (s : State) (k : Cs) (b : Bool) : State :=
  match k with
  | .c0 => { s with cs0 := b }
  | .c1 => { s with cs1 := b }

/-- `VARIANT[k]` (10_state.md R23). -/
def State.variant (s : State) : Cs → Variant
  | .c0 => s.variant0
  | .c1 => s.variant1

/-- The observers of controller `k`. -/
def State.ctl (s : State) : Cs → Ctl
  | .c0 => s.ctl0
  | .c1 => s.ctl1

/-- The observers of controller `k` become `c`. -/
def State.putCtl (s : State) (k : Cs) (c : Ctl) : State :=
  match k with
  | .c0 => { s with ctl0 := c }
  | .c1 => { s with ctl1 := c }

/-! ### The ghost RAM (10_state.md R32, 20_memory.md R46) -/

/-- What an address that is not listed reads as: `unknown`, the value at power-up (10_state.md R37). -/
def Ram.unlisted : Option Nibble := none

/-- `ram[k][a]`, `none` for `unknown`. -/
def Ram.read : Ram → Nat → Option Nibble
  | [], _ => Ram.unlisted
  | (b, v) :: m, a => if a = b then some v else Ram.read m a

/-- `ram[k][a] <- v`, keeping the addresses rising. -/
def Ram.write : Ram → Nat → Nibble → Ram
  | [], a, v => [(a, v)]
  | (b, u) :: m, a, v =>
    if a < b then (a, v) :: (b, u) :: m
    else if a = b then (a, v) :: m
    else (b, u) :: Ram.write m a v

/-- `ram[k][a] <- unknown`: the address is no longer listed. -/
def Ram.forget : Ram → Nat → Ram
  | [], _ => []
  | (b, u) :: m, a => if a = b then m else (b, u) :: Ram.forget m a

/-- Every `ram[k][a] <- unknown`. -/
def Ram.allUnknown : Ram := []

/-- The canonical form: addresses strictly rising. (No entry can equal `unknown`.) -/
def Ram.wf : Ram → Bool
  | [] => true
  | [_] => true
  | (a, _) :: (b, v) :: m => decide (a < b) && Ram.wf ((b, v) :: m)

/-- No address above `top` is listed (20_memory.md R41). -/
def Ram.below (m : Ram) (top : Nat) : Bool := m.all (fun e => decide (e.1 ≤ top))

/-- Payload bits in wire order from address `a` on: whole nibbles, bit 0 first, then a partial
nibble that becomes `unknown` (20_memory.md R44, R46, R47). -/
def Ram.writeBits (m : Ram) (a : Nat) : Bits → Ram
  | b0 :: b1 :: b2 :: b3 :: rest =>
    Ram.writeBits (m.write a (fieldLSB 4 [b0, b1, b2, b3])) (a + 1) rest
  | [] => m
  | _ => m.forget a

/-- `MemWrite` of the payload bits `d` from address `a` on a controller whose highest address is
`top` (20_memory.md R46): a span past the top makes everything `unknown` (R51). -/
def Ram.memWrite (m : Ram) (top a : Nat) (d : Bits) : Ram :=
  let q := d.length / 4
  let r := d.length % 4
  if top < a ∨ top < a + q + (if 0 < r then 1 else 0) - 1 then Ram.allUnknown
  else m.writeBits a d

/-! ### The ghost controller (10_state.md R34, R35) -/

/-- `GhostCommand(k, code)`: the lifecycle table of 10_state.md R35. -/
def Ctl.command (c : Ctl) (code : BitVec 8) : Ctl :=
  match code.toNat with
  | 0x18 => { c with clkCfg := true }
  | 0x01 => { c with life := match c.life with
      | .uninitialized => .systemEnabled
      | l => l }
  | 0x02 => { c with life := match c.life with
      | .systemEnabled => .displayOff
      | .displayOn => .displayOff
      | l => l }
  | 0x03 => { c with life := match c.clkCfg, c.life with
      | true, .displayOff => .displayOn
      | true, .displayOn => .displayOn
      | _, _ => .unknown }
  | 0x04 => c
  | 0x05 => c
  | 0x08 => c
  | 0x40 => c
  | 0x60 => c
  | 0x80 => c
  | 0x88 => c
  | _ => { c with life := .unknown }

/-- Nothing is known of the controller any more (10_state.md R34's last arm, R221's bad resets). -/
def Ctl.lost (c : Ctl) : Ctl := { c with life := .unknown, ram := Ram.allUnknown }

/-- `GhostFrame(k, f)` for a controller of variant `v` (10_state.md R34). -/
def Ctl.frame (c : Ctl) (v : Variant) (f : Bits) : Ctl :=
  if f.length = 12 ∧ f.take 3 = prefixCmd then c.command (fieldMSB 8 ((f.drop 3).take 8))
  else if 3 + v.aw + 1 ≤ f.length ∧ f.take 3 = prefixData then
    { c with ram := c.ram.memWrite v.top (natOfMSB ((f.drop 3).take v.aw)) (f.drop (3 + v.aw)) }
  else c.lost

/-- The chip-select of the controller falls: a frame begins (10_state.md R30). -/
def Ctl.opened (c : Ctl) : Ctl := { c with openBits := some [] }

/-- A rising edge of `WR` while the controller is selected records the level of `DATA`
(10_state.md R30). -/
def Ctl.sampled (c : Ctl) (d : Bool) : Ctl := { c with openBits := c.openBits.map (· ++ [d]) }

/-- The chip-select of the controller rises: the frame goes to the sink and takes effect
(10_state.md R30). -/
def Ctl.closed (c : Ctl) (v : Variant) : Ctl :=
  match c.openBits with
  | none => c
  | some f => Ctl.frame { c with sink := c.sink ++ [f], openBits := none } v f

/-! ### Bus events (00_scope.md R9, 10_state.md R29, R30) -/

/-- The trace grows by `e`. -/
def State.record (s : State) (e : Event) : State := { s with tr := s.tr ++ [e] }

/-- `Wait(n)`: the delay counter has run down to 0 (10_state.md R25). -/
def State.wait (s : State) (n : Nat) : State := { s.record (.wait n) with dly := 0 }

/-- `Set(DATA, b)`. -/
def State.setData (s : State) (b : Bool) : State := { s.record (.set .data b) with data := b }

/-- Every selected controller samples `DATA`. -/
def State.sample (s : State) : State :=
  { s with
    ctl0 := if s.cs0 then s.ctl0 else s.ctl0.sampled s.data
    ctl1 := if s.cs1 then s.ctl1 else s.ctl1.sampled s.data }

/-- `Set(WR, b)`: its rising edge is the sampling edge. -/
def State.setWr (s : State) (b : Bool) : State :=
  let s' := if b && !s.wr then s.sample else s
  { s'.record (.set .wr b) with wr := b }

/-- `Set(CS[k], b)`: its edges open and close a frame. -/
def State.setCs (s : State) (k : Cs) (b : Bool) : State :=
  let c := s.ctl k
  let c' := match s.csPin k, b with
    | true, false => c.opened
    | false, true => c.closed (s.variant k)
    | _, _ => c
  ((s.record (.set (.cs k) b)).putCsPin k b).putCtl k c'

/-! ### Power-up and reset -/

/-- The power-up delay has passed (10_state.md R28, 70_reset_and_hazards.md R222): in the trace a
`Wait(D_POR)`, and `por_done` is 1 until the next reset. -/
def State.powerUp (s : State) : State := { s.wait s.cfg.dPOR with porDone := true }

/-- The ghost of a controller the model can say nothing about (70_reset_and_hazards.md R221). -/
def Ctl.afterBadReset : Ctl := Ctl.powerUp.lost

/-- `rst` (70_reset_and_hazards.md R220, R221): every register and observer takes its reset value
and `VARIANT[k]` is loaded from the strap; if the controllers were not powered up with the CORE, or
an operation was in progress, their ghost state is not known. The inputs to come stay. -/
def State.takeReset (s : State) (kind : ResetKind) : State :=
  let lost := s.busy || kind == .coreOnly
  let c := if lost then Ctl.afterBadReset else Ctl.powerUp
  { State.powerOn s.cfg with ctl0 := c, ctl1 := c, inbox := s.inbox }

/-! ### Responses -/

/-- The errors (60_exceptions.md R190). -/
inductive Err
  | invalidAddress
  | unsupportedGlyph
  | invalidWidth
  | illegalOp
  deriving DecidableEq, Repr

/-- The code of an error on `rsp_err` (60_exceptions.md R190). -/
def Err.code : Err → BitVec 3
  | .invalidAddress => 1
  | .unsupportedGlyph => 2
  | .invalidWidth => 3
  | .illegalOp => 4

/-- `raise E`, the entry of an error (60_exceptions.md R195): the response carries the code and no
data, `busy` returns to 0, and nothing else changes: no event, no pin, no ghost state. There is no
handler and no return operation (R198): the next request is accepted from here. -/
def State.raise (s : State) (e : Err) : State :=
  { s with rspValid := true, rspErr := e.code, rspData := 0, busy := false }

/-- `ok(d)`: the operation ends without error and returns `d` (00_scope.md R9); the sequencer is
back at its start (log 10). -/
def State.ok (s : State) (d : BitVec 32) : State :=
  { s with rspValid := true, rspErr := 0, rspData := d, busy := false, fi := 0, si := 0 }

end Sys2Proof.Machine
end

