-- ==== Sys2Proof/Machine/Flags.lean ====
section
/-! DEFINITION. The status bits (10_state.md R26) and what moves them between operations: the request
handshake. The CORE has no condition codes. -/

namespace Sys2Proof.Machine

/-- `req_ready = por_done AND NOT busy` (10_state.md R26). -/
def State.reqReady (s : State) : Bool := s.porDone && !s.busy

/-- A clock edge that accepts no request: `rsp_valid`, a one-cycle pulse, falls (10_state.md R20). -/
def State.tick (s : State) : State := { s with rspValid := false }

/-- The request word `w` is accepted: the five operand latches are loaded together and `busy` rises
(10_state.md R24, R26). -/
def State.accept (s : State) (w : Request) : State :=
  { s with
    op := reqOp w
    cs := reqCs w
    width := reqWidth w
    addr := reqAddr w
    dat := reqDat w
    busy := true
    rspValid := false }

/-- The Frame Encoder's input `fe_cs` names line `k` (41_frame_encoder.md R100). -/
def State.selectFrame (s : State) (k : Cs) : State := { s with feCs := k, rspValid := false }

end Sys2Proof.Machine
end

