-- ==== Sys2Proof/Machine/BitTransmitter.lean ====
section
/-! DEFINITION. The Bit Transmitter (40_bit_transmitter.md): one bit slot, the serializer on the
registers `sh` and `cnt`, and the operation SENDBITS. -/

namespace Sys2Proof.Machine

/-- `BitSlot(b)` (40_bit_transmitter.md R82). -/
def State.bitSlot (s : State) (b : Bool) : State :=
  let s := s.wait s.cfg.dSU
  let s := s.setData b
  let s := s.wait s.cfg.dWR
  let s := s.setWr false
  let s := s.wait s.cfg.dWR
  let s := s.setWr true
  s.wait s.cfg.dHD

/-- The end of a slot: the next bit's index, until `cnt` is 0 (40_bit_transmitter.md R86). -/
def State.nextBit (s : State) : State := if s.cnt = 0 then s else { s with cnt := s.cnt - 1 }

/-- The Bit Transmitter's registers take `value` and the index `i` (40_bit_transmitter.md R86). -/
def State.loadBt (s : State) (value : BitVec 16) (i : BitVec 5) : State :=
  { s with sh := value, cnt := i }

/-- `n` slots, each driving `sh[cnt]` (40_bit_transmitter.md R86). -/
def State.slots : Nat → State → State
  | 0, s => s
  | n + 1, s => State.slots n (s.bitSlot (s.sh.getLsbD s.cnt.toNat)).nextBit

/-- The Bit Transmitter sends bits `n-1` down to 0 of `value`, `n` in 1 to 16
(40_bit_transmitter.md R80, R83, R86). -/
def State.sendBits (s : State) (value : BitVec 16) (n : Nat) : State :=
  State.slots n (s.loadBt value (BitVec.ofNat 5 (n - 1)))

/-- `SENDBITS value, bitCount` (40_bit_transmitter.md R80, R90). -/
def execSendbits (value : BitVec 16) (bitCount : BitVec 5) (s : State) :
    Host.Outcome State Fault Refusal :=
  .next (if transmitWidthOk bitCount then (s.sendBits value bitCount.toNat).ok 0
    else s.raise .invalidWidth)

end Sys2Proof.Machine
end

