-- ==== Sys2Proof/Machine/FrameEncoder.lean ====
section
/-! DEFINITION. The Frame Encoder (41_frame_encoder.md): the chip-select bracket, command and data
frames, and the operations REVBITS, SENDCMD and WRDATA. -/

namespace Sys2Proof.Machine

/-- The Frame Encoder's input `fe_cs` takes line `k` (41_frame_encoder.md R100). -/
def State.loadCs (s : State) (k : Cs) : State := { s with feCs := k }

/-- The registers `acc` and `fa` take the reversed payload and the address of a data frame
(10_state.md R25). -/
def State.loadFe (s : State) (reversed : BitVec 16) (address : BitVec 7) : State :=
  { s with acc := reversed, fa := address }

/-- The sequencer is at field `i` of the frame (10_state.md R27). -/
def State.setSi (s : State) (i : Nat) : State := { s with si := i }

/-- The sequencer goes on to the next frame (10_state.md R27). -/
def State.nextFrame (s : State) : State := { s with fi := s.fi + 1 }

/-- `FrameOpen(cs)` (41_frame_encoder.md R104); the line is the Frame Encoder's input `fe_cs`. -/
def State.frameOpen (s : State) (k : Cs) : State :=
  let s := s.loadCs k
  let s := s.wait s.cfg.dSU
  let s := s.setCs k false
  s.wait s.cfg.dSU

/-- `FrameClose(cs)` (41_frame_encoder.md R105); then the next frame's index (10_state.md R27). -/
def State.frameClose (s : State) (k : Cs) : State :=
  let s := s.wait s.cfg.dSU
  let s := s.setCs k true
  let s := s.wait s.cfg.dSU
  s.nextFrame

/-- Field number `si` of a frame (10_state.md R27): the low `n` bits of `v`, most significant first. -/
def State.field (s : State) (si : Nat) (v : BitVec 16) (n : Nat) : State :=
  (s.setSi si).sendBits v n

/-- A command frame with code `cmd` on line `k` (41_frame_encoder.md R106). -/
def State.commandFrame (s : State) (k : Cs) (cmd : BitVec 8) : State :=
  let s := s.frameOpen k
  let s := s.field 0 0b100 3
  let s := s.field 1 (cmd.setWidth 16) 8
  let s := s.field 2 1 1
  s.frameClose k

/-- A data frame on line `k` with an address field of `aw` bits and `w` payload bits
(41_frame_encoder.md R108): the payload is reversed in `acc` and the address is in `fa`. -/
def State.dataFrame (s : State) (k : Cs) (aw : Nat) (address : BitVec 7) (payload : BitVec 16)
    (w : Nat) : State :=
  let s := s.loadFe (rev payload w) address
  let s := s.frameOpen k
  let s := s.field 0 0b101 3
  let s := s.field 1 (address.setWidth 16) aw
  let s := s.field 2 s.acc w
  s.frameClose k

/-- A data frame with the address width of the controller on line `k` (41_frame_encoder.md R108,
R113). -/
def State.writeData (s : State) (k : Cs) (address : BitVec 7) (payload : BitVec 16) (w : Nat) :
    State :=
  s.dataFrame k (s.variant k).aw address payload w

/-- The sequencer is back at its start after a frame that belongs to no host request (log 10). -/
def State.frameEnd (s : State) : State := { s with fi := 0, si := 0 }

/-- `REVBITS payload, bitWidth` (41_frame_encoder.md R101). -/
def execRevbits (payload : BitVec 16) (bitWidth : BitVec 5) (s : State) :
    Host.Outcome State Fault Refusal :=
  .next (if transmitWidthOk bitWidth then
      let s := s.loadFe (rev payload bitWidth.toNat) s.fa
      s.ok (s.acc.setWidth 32)
    else s.raise .invalidWidth)

/-- `SENDCMD cs, cmd` (41_frame_encoder.md R106): no check, no error. -/
def execSendcmd (k : Cs) (cmd : BitVec 8) (s : State) : Host.Outcome State Fault Refusal :=
  .next ((s.commandFrame k cmd).ok 0)

/-- `WRDATA cs, address, payload, bitWidth` (41_frame_encoder.md R107, R108). -/
def execWrdata (k : Cs) (address : BitVec 7) (payload : BitVec 16) (bitWidth : BitVec 5)
    (s : State) : Host.Outcome State Fault Refusal :=
  .next (if (s.variant k).top < address.toNat then s.raise .invalidAddress
    else if dataWidthOk bitWidth then (s.writeData k address payload bitWidth.toNat).ok 0
    else s.raise .invalidWidth)

end Sys2Proof.Machine
end

