-- ==== Sys2Proof/Machine/CommandFrames.lean ====
section
/-! DEFINITION. The command frames of the opcode table (45_controller_commands.md): the frame goes
over the bus to the selected controller, in its bracket, and takes effect there when its
chip-select rises (10_state.md R30, R34, R35). -/

namespace Sys2Proof.Machine

/-- The command frame of `code` on the selected line, as an instruction of its own. -/
def State.runCommand (s : State) (code : BitVec 8) : State := (s.commandFrame s.feCs code).frameEnd

/-- `SYS_DIS`, system-disable (45_controller_commands.md R171). -/
def execSysDis (s : State) : Host.Outcome State Fault Refusal := .next (s.runCommand 0x00)

/-- `SYS_EN`, system-enable (45_controller_commands.md R172). -/
def execSysEn (s : State) : Host.Outcome State Fault Refusal := .next (s.runCommand 0x01)

/-- `LCD_OFF`, display-off (45_controller_commands.md R173). -/
def execLcdOff (s : State) : Host.Outcome State Fault Refusal := .next (s.runCommand 0x02)

/-- `LCD_ON`, display-on (45_controller_commands.md R174). -/
def execLcdOn (s : State) : Host.Outcome State Fault Refusal := .next (s.runCommand 0x03)

/-- `TIMER_DIS`, timer-disable (45_controller_commands.md R175). -/
def execTimerDis (s : State) : Host.Outcome State Fault Refusal := .next (s.runCommand 0x04)

/-- `WDT_DIS`, watchdog-disable (45_controller_commands.md R176). -/
def execWdtDis (s : State) : Host.Outcome State Fault Refusal := .next (s.runCommand 0x05)

/-- `TONE_OFF`, tone-off (45_controller_commands.md R177). -/
def execToneOff (s : State) : Host.Outcome State Fault Refusal := .next (s.runCommand 0x08)

/-- `RC_SEL`, RC-oscillator-select (45_controller_commands.md R178). -/
def execRcSel (s : State) : Host.Outcome State Fault Refusal := .next (s.runCommand 0x18)

/-- `TONE4K_40`, 4 kHz tone on for one of the variants (45_controller_commands.md R179). -/
def execTone4k40 (s : State) : Host.Outcome State Fault Refusal := .next (s.runCommand 0x40)

/-- `TONE4K_60`, 4 kHz tone on for the other variant (45_controller_commands.md R180). -/
def execTone4k60 (s : State) : Host.Outcome State Fault Refusal := .next (s.runCommand 0x60)

/-- `IRQ_DIS`, IRQ-disable (45_controller_commands.md R181). -/
def execIrqDis (s : State) : Host.Outcome State Fault Refusal := .next (s.runCommand 0x80)

/-- `IRQ_EN`, IRQ-enable (45_controller_commands.md R182). -/
def execIrqEn (s : State) : Host.Outcome State Fault Refusal := .next (s.runCommand 0x88)

/-- `CMD_UNNAMED`, a code the spec does not name: sent unchecked (45_controller_commands.md R183). -/
def execCmdUnnamed (code : BitVec 8) (s : State) : Host.Outcome State Fault Refusal :=
  .next (s.runCommand code)

end Sys2Proof.Machine
end

