-- ==== Sys2Proof/Machine/DataFrames.lean ====
section
/-! DEFINITION. The data frames of the opcode table (30_encoding.md R62, R63): the frame goes over the
bus to the selected controller, in its bracket, and its payload is written to the controller's RAM
when its chip-select rises (10_state.md R30, R34, 20_memory.md R46). -/

namespace Sys2Proof.Machine

/-- The data frame with address field `a` and payload `d` on the selected line, as an instruction of
its own. The widths of the two fields are the row's. The address is sent as it is: the spec rejects
an address above `TOP(B)` only for `WRDATA` (41_frame_encoder.md R107) and does not say whether a
frame of its own is checked; that it is not is the model's choice (log 28). The controller then
takes it by 20_memory.md R46, which makes its RAM unknown. -/
def State.runData {aw w : Nat} (s : State) (a : BitVec aw) (d : BitVec w) : State :=
  (s.dataFrame s.feCs aw (a.setWidth 7) (d.setWidth 16) w).frameEnd

/-- `DATA_A_W4`, 13 bits (30_encoding.md R62). -/
def execDataAW4 (a : BitVec 6) (d : BitVec 4) (s : State) : Host.Outcome State Fault Refusal :=
  .next (s.runData a d)

/-- `DATA_A_W5`, 14 bits (30_encoding.md R62). -/
def execDataAW5 (a : BitVec 6) (d : BitVec 5) (s : State) : Host.Outcome State Fault Refusal :=
  .next (s.runData a d)

/-- `DATA_A_W6`, 15 bits (30_encoding.md R62). -/
def execDataAW6 (a : BitVec 6) (d : BitVec 6) (s : State) : Host.Outcome State Fault Refusal :=
  .next (s.runData a d)

/-- `DATA_A_W7`, 16 bits (30_encoding.md R62). -/
def execDataAW7 (a : BitVec 6) (d : BitVec 7) (s : State) : Host.Outcome State Fault Refusal :=
  .next (s.runData a d)

/-- `DATA_A_W8`, 17 bits (30_encoding.md R62). -/
def execDataAW8 (a : BitVec 6) (d : BitVec 8) (s : State) : Host.Outcome State Fault Refusal :=
  .next (s.runData a d)

/-- `DATA_A_W9`, 18 bits (30_encoding.md R62). -/
def execDataAW9 (a : BitVec 6) (d : BitVec 9) (s : State) : Host.Outcome State Fault Refusal :=
  .next (s.runData a d)

/-- `DATA_A_W10`, 19 bits (30_encoding.md R62). -/
def execDataAW10 (a : BitVec 6) (d : BitVec 10) (s : State) : Host.Outcome State Fault Refusal :=
  .next (s.runData a d)

/-- `DATA_A_W11`, 20 bits (30_encoding.md R62). -/
def execDataAW11 (a : BitVec 6) (d : BitVec 11) (s : State) : Host.Outcome State Fault Refusal :=
  .next (s.runData a d)

/-- `DATA_A_W12`, 21 bits (30_encoding.md R62). -/
def execDataAW12 (a : BitVec 6) (d : BitVec 12) (s : State) : Host.Outcome State Fault Refusal :=
  .next (s.runData a d)

/-- `DATA_A_W13`, 22 bits (30_encoding.md R62). -/
def execDataAW13 (a : BitVec 6) (d : BitVec 13) (s : State) : Host.Outcome State Fault Refusal :=
  .next (s.runData a d)

/-- `DATA_A_W14`, 23 bits (30_encoding.md R62). -/
def execDataAW14 (a : BitVec 6) (d : BitVec 14) (s : State) : Host.Outcome State Fault Refusal :=
  .next (s.runData a d)

/-- `DATA_A_W15`, 24 bits (30_encoding.md R62). -/
def execDataAW15 (a : BitVec 6) (d : BitVec 15) (s : State) : Host.Outcome State Fault Refusal :=
  .next (s.runData a d)

/-- `DATA_A_W16`, 25 bits (30_encoding.md R62). -/
def execDataAW16 (a : BitVec 6) (d : BitVec 16) (s : State) : Host.Outcome State Fault Refusal :=
  .next (s.runData a d)

/-- `DATA_B_W4`, 14 bits (30_encoding.md R62). -/
def execDataBW4 (a : BitVec 7) (d : BitVec 4) (s : State) : Host.Outcome State Fault Refusal :=
  .next (s.runData a d)

/-- `DATA_B_W5`, 15 bits (30_encoding.md R62). -/
def execDataBW5 (a : BitVec 7) (d : BitVec 5) (s : State) : Host.Outcome State Fault Refusal :=
  .next (s.runData a d)

/-- `DATA_B_W6`, 16 bits (30_encoding.md R62). -/
def execDataBW6 (a : BitVec 7) (d : BitVec 6) (s : State) : Host.Outcome State Fault Refusal :=
  .next (s.runData a d)

/-- `DATA_B_W7`, 17 bits (30_encoding.md R62). -/
def execDataBW7 (a : BitVec 7) (d : BitVec 7) (s : State) : Host.Outcome State Fault Refusal :=
  .next (s.runData a d)

/-- `DATA_B_W8`, 18 bits (30_encoding.md R62). -/
def execDataBW8 (a : BitVec 7) (d : BitVec 8) (s : State) : Host.Outcome State Fault Refusal :=
  .next (s.runData a d)

/-- `DATA_B_W9`, 19 bits (30_encoding.md R62). -/
def execDataBW9 (a : BitVec 7) (d : BitVec 9) (s : State) : Host.Outcome State Fault Refusal :=
  .next (s.runData a d)

/-- `DATA_B_W10`, 20 bits (30_encoding.md R62). -/
def execDataBW10 (a : BitVec 7) (d : BitVec 10) (s : State) : Host.Outcome State Fault Refusal :=
  .next (s.runData a d)

/-- `DATA_B_W11`, 21 bits (30_encoding.md R62). -/
def execDataBW11 (a : BitVec 7) (d : BitVec 11) (s : State) : Host.Outcome State Fault Refusal :=
  .next (s.runData a d)

/-- `DATA_B_W12`, 22 bits (30_encoding.md R62). -/
def execDataBW12 (a : BitVec 7) (d : BitVec 12) (s : State) : Host.Outcome State Fault Refusal :=
  .next (s.runData a d)

/-- `DATA_B_W13`, 23 bits (30_encoding.md R62). -/
def execDataBW13 (a : BitVec 7) (d : BitVec 13) (s : State) : Host.Outcome State Fault Refusal :=
  .next (s.runData a d)

/-- `DATA_B_W14`, 24 bits (30_encoding.md R62). -/
def execDataBW14 (a : BitVec 7) (d : BitVec 14) (s : State) : Host.Outcome State Fault Refusal :=
  .next (s.runData a d)

/-- `DATA_B_W15`, 25 bits (30_encoding.md R62). -/
def execDataBW15 (a : BitVec 7) (d : BitVec 15) (s : State) : Host.Outcome State Fault Refusal :=
  .next (s.runData a d)

/-- `DATA_B_W16`, 26 bits (30_encoding.md R62). -/
def execDataBW16 (a : BitVec 7) (d : BitVec 16) (s : State) : Host.Outcome State Fault Refusal :=
  .next (s.runData a d)

end Sys2Proof.Machine
end

