-- ==== Sys2Proof/Machine/AddressMap.lean ====
section
/-! DEFINITION. The Address/Element Map (42_address_element_map.md): the three maps, which are the
only readers of its tables (R132), and the operations RESOLVE_DIGIT and RESOLVE_IND. -/

namespace Sys2Proof.Machine

/-- `DigitA`: the address of a digit slot of variant A, 16 bits wide; no value out of range
(42_address_element_map.md R121). -/
def digitA (position : BitVec 7) : Option (BitVec 7) :=
  if position.toNat ≤ 14 then some (0x04 + 4 * position) else none

/-- `DigitB`: low and high address and low and high nibble of a digit of variant B; no value for a
position or a digit out of range (42_address_element_map.md R123, R125). -/
def digitB (c : Config) (position : BitVec 7) (value : BitVec 16) :
    Option (BitVec 7 × BitVec 7 × Nibble × Nibble) :=
  match c.digAddr[position.toNat]?, c.digNib.toList[value.toNat]? with
  | some (al, ah), some (nl, nh) =>
    some (BitVec.ofNat 7 al.val, BitVec.ofNat 7 ah.val, nl, nh)
  | _, _ => none

/-- `IndB`: address and nibble of an indicator of variant B; no value for a name out of range
(42_address_element_map.md R126). -/
def indB (c : Config) (name : BitVec 7) (on : Bool) : Option (BitVec 7 × Nibble) :=
  match c.indAddr.toList[name.toNat]? with
  | some a => some (BitVec.ofNat 7 a.val, indNibble on)
  | none => none

/-- The digit map of the first variant, empty on the other (42_address_element_map.md R129). -/
def digitSlot : Variant → BitVec 7 → Option (BitVec 7)
  | .A, position => digitA position
  | .B, _ => none

/-- The two-part digits of the second variant, empty on the other (42_address_element_map.md R129,
44_display_driver.md R156). -/
def digitPair (c : Config) : Variant → BitVec 7 → BitVec 16 →
    Option (BitVec 7 × BitVec 7 × Nibble × Nibble)
  | .A, _, _ => none
  | .B, position, value => digitB c position value

/-- The indicators of the second variant, empty on the other (42_address_element_map.md R129). -/
def indicator (c : Config) : Variant → BitVec 7 → Bool → Option (BitVec 7 × Nibble)
  | .A, _, _ => none
  | .B, name, on => indB c name on

/-- The result of RESOLVE_DIGIT, `none` for `InvalidAddress` (42_address_element_map.md R124). -/
def resolveDigitResult (c : Config) (v : Variant) (position : BitVec 7) (value : BitVec 16) :
    Option (BitVec 32) :=
  match v with
  | .A => (digitSlot .A position).map digitAResult
  | .B => (digitPair c .B position value).map fun (al, ah, nl, nh) => digitBResult al ah nl nh

/-- `RESOLVE_DIGIT cs, position, value` (42_address_element_map.md R124). -/
def execResolveDigit (k : Cs) (position : BitVec 7) (value : BitVec 16) (s : State) :
    Host.Outcome State Fault Refusal :=
  .next (match resolveDigitResult s.cfg (s.variant k) position value with
    | some r => s.ok r
    | none => s.raise .invalidAddress)

/-- `RESOLVE_IND cs, name, on` (42_address_element_map.md R128). -/
def execResolveInd (k : Cs) (name : BitVec 7) (on : Bool) (s : State) :
    Host.Outcome State Fault Refusal :=
  .next (match indicator s.cfg (s.variant k) name on with
    | some (a, nib) => s.ok (indResult a nib)
    | none => s.raise .invalidAddress)

end Sys2Proof.Machine
end

