-- ==== Sys2Proof/Machine/FontRom.lean ====
section
/-! DEFINITION. The Font Table (43_font_rom.md): the ROM and the operation GLYPH. -/

namespace Sys2Proof.Machine

/-- The font entry of 'A' (43_font_rom.md R141). -/
def glyphA : BitVec 16 := 0x5A4C

/-- `FONT`: the ten digits, the symbols, the letters from 'A' on (43_font_rom.md R140). -/
def fontRom (c : Config) : List (BitVec 16) :=
  c.fontDigits.toList ++ c.fontSymbols ++ glyphA :: c.fontLetters.toList

/-- `N_FONT = 36 + N_SYM` (43_font_rom.md R140). -/
def nFont (c : Config) : Nat := 36 + c.fontSymbols.length

/-- `RomRead(FONT, index)`, no value out of range (43_font_rom.md R143). -/
def glyphOf (c : Config) (index : BitVec 16) : Option (BitVec 16) := (fontRom c)[index.toNat]?

/-- `GLYPH index` (43_font_rom.md R143). -/
def execGlyph (index : BitVec 16) (s : State) : Host.Outcome State Fault Refusal :=
  .next (match glyphOf s.cfg index with
    | some p => s.ok (p.setWidth 32)
    | none => s.raise .unsupportedGlyph)

end Sys2Proof.Machine
end

