-- ==== Sys2Proof/Machine/DisplayDriver.lean ====
section
/-! DEFINITION. The Display Driver (44_display_driver.md): sequences of frames, all checks before the
first one (R163), and its seven operations. -/

namespace Sys2Proof.Machine

/-- The codes `INIT` sends, in order: clock-source-select, watchdog-disable, timer-disable,
system-enable, display-off (44_display_driver.md R151, R152). -/
def initCodes : List (BitVec 8) := [0x18, 0x05, 0x04, 0x01, 0x02]

/-- One command frame for each code, in order (44_display_driver.md R164). -/
def State.commands (s : State) (k : Cs) (codes : List (BitVec 8)) : State :=
  codes.foldl (fun s code => s.commandFrame k code) s

/-- One 4-bit data frame with payload `nib` for each of `n` addresses from `a` on, ascending
(44_display_driver.md R153). -/
def State.fill (k : Cs) (nib : Nibble) : Nat → Nat → State → State
  | 0, _, s => s
  | n + 1, a, s =>
    State.fill k nib n (a + 1) (s.writeData k (BitVec.ofNat 7 a) (nib.setWidth 16) 4)

/-- `INIT cs` (44_display_driver.md R151). -/
def execInit (k : Cs) (s : State) : Host.Outcome State Fault Refusal :=
  .next ((s.commands k initCodes).ok 0)

/-- `ALLSET cs, on` (44_display_driver.md R153): every valid address of the variant. -/
def execAllset (k : Cs) (on : Bool) (s : State) : Host.Outcome State Fault Refusal :=
  .next ((State.fill k (allNibble on) ((s.variant k).top + 1) 0 s).ok 0)

/-- `RENDER_DIGIT cs, position, value` (44_display_driver.md R155): low address first. -/
def execRenderDigit (k : Cs) (position : BitVec 7) (value : BitVec 16) (s : State) :
    Host.Outcome State Fault Refusal :=
  .next (match digitPair s.cfg (s.variant k) position value with
    | some (al, ah, nl, nh) =>
      ((s.writeData k al (nl.setWidth 16) 4).writeData k ah (nh.setWidth 16) 4).ok 0
    | none => s.raise .invalidAddress)

/-- `RENDER_CHAR cs, position, index` (44_display_driver.md R157): the address is judged before the
glyph (60_exceptions.md R197). -/
def execRenderChar (k : Cs) (position : BitVec 7) (index : BitVec 16) (s : State) :
    Host.Outcome State Fault Refusal :=
  .next (match digitSlot (s.variant k) position, glyphOf s.cfg index with
    | none, _ => s.raise .invalidAddress
    | some _, none => s.raise .unsupportedGlyph
    | some a, some p => (s.writeData k a p 16).ok 0)

/-- `SET_IND cs, name, on` (44_display_driver.md R159). -/
def execSetInd (k : Cs) (name : BitVec 7) (on : Bool) (s : State) :
    Host.Outcome State Fault Refusal :=
  .next (match indicator s.cfg (s.variant k) name on with
    | some (a, nib) => (s.writeData k a (nib.setWidth 16) 4).ok 0
    | none => s.raise .invalidAddress)

/-- `PWR_ON cs` (44_display_driver.md R161). -/
def execPwrOn (k : Cs) (s : State) : Host.Outcome State Fault Refusal :=
  .next ((s.commandFrame k 0x03).ok 0)

/-- `PWR_OFF cs` (44_display_driver.md R162). -/
def execPwrOff (k : Cs) (s : State) : Host.Outcome State Fault Refusal :=
  .next ((s.commandFrame k 0x02).ok 0)

end Sys2Proof.Machine
end

