-- ==== Sys2Proof/Machine/Unassigned.lean ====
section
/-! DEFINITION. The two unassigned operation numbers (30_encoding.md R71, 60_exceptions.md R194). -/

namespace Sys2Proof.Machine

/-- `op = 0x7`: `IllegalOp`, no bus event; no operand is judged (60_exceptions.md R197). -/
def execUnassigned7 (s : State) : Host.Outcome State Fault Refusal := .next (s.raise .illegalOp)

/-- `op = 0xF`: `IllegalOp`, no bus event; no operand is judged (60_exceptions.md R197). -/
def execUnassignedF (s : State) : Host.Outcome State Fault Refusal := .next (s.raise .illegalOp)

end Sys2Proof.Machine
end

