-- ==== Sys2Proof/Machine/Dispatch.lean ====
section
/-! DEFINITION. One arm for each instruction. -/

namespace Sys2Proof.Machine

def exec (i : Instr) (s : State) : Host.Outcome State Fault Refusal :=
  match i with
  | .sendbits value bitCount => Sys2Proof.Machine.execSendbits value bitCount s
  | .sendcmd k cmd => Sys2Proof.Machine.execSendcmd k cmd s
  | .wrdata k address payload bitWidth => Sys2Proof.Machine.execWrdata k address payload bitWidth s
  | .revbits payload bitWidth => Sys2Proof.Machine.execRevbits payload bitWidth s
  | .resolveDigit k position value => Sys2Proof.Machine.execResolveDigit k position value s
  | .resolveInd k name on => Sys2Proof.Machine.execResolveInd k name on s
  | .glyph index => Sys2Proof.Machine.execGlyph index s
  | .unassigned7 => Sys2Proof.Machine.execUnassigned7 s
  | .init k => Sys2Proof.Machine.execInit k s
  | .allset k on => Sys2Proof.Machine.execAllset k on s
  | .renderDigit k position value => Sys2Proof.Machine.execRenderDigit k position value s
  | .renderChar k position index => Sys2Proof.Machine.execRenderChar k position index s
  | .setInd k name on => Sys2Proof.Machine.execSetInd k name on s
  | .pwrOn k => Sys2Proof.Machine.execPwrOn k s
  | .pwrOff k => Sys2Proof.Machine.execPwrOff k s
  | .unassignedF => Sys2Proof.Machine.execUnassignedF s
  | .sysDis => Sys2Proof.Machine.execSysDis s
  | .sysEn => Sys2Proof.Machine.execSysEn s
  | .lcdOff => Sys2Proof.Machine.execLcdOff s
  | .lcdOn => Sys2Proof.Machine.execLcdOn s
  | .timerDis => Sys2Proof.Machine.execTimerDis s
  | .wdtDis => Sys2Proof.Machine.execWdtDis s
  | .toneOff => Sys2Proof.Machine.execToneOff s
  | .rcSel => Sys2Proof.Machine.execRcSel s
  | .tone4k40 => Sys2Proof.Machine.execTone4k40 s
  | .tone4k60 => Sys2Proof.Machine.execTone4k60 s
  | .irqDis => Sys2Proof.Machine.execIrqDis s
  | .irqEn => Sys2Proof.Machine.execIrqEn s
  | .cmdUnnamed code => Sys2Proof.Machine.execCmdUnnamed code s
  | .dataAW4 a d => Sys2Proof.Machine.execDataAW4 a d s
  | .dataAW5 a d => Sys2Proof.Machine.execDataAW5 a d s
  | .dataAW6 a d => Sys2Proof.Machine.execDataAW6 a d s
  | .dataAW7 a d => Sys2Proof.Machine.execDataAW7 a d s
  | .dataAW8 a d => Sys2Proof.Machine.execDataAW8 a d s
  | .dataAW9 a d => Sys2Proof.Machine.execDataAW9 a d s
  | .dataAW10 a d => Sys2Proof.Machine.execDataAW10 a d s
  | .dataAW11 a d => Sys2Proof.Machine.execDataAW11 a d s
  | .dataAW12 a d => Sys2Proof.Machine.execDataAW12 a d s
  | .dataAW13 a d => Sys2Proof.Machine.execDataAW13 a d s
  | .dataAW14 a d => Sys2Proof.Machine.execDataAW14 a d s
  | .dataAW15 a d => Sys2Proof.Machine.execDataAW15 a d s
  | .dataAW16 a d => Sys2Proof.Machine.execDataAW16 a d s
  | .dataBW4 a d => Sys2Proof.Machine.execDataBW4 a d s
  | .dataBW5 a d => Sys2Proof.Machine.execDataBW5 a d s
  | .dataBW6 a d => Sys2Proof.Machine.execDataBW6 a d s
  | .dataBW7 a d => Sys2Proof.Machine.execDataBW7 a d s
  | .dataBW8 a d => Sys2Proof.Machine.execDataBW8 a d s
  | .dataBW9 a d => Sys2Proof.Machine.execDataBW9 a d s
  | .dataBW10 a d => Sys2Proof.Machine.execDataBW10 a d s
  | .dataBW11 a d => Sys2Proof.Machine.execDataBW11 a d s
  | .dataBW12 a d => Sys2Proof.Machine.execDataBW12 a d s
  | .dataBW13 a d => Sys2Proof.Machine.execDataBW13 a d s
  | .dataBW14 a d => Sys2Proof.Machine.execDataBW14 a d s
  | .dataBW15 a d => Sys2Proof.Machine.execDataBW15 a d s
  | .dataBW16 a d => Sys2Proof.Machine.execDataBW16 a d s

end Sys2Proof.Machine
end

