-- ==== Sys2Proof/Machine/Fetch.lean ====
section
/-! DEFINITION. What the machine does next: the power-up delay, an idle period, a reset, or an
instruction that is read from the inputs and decoded. -/

namespace Sys2Proof.Machine

/-- The next thing that happens. -/
inductive Next
  /-- an instruction runs, from the state that has taken it in -/
  | run (i : Instr) (s : State)
  /-- no instruction: the step's outcome -/
  | done (o : Host.Outcome State Fault Refusal)

/-- A frame for line `k` from the Frame Encoder's interface: the instruction a controller of its
variant reads. The CORE sends no other bits in a bracket (30_encoding.md R63, R65,
41_frame_encoder.md R110): such an input is refused by name (log 8). -/
def State.takeFrame (s : State) (k : Cs) (bits : Bits) : Next :=
  match decodeFrame (s.variant k) bits with
  | .ok i => .run i (s.selectFrame k)
  | .error e => .done (.refused (.noSuchFrame e))

/-- An input other than reset and a foreign master, with the CORE ready. -/
def State.takeInput (s : State) : Input → Next
  | .request w => .run (decodeRequest w) (s.accept w)
  | .cutRequest w => .done (.next ((s.accept w).takeReset .board))
  | .frame k bits => s.takeFrame k bits
  | .idle => .done (.next s.tick)
  | .rst kind => .done (.next (s.takeReset kind))
  | .foreignDrive => .done (.fault .busContention)

/-- The state without its first input. -/
def State.popInput (s : State) : State := { s with inbox := s.inbox.tail }

/-- The inputs the machine sees whether it is ready or not: `rst` (70_reset_and_hazards.md R220), and
a foreign master (R230). -/
def Input.unconditional : Input → Bool
  | .rst _ => true
  | .foreignDrive => true
  | _ => false

/-- What happens next. A reset comes first; then the power-up delay must pass before any request is
accepted (10_state.md R28); then, if the CORE is ready, the next input is taken (R26); otherwise
time passes. -/
def State.fetch (s : State) : Next :=
  match s.inbox with
  | [] => if s.porDone then .done (.next s.tick) else .done (.next s.powerUp)
  | i :: _ =>
    if i.unconditional then s.popInput.takeInput i
    else if !s.porDone then .done (.next s.powerUp)
    else if s.busy then .done (.next s.tick)
    else s.popInput.takeInput i

/-- Line 0 carries a controller of variant `v` (for a frame that only such a controller reads as the
instruction wanted). -/
def State.strapFor (s : State) (v : Variant) : State := { s with variant0 := v }

/-- The input that brings an instruction's code to the machine: a request from the host, a frame for
the controller on line 0. -/
def Input.ofCode : Code → Input
  | .request w => .request w
  | .frame bits => .frame .c0 bits

/-- The state in which the code `c`, as `c.variant` reads it, is the next thing to run: past the
power-up delay, not busy, the input first, and for a data frame a controller of the variant that
reads it on line 0. -/
def State.loadCode (s : State) (c : Code) : State :=
  let s := if s.porDone then s else s.powerUp
  let s := match c with
    | .frame (true :: false :: true :: rest) => s.strapFor (Code.variant (.frame (true :: false :: true :: rest)))
    | _ => s
  { s with busy := false, inbox := Input.ofCode c :: s.inbox }

end Sys2Proof.Machine
end

