-- ==== Sys2Proof/Machine/Step.lean ====
section
/-! DEFINITION. One step, and how an instruction is placed where the next step takes it. -/

namespace Sys2Proof.Machine

/-- One step: what comes next happens as a whole (an operation runs to completion,
00_scope.md R10, 20_memory.md R52). -/
def step (s : State) : Host.Outcome State Fault Refusal :=
  match s.fetch with
  | .run i s' => exec i s'
  | .done o => o

/-- The state in which the next step runs the instruction that the opcode table's `nbits`-bit word
`w` stands for. -/
def State.withFetchWord (s : State) (nbits w : Nat) : State := s.loadCode (tableCode nbits w)

end Sys2Proof.Machine
end

