-- ==== Sys2Proof/Machine/Timing.lean ====
section
/-! DEFINITION. The event lists of the parts of an operation (00_scope.md R9: `emit`), and time read
off a trace: durations, clock edges, bus equality. No meaning reads a time (10_state.md R21). -/

namespace Sys2Proof.Machine

/-! ### Event lists -/

/-- The events of one bit slot (40_bit_transmitter.md R82). That `DATA` changes before `WR` falls is the
spec's decision D8 (log 20). -/
def slotEvents (c : Config) (b : Bool) : List Event :=
  [.wait c.dSU, .set .data b, .wait c.dWR, .set .wr false, .wait c.dWR, .set .wr true, .wait c.dHD]

/-- The events of a bit list. -/
def bitsEvents (c : Config) (bits : Bits) : List Event := bits.flatMap (slotEvents c)

/-- The events of `FrameOpen` (41_frame_encoder.md R104). -/
def openEvents (c : Config) (k : Cs) : List Event :=
  [.wait c.dSU, .set (.cs k) false, .wait c.dSU]

/-- The events of `FrameClose` (41_frame_encoder.md R105). -/
def closeEvents (c : Config) (k : Cs) : List Event :=
  [.wait c.dSU, .set (.cs k) true, .wait c.dSU]

/-- The events of a whole frame on line `k`. -/
def frameEvents (c : Config) (k : Cs) (bits : Bits) : List Event :=
  openEvents c k ++ bitsEvents c bits ++ closeEvents c k

/-! ### Time -/

/-- The units that pass in an event, at least (00_scope.md R9). -/
def Event.units : Event → Nat
  | .set _ _ => 0
  | .wait n => n

/-- The units that pass in an event list. -/
def duration (evs : List Event) : Nat := (evs.map Event.units).sum

/-- The time that passes in an event list at the least, in steps of the base time: one clock period a
unit (10_state.md R21). -/
def elapsed (c : Config) (evs : List Event) : Nat := duration evs * c.period

/-- The pin changes of an event list that starts at clock edge `t`, each with the edge it happens
at (40_bit_transmitter.md R85). -/
def edges : Nat → List Event → List (Nat × Line × Bool)
  | _, [] => []
  | t, .wait n :: evs => edges (t + n) evs
  | t, .set l b :: evs => (t, l, b) :: edges t evs

/-- Adjacent waits merged (10_state.md R29). -/
def mergeWaits : List Event → List Event
  | [] => []
  | .set l b :: evs => .set l b :: mergeWaits evs
  | .wait m :: evs =>
    match mergeWaits evs with
    | .wait n :: evs' => .wait (m + n) :: evs'
    | evs' => .wait m :: evs'

/-- Two traces are bus-equal (10_state.md R29); a `Wait(n)` is in both a lower bound. -/
def busEqual (t u : List Event) : Prop := mergeWaits t = mergeWaits u

/-- The reference schedule: every delay at its minimum (10_state.md R21). -/
def referenceSchedule (c : Config) : Prop :=
  c.dSU = 1 ∧ c.dWR = 2 ∧ c.dHD = 1 ∧ c.dPOR = 1000

end Sys2Proof.Machine
end

