-- ==== Sys2Proof/Safety.lean ====
section
/-! DEFINITION. What a safe run is, in the terms the statements use: the invariant between
operations, what an outside probe of the bus sees, and the timing contract of the bus. -/

namespace Sys2Proof.Machine

/-! ### Between operations -/

/-- The bus is at rest: both chip-selects and the strobe high and no frame in progress
(10_state.md R38). -/
def State.quiet (s : State) : Bool :=
  s.cs0 && s.cs1 && s.wr && s.ctl0.openBits.isNone && s.ctl1.openBits.isNone

/-- The ghost RAM of a controller is in its canonical form and lists only valid addresses of its
variant (20_memory.md R41). -/
def State.ramOk (s : State) (k : Cs) : Bool :=
  (s.ctl k).ram.wf && (s.ctl k).ram.below (s.variant k).top

/-- What holds between operations, and so after every step: the bus is at rest (10_state.md R38), no
operation is in progress, the ghost RAMs are in form, `dly` has run down once the power-up delay
has passed, and `rsp_err` holds one of the codes the CORE produces (60_exceptions.md R190). -/
def State.Inv (s : State) : Prop :=
  s.quiet = true ∧ s.busy = false ∧ s.ramOk .c0 = true ∧ s.ramOk .c1 = true ∧
    (s.porDone = true → s.dly = 0) ∧ s.rspErr.toNat ≤ 4

/-- The shape of a frame for a controller of variant `v` (30_encoding.md R60, R62, R63;
41_frame_encoder.md R110): twelve bits with prefix `100` and trailer 1, or prefix `101`, an address
field as wide as the variant's, and 4 to 16 payload bits. -/
def isFrame (v : Variant) (f : Bits) : Prop :=
  (f.length = 12 ∧ f.take 3 = prefixCmd ∧ f[11]? = some true) ∨
    (f.take 3 = prefixData ∧ ∃ w, 4 ≤ w ∧ w ≤ 16 ∧ f.length = 3 + v.aw + w)

/-- Every frame a controller has received since reset has the shape its variant calls for
(30_encoding.md R63, R65; 41_frame_encoder.md R110). -/
def State.OnlyFrames (s : State) : Prop :=
  ∀ k : Cs, ∀ f ∈ (s.ctl k).sink, isFrame (s.variant k) f

/-! ### What an instruction may change -/

/-- The registers that no operation writes: the configuration, `VARIANT[k]`, the operand latches
(10_state.md R23, R24), `por_done`, and the model's inputs to come. -/
def State.sameFixed (s t : State) : Prop :=
  t.cfg = s.cfg ∧ t.variant0 = s.variant0 ∧ t.variant1 = s.variant1 ∧ t.op = s.op ∧ t.cs = s.cs ∧
    t.width = s.width ∧ t.addr = s.addr ∧ t.dat = s.dat ∧ t.porDone = s.porDone ∧ t.inbox = s.inbox

/-- No bus event: the trace, the pins and everything the controllers hold are as before
(10_state.md R29, R30). -/
def State.sameBus (s t : State) : Prop :=
  t.tr = s.tr ∧ t.cs0 = s.cs0 ∧ t.cs1 = s.cs1 ∧ t.wr = s.wr ∧ t.data = s.data ∧ t.ctl0 = s.ctl0 ∧
    t.ctl1 = s.ctl1

/-- The datapath registers (10_state.md R25) and the Frame Encoder's line are as before. -/
def State.sameDatapath (s t : State) : Prop :=
  t.sh = s.sh ∧ t.cnt = s.cnt ∧ t.acc = s.acc ∧ t.dly = s.dly ∧ t.fa = s.fa ∧ t.feCs = s.feCs

/-- The operation ended without error and returned `d` (00_scope.md R9). -/
def State.answered (t : State) (d : BitVec 32) : Prop :=
  t.rspValid = true ∧ t.rspErr = 0 ∧ t.rspData = d ∧ t.busy = false

/-- The response registers and `busy`, which a wire frame does not touch. -/
def State.sameResponse (s t : State) : Prop :=
  t.rspValid = s.rspValid ∧ t.rspErr = s.rspErr ∧ t.rspData = s.rspData ∧ t.busy = s.busy

/-- The state after an operation that ended with the error code `e` (60_exceptions.md R195): the
response and `busy`, and nothing else. -/
def State.rejected (s : State) (e : BitVec 3) : State :=
  { s with rspValid := true, rspErr := e, rspData := 0, busy := false }

/-- One instruction after another, as far as each answers a next state. -/
def execAll : List Instr → State → Option State
  | [], s => some s
  | i :: is, s =>
    match exec i s with
    | .next t => execAll is t
    | _ => none

/-! ### Frames received -/

/-- The frames `bits` went over line `k` one after another, and nothing else happened on the bus
(20_memory.md R52, 44_display_driver.md R164): the trace and the sink of controller `k` grew by them,
the pins are back at rest with `DATA` at the last bit (which the spec decides in 92_eei_decisions.md
D7, log 19), and the other controller saw nothing. -/
def State.sentFrames (s t : State) (k : Cs) (frames : List Bits) : Prop :=
  t.tr = s.tr ++ frames.flatMap (frameEvents s.cfg k) ∧
    (t.ctl k).sink = (s.ctl k).sink ++ frames ∧
    (t.ctl k).openBits = (s.ctl k).openBits ∧
    t.ctl k.other = s.ctl k.other ∧
    t.cs0 = s.cs0 ∧ t.cs1 = s.cs1 ∧ t.wr = s.wr ∧
    t.data = (frames.flatten).getLastD s.data

/-- The lifecycle of a controller is as before. -/
def Ctl.sameLife (c d : Ctl) : Prop := d.life = c.life ∧ d.clkCfg = c.clkCfg

/-- The RAM `n` holds what a data frame with `w` payload bits of `d` written at address `a` leaves of
the RAM `m` of a controller whose highest address is `top` (20_memory.md R46): if the span passes
the top, nothing is known; otherwise the whole nibbles are the payload's, nibble `a + j` bits
`4j` to `4j+3`, a partial last nibble is unknown, and every other address is as before. -/
def Ram.holds {b : Nat} (m n : Ram) (top a w : Nat) (d : BitVec b) : Prop :=
  ∀ x : Nat, n.read x =
    if top + 1 < a + (w + 3) / 4 then none
    else if a ≤ x ∧ x < a + w / 4 then some (d.extractLsb' (4 * (x - a)) 4)
    else if x = a + w / 4 ∧ w % 4 ≠ 0 then none
    else m.read x

/-- Controller `c` of variant `v` after a whole frame `f` when none was in progress
(10_state.md R30, R34). -/
def Ctl.received (c : Ctl) (v : Variant) (f : Bits) : Ctl :=
  Ctl.frame { c with sink := c.sink ++ [f] } v f

/-- The frames a controller has received since reset tell its ghost state (10_state.md R34): `base`
is the controller right after the reset. -/
def Ctl.replay (base : Ctl) (v : Variant) (frames : List Bits) : Ctl :=
  frames.foldl (fun c f => c.received v f) base

/-- The command frame of `code` went to controller `k` and changed nothing but the bus, the datapath
registers a frame uses, and the lifecycle of that controller (41_frame_encoder.md R106). -/
def State.tookCommand (s t : State) (k : Cs) (code : BitVec 8) : Prop :=
  s.sentFrames t k [commandBits code] ∧ (t.ctl k).ram = (s.ctl k).ram ∧ s.sameFixed t ∧
    t.acc = s.acc ∧ t.fa = s.fa

/-- The data frame with `aw` bits of `a` and `w` bits of `d` went to controller `k` and changed
nothing but the bus, the datapath registers a frame uses, and the RAM of that controller
(41_frame_encoder.md R108). -/
def State.tookData {m n : Nat} (s t : State) (k : Cs) (aw : Nat) (a : BitVec m) (w : Nat)
    (d : BitVec n) : Prop :=
  s.sentFrames t k [dataBits aw a w d] ∧ (s.ctl k).sameLife (t.ctl k) ∧ s.sameFixed t

/-! ### A probe on the bus -/

/-- What someone sees who has only the bus lines, from reset on (10_state.md R30): the levels, per
line the frame in progress and the frames seen, and whether both chip-selects were ever low
together (20_memory.md R55). -/
structure Probe where
  cs0 : Bool
  cs1 : Bool
  wr : Bool
  data : Bool
  open0 : Option Bits
  open1 : Option Bits
  seen0 : List Bits
  seen1 : List Bits
  clash : Bool
  deriving DecidableEq, Repr

/-- The probe at reset (10_state.md R37). -/
def Probe.start : Probe where
  cs0 := true
  cs1 := true
  wr := true
  data := false
  open0 := none
  open1 := none
  seen0 := []
  seen1 := []
  clash := false

/-- The probe sees an event. -/
def Probe.see (p : Probe) : Event → Probe
  | .wait _ => p
  | .set .data b => { p with data := b }
  | .set .wr b =>
    if b = true ∧ p.wr = false then
      { p with
        wr := true
        open0 := if p.cs0 then p.open0 else p.open0.map (· ++ [p.data])
        open1 := if p.cs1 then p.open1 else p.open1.map (· ++ [p.data]) }
    else { p with wr := b }
  | .set (.cs .c0) false =>
    { p with
      cs0 := false
      open0 := if p.cs0 then some [] else p.open0
      clash := p.clash || !p.cs1 }
  | .set (.cs .c0) true =>
    { p with
      cs0 := true
      seen0 := if p.cs0 then p.seen0 else p.seen0 ++ p.open0.toList
      open0 := if p.cs0 then p.open0 else none }
  | .set (.cs .c1) false =>
    { p with
      cs1 := false
      open1 := if p.cs1 then some [] else p.open1
      clash := p.clash || !p.cs0 }
  | .set (.cs .c1) true =>
    { p with
      cs1 := true
      seen1 := if p.cs1 then p.seen1 else p.seen1 ++ p.open1.toList
      open1 := if p.cs1 then p.open1 else none }

/-- What a probe has seen in a trace. -/
def probeOf (tr : List Event) : Probe := tr.foldl Probe.see Probe.start

/-- The trace tells the pins, the frames in progress and the sinks (10_state.md R29: it is "the
complete observable behaviour of the CORE on the bus"), and in it no two chip-selects were low
together (20_memory.md R55). -/
def State.Probed (s : State) : Prop :=
  probeOf s.tr =
    { cs0 := s.cs0
      cs1 := s.cs1
      wr := s.wr
      data := s.data
      open0 := s.ctl0.openBits
      open1 := s.ctl1.openBits
      seen0 := s.ctl0.sink
      seen1 := s.ctl1.sink
      clash := false }

/-! ### The timing contract (40_bit_transmitter.md R84) -/

/-- A monitor of the timing contract: the level of `WR`, the units since `DATA` was last driven, since
`WR` last fell and since `WR` last rose, and whether every bound has been met so far. -/
structure Monitor where
  wr : Bool
  sinceData : Nat
  sinceFall : Nat
  sinceRise : Nat
  ok : Bool
  deriving DecidableEq, Repr

/-- The monitor at reset: no edge has happened for long. -/
def Monitor.start : Monitor where
  wr := true
  sinceData := 1000
  sinceFall := 1000
  sinceRise := 1000
  ok := true

/-- The monitor sees an event. `DATA` may be driven only while `WR` is high (R84 (e)) and at least 2
units after it rose (b); `WR` may fall only 4 units after it rose (d); it may rise only 4 units after
`DATA` was driven (a) and 2 after it fell (c). -/
def Monitor.see (m : Monitor) : Event → Monitor
  | .wait n =>
    { m with
      sinceData := m.sinceData + n
      sinceFall := m.sinceFall + n
      sinceRise := m.sinceRise + n }
  | .set .data _ => { m with sinceData := 0, ok := m.ok && m.wr && decide (2 ≤ m.sinceRise) }
  | .set .wr false => { m with wr := false, sinceFall := 0, ok := m.ok && decide (4 ≤ m.sinceRise) }
  | .set .wr true =>
    { m with
      wr := true
      sinceRise := 0
      ok := m.ok && decide (4 ≤ m.sinceData) && decide (2 ≤ m.sinceFall) }
  | .set (.cs _) _ => m

/-- The monitor after a trace. -/
def monitorOf (tr : List Event) : Monitor := tr.foldl Monitor.see Monitor.start

/-- The trace so far meets the timing contract, `WR` is high, and it has been so for at least the
hold time (40_bit_transmitter.md R84). -/
def State.Timely (s : State) : Prop :=
  (monitorOf s.tr).ok = true ∧ (monitorOf s.tr).wr = true ∧ 1 ≤ (monitorOf s.tr).sinceRise

end Sys2Proof.Machine
end

