-- ==== Sys2Proof/Certificates/Slice0/Obligations.lean ====
section
/-! DEFINITION. The statements for the provers, from the numbered rules of spec/. -/

open Sys2Proof Sys2Proof.Machine

/-- Every well-formed instruction is read back from its code, with every operand at every value: a
request from its word, a frame by a controller that fits it (30_encoding.md R60, R62, R66 to R68). -/
def Obligations.DecodeOfEncodeIsTheInstruction : Prop :=
  ∀ (i : Instr) (v : Variant), i.wf = true → i.fits v = true → decode v (encode i) = .ok i

/-- A frame that is read as an instruction is exactly that instruction's frame, and the instruction is
well formed (30_encoding.md R60, R62, R65). -/
def Obligations.FrameHasOneMeaning : Prop :=
  ∀ (v : Variant) (bits : Bits) (i : Instr), decodeFrame v bits = .ok i →
    encode i = .frame bits ∧ i.wf = true ∧ i.fits v = true

/-- Every request word, written as its six fields, is read as R67 and R68 of 30_encoding.md say; the
reserved bits and the fields an operation does not use have no part in what is read (R71). -/
def Obligations.RequestFieldsAreReadAndTheRestIgnored : Prop :=
  ∀ (cs : BitVec 1) (rsv : BitVec 3) (width : BitVec 5) (addr : BitVec 7) (dat : BitVec 16),
    let word : BitVec 4 → Request := fun op => op ++ cs ++ rsv ++ width ++ addr ++ dat
    decodeRequest (word 0x0) = .sendbits dat width ∧
    decodeRequest (word 0x1) = .sendcmd (Cs.ofBit cs) (dat.setWidth 8) ∧
    decodeRequest (word 0x2) = .wrdata (Cs.ofBit cs) addr dat width ∧
    decodeRequest (word 0x3) = .revbits dat width ∧
    decodeRequest (word 0x4) = .resolveDigit (Cs.ofBit cs) addr dat ∧
    decodeRequest (word 0x5) = .resolveInd (Cs.ofBit cs) addr (dat.getLsbD 0) ∧
    decodeRequest (word 0x6) = .glyph dat ∧
    decodeRequest (word 0x7) = .unassigned7 ∧
    decodeRequest (word 0x8) = .init (Cs.ofBit cs) ∧
    decodeRequest (word 0x9) = .allset (Cs.ofBit cs) (dat.getLsbD 0) ∧
    decodeRequest (word 0xA) = .renderDigit (Cs.ofBit cs) addr dat ∧
    decodeRequest (word 0xB) = .renderChar (Cs.ofBit cs) addr dat ∧
    decodeRequest (word 0xC) = .setInd (Cs.ofBit cs) addr (dat.getLsbD 0) ∧
    decodeRequest (word 0xD) = .pwrOn (Cs.ofBit cs) ∧
    decodeRequest (word 0xE) = .pwrOff (Cs.ofBit cs) ∧
    decodeRequest (word 0xF) = .unassignedF

/-- A few words written out bit by bit, from the encodings of 30_encoding.md and the vectors of
95_test_vectors.md. -/
def Obligations.WrittenOutWordsDecode : Prop :=
  decodeRequest 0x2081CDA00 = .wrdata .c0 0x1C 0xDA00 16 ∧
    decodeRequest 0x17FFFAB01 = .sendcmd .c0 0x01 ∧
    decodeRequest 0xB0006000E = .renderChar .c0 6 14 ∧
    decodeTableWord 16 0x803 = some .sysEn ∧
    decodeFrame .A [true, false, true, false, true, true, true, false, false,
      false, false, false, false, false, false, false, false,
      false, true, false, true, true, false, true, true] = .ok (.dataAW16 0x1C 0xDA00) ∧
    decodeFrame .B [true, false, true, true, false, false, true, true, false, false,
      false, false, true, false] = .ok (.dataBW4 0x4C 0x4)

/-- The twelve bits of a command frame (30_encoding.md R60): prefix `100`, the code most significant bit
first, the trailer 1; as a number `0x801 + 2*cmd`. The frame of every code is what the encoder
gives for its row. -/
def Obligations.CommandFrameLayout : Prop :=
  ∀ cmd : BitVec 8,
    (commandBits cmd).length = 12 ∧
    (commandBits cmd).take 3 = [true, false, false] ∧
    (∀ i, i < 8 → (commandBits cmd)[3 + i]? = some (cmd.getLsbD (7 - i))) ∧
    (commandBits cmd)[11]? = some true ∧
    natOfMSB (commandBits cmd) = 0x801 + 2 * cmd.toNat ∧
    encode (commandOf cmd) = .frame (commandBits cmd)

/-- The bits of a data frame (30_encoding.md R62): prefix `101`, the address most significant bit first
in `AW(v)` bits, then the payload bit 0 first, and nothing after it. -/
def Obligations.DataFrameLayout : Prop :=
  ∀ (v : Variant) (address : BitVec 7) (w : Nat) (payload : BitVec 16),
    let f := dataBits v.aw address w payload
    f.length = 3 + v.aw + w ∧
    f.take 3 = [true, false, true] ∧
    (∀ i, i < v.aw → f[3 + i]? = some (address.getLsbD (v.aw - 1 - i))) ∧
    (∀ j, j < w → f[3 + v.aw + j]? = some (payload.getLsbD j)) ∧
    Variant.aw .A = 6 ∧ Variant.aw .B = 7

/-- When the CORE is ready and the host offers a word, a step is the operation it asks for, from the
state with the operand latches loaded from the word, `busy` up, `rsp_valid` down (10_state.md R24,
R26) and the input consumed. That one step is the whole operation is the model's choice (log 3). -/
def Obligations.StepRunsTheOfferedRequest : Prop :=
  ∀ (s : State) (w : Request) (rest : List Input),
    s.porDone = true → s.busy = false → s.inbox = .request w :: rest →
    step s = exec (decodeRequest w)
      { s with
        inbox := rest
        op := w.extractLsb' 32 4
        cs := w.extractLsb' 31 1
        width := w.extractLsb' 23 5
        addr := w.extractLsb' 16 7
        dat := w.extractLsb' 0 16
        busy := true
        rspValid := false }

/-- When the CORE is ready and its Frame Encoder is asked for a frame on line `k` that a controller of
its variant reads as instruction `i`, a step is `i` with line `k` selected (the model's choice, log 6). -/
def Obligations.StepRunsTheFrameOnItsLine : Prop :=
  ∀ (s : State) (k : Cs) (bits : Bits) (i : Instr) (rest : List Input),
    s.porDone = true → s.busy = false → s.inbox = .frame k bits :: rest →
    decodeFrame (s.variant k) bits = .ok i →
    step s = exec i { s with inbox := rest, feCs := k, rspValid := false }

/-- The CORE sends only frames of the two kinds (30_encoding.md R63, R65, 41_frame_encoder.md R110), and
the Frame Encoder's interface (R100) cannot ask for other bits: an input that does is refused by name
and nothing is sent. That the model can be given such an input, and that it stops there, is the
model's choice (log 8). -/
def Obligations.BitsThatAreNoFrameAreNotSent : Prop :=
  ∀ (s : State) (k : Cs) (bits : Bits) (e : DecodeError) (rest : List Input),
    s.porDone = true → s.busy = false → s.inbox = .frame k bits :: rest →
    decodeFrame (s.variant k) bits = .error e →
    step s = .refused (.noSuchFrame e)

/-- Before the power-up delay has passed `req_ready` is 0 and a step (other than a reset or a foreign
master) only lets the delay pass: a `Wait(D_POR)` of at least 1000 units, the inputs left as they
are, `por_done` 1 (10_state.md R28, 70_reset_and_hazards.md R222). That the whole delay is one step,
which looks at no other input, is log 5 (DEDUCED). -/
def Obligations.NothingIsAcceptedBeforeThePowerUpDelay : Prop :=
  ∀ s : State, s.porDone = false →
    (∀ kind rest, s.inbox ≠ .rst kind :: rest) → (∀ rest, s.inbox ≠ .foreignDrive :: rest) →
    s.reqReady = false ∧ 1000 ≤ s.cfg.dPOR ∧
    step s = .next { s with dly := 0, porDone := true, tr := s.tr ++ [.wait s.cfg.dPOR] }

/-- A step in which nothing is offered only lets `rsp_valid` fall: it is a one-cycle pulse (10_state.md
R20). The same for an idle period, the input `idle`, which is used up (log 4). That `rsp_err` and
`rsp_data` hold while it falls is log 14 (DEDUCED). -/
def Obligations.ResponsePulseLastsOneStep : Prop :=
  (∀ s : State, s.porDone = true → s.inbox = [] → step s = .next { s with rspValid := false }) ∧
  ∀ (s : State) (rest : List Input), s.porDone = true → s.busy = false → s.inbox = .idle :: rest →
    step s = .next { s with inbox := rest, rspValid := false }

/-- Another master on the bus is against 70_reset_and_hazards.md R230: the machine stops by name (the
model's choice, log 16). -/
def Obligations.ForeignMasterStopsTheMachine : Prop :=
  ∀ (s : State) (rest : List Input), s.inbox = .foreignDrive :: rest →
    step s = .fault .busContention

/-- Every value of 10_state.md R37's table, most of which the spec marks as its decisions (D2, D7), for
the state after reset. -/
def Obligations.ResetValues : Prop :=
  let s := State.reset
  s.cs0 = true ∧ s.cs1 = true ∧ s.wr = true ∧ s.data = false ∧
  s.variant0 = s.cfg.strap0 ∧ s.variant1 = s.cfg.strap1 ∧
  s.op = 0 ∧ s.cs = 0 ∧ s.width = 0 ∧ s.addr = 0 ∧ s.dat = 0 ∧
  s.sh = 0 ∧ s.cnt = 0 ∧ s.acc = 0 ∧ s.fa = 0 ∧ s.dly = s.cfg.dPOR ∧
  s.busy = false ∧ s.porDone = false ∧ s.reqReady = false ∧
  s.rspValid = false ∧ s.rspErr = 0 ∧ s.rspData = 0 ∧ s.tr = [] ∧
  ∀ k, (s.ctl k).sink = [] ∧ (s.ctl k).openBits = none ∧ (s.ctl k).life = .uninitialized ∧
    (s.ctl k).clkCfg = false ∧ ∀ a, (s.ctl k).ram.read a = none

/-- `rst` at any time gives every register its reset value and loads `VARIANT[k]` from the strap
(70_reset_and_hazards.md R220); if only the CORE is reset, or an operation was in progress, nothing
is known of the controllers (R221). The same holds for a reset in the middle of the operation a
request asked for. That `clk_cfg` is 0 after such a reset is log 15 (DEDUCED); that the sequencer
position and `fe_cs` have the values of `State.powerOn` is log 10 and log 12 (DESIGN CHOICE). -/
def Obligations.ResetInputLoadsTheResetValues : Prop :=
  (∀ (s : State) (kind : ResetKind) (rest : List Input), s.inbox = .rst kind :: rest →
    ∃ t, step s = .next t ∧ t.inbox = rest ∧
      { t with ctl0 := Ctl.powerUp, ctl1 := Ctl.powerUp, inbox := [] } = State.powerOn s.cfg ∧
      ∀ k, (t.ctl k).sink = [] ∧ (t.ctl k).openBits = none ∧ (t.ctl k).clkCfg = false ∧
        (∀ a, (t.ctl k).ram.read a = none) ∧
        (t.ctl k).life = if s.busy = true ∨ kind = .coreOnly then .unknown else .uninitialized) ∧
  (∀ (s : State) (w : Request) (rest : List Input),
    s.porDone = true → s.busy = false → s.inbox = .cutRequest w :: rest →
    ∃ t, step s = .next t ∧ t.inbox = rest ∧
      { t with ctl0 := Ctl.powerUp, ctl1 := Ctl.powerUp, inbox := [] } = State.powerOn s.cfg ∧
      ∀ k, (t.ctl k).life = .unknown ∧ ∀ a, (t.ctl k).ram.read a = none)

/-- SENDBITS (40_bit_transmitter.md R80, R82, R83, R90): bits `bitCount-1` down to 0, each in a bit slot;
no chip-select moves. A controller that is not selected sees nothing (R88), a selected one gathers
the bits (R89). `sh`, `cnt`, `dly` and the sequencer move; nothing else does. A width outside 1..16
is rejected before any event. -/
def Obligations.SendbitsSendsItsBitsMsbFirst : Prop :=
  ∀ (value : BitVec 16) (bitCount : BitVec 5) (s : State), s.wr = true →
    let n := bitCount.toNat
    (1 ≤ n ∧ n ≤ 16 →
      ∃ t, exec (.sendbits value bitCount) s = .next t ∧ t.answered 0 ∧
        t.tr = s.tr ++ bitsEvents s.cfg (bitsMSB value n) ∧
        t.wr = true ∧ t.cs0 = s.cs0 ∧ t.cs1 = s.cs1 ∧ t.data = value.getLsbD 0 ∧
        (∀ k, s.csPin k = true → t.ctl k = s.ctl k) ∧
        (∀ k, s.csPin k = false →
          t.ctl k = { s.ctl k with openBits := (s.ctl k).openBits.map (· ++ bitsMSB value n) }) ∧
        s.sameFixed t ∧ t.acc = s.acc ∧ t.fa = s.fa ∧ t.feCs = s.feCs) ∧
    (n = 0 ∨ 16 < n → exec (.sendbits value bitCount) s = .next (s.rejected 3))

/-- REVBITS (41_frame_encoder.md R101): bit `j` of the result is bit `W-1-j` of the payload, 0 from bit
`W` on; no bus event, and only the accumulator of the reversal is used (log 11). A width outside
1..16 is rejected. -/
def Obligations.RevbitsAnswersTheMirrorImage : Prop :=
  ∀ (payload : BitVec 16) (bitWidth : BitVec 5) (s : State),
    let w := bitWidth.toNat
    (1 ≤ w ∧ w ≤ 16 →
      ∃ t d, exec (.revbits payload bitWidth) s = .next t ∧ t.answered d ∧
        (∀ j, j < 32 → d.getLsbD j = (decide (j < w) && payload.getLsbD (w - 1 - j))) ∧
        s.sameBus t ∧ s.sameFixed t ∧ t.sh = s.sh ∧ t.cnt = s.cnt ∧ t.dly = s.dly ∧ t.fa = s.fa ∧
        t.feCs = s.feCs) ∧
    (w = 0 ∨ 16 < w → exec (.revbits payload bitWidth) s = .next (s.rejected 3))

/-- `REV(REV(v, W), W) = zext_16(v[W-1:0])` for every width in 1..16 (41_frame_encoder.md R102). -/
def Obligations.ReversalIsAnInvolution : Prop :=
  ∀ (v : BitVec 16) (w : Nat), 1 ≤ w → w ≤ 16 →
    rev (rev v w) w = BitVec.ofNat 16 (v.toNat % 2 ^ w)

/-- SENDCMD (41_frame_encoder.md R106): one command frame in its bracket on line `cs`, for every code,
without a check; the sink of that controller gains it and its lifecycle moves by 10_state.md R35;
`DATA` is left at the trailer (the spec's decision D7, log 19). No RAM, no other controller and no other register changes. -/
def Obligations.SendcmdSendsOneCommandFrame : Prop :=
  ∀ (k : Cs) (cmd : BitVec 8) (s : State), s.quiet = true →
    ∃ t, exec (.sendcmd k cmd) s = .next t ∧ t.answered 0 ∧ s.tookCommand t k cmd ∧
      t.data = true ∧
      (t.ctl k).life = ((s.ctl k).command cmd).life ∧
      (t.ctl k).clkCfg = ((s.ctl k).command cmd).clkCfg

/-- WRDATA with valid operands (41_frame_encoder.md R108, R113; 20_memory.md R46): one data frame with
the address width of the controller on line `cs`, the payload bit 0 first; the RAM takes the
payload's nibbles from `address` on, a partial one becomes unknown, and a span past the top makes
everything unknown. Nothing else changes but the registers a frame uses. -/
def Obligations.WrdataSendsOneDataFrame : Prop :=
  ∀ (k : Cs) (address : BitVec 7) (payload : BitVec 16) (bitWidth : BitVec 5) (s : State),
    s.quiet = true → (s.ctl k).ram.wf = true → address.toNat ≤ (s.variant k).top →
    4 ≤ bitWidth.toNat → bitWidth.toNat ≤ 16 →
    let w := bitWidth.toNat
    ∃ t, exec (.wrdata k address payload bitWidth) s = .next t ∧ t.answered 0 ∧
      s.tookData t k (s.variant k).aw address w payload ∧
      t.data = payload.getLsbD (w - 1) ∧
      Ram.holds (s.ctl k).ram (t.ctl k).ram (s.variant k).top address.toNat w payload

/-- The validation of WRDATA (41_frame_encoder.md R107): first the whole 7-bit address against `TOP(v)`,
then the width against 4..16; a rejected request changes nothing but the response. -/
def Obligations.WrdataRejectsBeforeAnyEvent : Prop :=
  ∀ (k : Cs) (address : BitVec 7) (payload : BitVec 16) (bitWidth : BitVec 5) (s : State),
    ((s.variant k).top < address.toNat →
      exec (.wrdata k address payload bitWidth) s = .next (s.rejected 1)) ∧
    (address.toNat ≤ (s.variant k).top → bitWidth.toNat < 4 ∨ 16 < bitWidth.toNat →
      exec (.wrdata k address payload bitWidth) s = .next (s.rejected 3)) ∧
    Variant.top .A = 0x3F ∧ Variant.top .B = 0x51

/-- The little-endian nibble order of 20_memory.md R44: a 16-bit write and four 4-bit writes of its
nibbles at successive addresses leave the same RAM, though not the same trace. -/
def Obligations.OneWideWriteIsFourNarrowOnes : Prop :=
  ∀ (k : Cs) (a : Nat) (p : BitVec 16) (s : State), s.quiet = true →
    a + 3 ≤ (s.variant k).top →
    ∃ t u, exec (.wrdata k (BitVec.ofNat 7 a) p 16) s = .next t ∧
      execAll [.wrdata k (BitVec.ofNat 7 a) p 4,
        .wrdata k (BitVec.ofNat 7 (a + 1)) (p >>> 4) 4,
        .wrdata k (BitVec.ofNat 7 (a + 2)) (p >>> 8) 4,
        .wrdata k (BitVec.ofNat 7 (a + 3)) (p >>> 12) 4] s = some u ∧
      (t.ctl k).ram = (u.ctl k).ram ∧
      ∀ j, j < 4 → (t.ctl k).ram.read (a + j) = some (p.extractLsb' (4 * j) 4)

/-- RESOLVE_DIGIT (42_address_element_map.md R121, R123, R124; layout 30_encoding.md R70): on variant A the
slot `0x04 + 4*position`, 16 bits wide, for positions 0..14; on variant B the two addresses of the
position and the two nibbles of the digit; everything else is `InvalidAddress`. No bus event and no
register but the response and the sequencer changes. -/
def Obligations.ResolveDigitAnswersTheMap : Prop :=
  ∀ (k : Cs) (position : BitVec 7) (value : BitVec 16) (s : State),
    (s.variant k = .A → position.toNat ≤ 14 →
      ∃ t, exec (.resolveDigit k position value) s = .next t ∧
        t.answered (BitVec.ofNat 32 (0x04 + 4 * position.toNat + 16 * 2 ^ 22)) ∧
        s.sameBus t ∧ s.sameFixed t ∧ s.sameDatapath t) ∧
    (s.variant k = .A → 14 < position.toNat →
      exec (.resolveDigit k position value) s = .next (s.rejected 1)) ∧
    (∀ (al ah : Fin 82) (nl nh : Nibble), s.variant k = .B →
      s.cfg.digAddr[position.toNat]? = some (al, ah) →
      s.cfg.digNib.toList[value.toNat]? = some (nl, nh) →
      ∃ t, exec (.resolveDigit k position value) s = .next t ∧
        t.answered (BitVec.ofNat 32 (al.val + ah.val * 2 ^ 7 + nl.toNat * 2 ^ 14 +
          nh.toNat * 2 ^ 18 + 4 * 2 ^ 22 + 2 ^ 27)) ∧
        s.sameBus t ∧ s.sameFixed t ∧ s.sameDatapath t) ∧
    (s.variant k = .B → s.cfg.digAddr.length ≤ position.toNat ∨ 9 < value.toNat →
      exec (.resolveDigit k position value) s = .next (s.rejected 1))

/-- The digit slots of variant A (42_address_element_map.md R122): fifteen addresses, from 0x04 to 0x3C,
each 4 above the one before. -/
def Obligations.DigitSlotsRiseByFour : Prop :=
  (∀ i : Nat, i ≤ 14 → digitA (BitVec.ofNat 7 i) = some (BitVec.ofNat 7 (0x04 + 4 * i))) ∧
    digitA 0 = some 0x04 ∧ digitA 14 = some 0x3C ∧
    ∀ p : BitVec 7, 14 < p.toNat → digitA p = none

/-- RESOLVE_IND (42_address_element_map.md R126 to R128): on variant B and for names 0..4 the indicator's
address, width 4 and the nibble `0b0100` or `0b0000`; on variant A, and for any other name,
`InvalidAddress`. -/
def Obligations.ResolveIndAnswersTheMap : Prop :=
  ∀ (k : Cs) (name : BitVec 7) (on : Bool) (s : State),
    (∀ a : Fin 82, s.variant k = .B → s.cfg.indAddr.toList[name.toNat]? = some a →
      ∃ t, exec (.resolveInd k name on) s = .next t ∧
        t.answered (BitVec.ofNat 32 (a.val + (if on then 4 else 0) * 2 ^ 14 + 4 * 2 ^ 22)) ∧
        s.sameBus t ∧ s.sameFixed t ∧ s.sameDatapath t) ∧
    (s.variant k = .A ∨ 4 < name.toNat →
      exec (.resolveInd k name on) s = .next (s.rejected 1))

/-- GLYPH (43_font_rom.md R140, R141, R143): entry `index` of a ROM of `36 + N_SYM` entries, among them
'A' = 0x5A4C at `10 + N_SYM`; beyond its end `UnsupportedGlyph`. -/
def Obligations.GlyphReadsTheFont : Prop :=
  ∀ (index : BitVec 16) (s : State),
    (fontRom s.cfg).length = 36 + s.cfg.fontSymbols.length ∧
    (fontRom s.cfg)[10 + s.cfg.fontSymbols.length]? = some 0x5A4C ∧
    (∀ p, (fontRom s.cfg)[index.toNat]? = some p →
      ∃ t, exec (.glyph index) s = .next t ∧ t.answered (p.setWidth 32) ∧
        s.sameBus t ∧ s.sameFixed t ∧ s.sameDatapath t) ∧
    (36 + s.cfg.fontSymbols.length ≤ index.toNat →
      exec (.glyph index) s = .next (s.rejected 2))

/-- INIT (44_display_driver.md R151): five command frames, clock source first and display-off last; from
any known lifecycle the controller ends in DisplayOff with its clock source configured, from an
unknown one it stays unknown. No RAM and nothing of the other controller changes. -/
def Obligations.InitSendsFiveCommandsInOrder : Prop :=
  ∀ (k : Cs) (s : State), s.quiet = true →
    ∃ t, exec (.init k) s = .next t ∧ t.answered 0 ∧
      s.sentFrames t k [commandBits 0x18, commandBits 0x05, commandBits 0x04, commandBits 0x01,
        commandBits 0x02] ∧
      (t.ctl k).life = (if (s.ctl k).life = .unknown then .unknown else .displayOff) ∧
      (t.ctl k).clkCfg = true ∧ (t.ctl k).ram = (s.ctl k).ram ∧
      s.sameFixed t ∧ t.acc = s.acc ∧ t.fa = s.fa

/-- ALLSET (44_display_driver.md R153): one 4-bit data frame for every address from 0 to `TOP(v)`,
ascending (the spec's decision D18); afterwards every valid nibble is 0xF or 0x0; the lifecycle is unchanged. -/
def Obligations.AllsetWritesEveryNibble : Prop :=
  ∀ (k : Cs) (on : Bool) (s : State), s.quiet = true →
    let v := s.variant k
    let nib : Nibble := if on then 0xF else 0x0
    ∃ t, exec (.allset k on) s = .next t ∧ t.answered 0 ∧
      s.sentFrames t k ((List.range (v.top + 1)).map fun a =>
        dataBits v.aw (BitVec.ofNat 7 a) 4 nib) ∧
      (∀ a, (t.ctl k).ram.read a = if a ≤ v.top then some nib else (s.ctl k).ram.read a) ∧
      (s.ctl k).sameLife (t.ctl k) ∧ s.sameFixed t

/-- The idempotence of ALLSET (44_display_driver.md R154): the events it appends are a function of the
line, the operand, the configuration and the variant alone, so the second of two in succession
appends the same list, and leaves the RAM as it was. -/
def Obligations.AllsetTwiceIsTheSameOnTheBus : Prop :=
  ∀ (k : Cs) (on : Bool) (s : State), s.quiet = true →
    ∃ t u evs, exec (.allset k on) s = .next t ∧ exec (.allset k on) t = .next u ∧
      t.tr = s.tr ++ evs ∧ u.tr = t.tr ++ evs ∧
      (∀ a, (u.ctl k).ram.read a = (t.ctl k).ram.read a) ∧
      ∀ s' : State, s'.quiet = true → s'.cfg = s.cfg → s'.variant k = s.variant k →
        ∃ t', exec (.allset k on) s' = .next t' ∧ t'.tr = s'.tr ++ evs

/-- RENDER_DIGIT (44_display_driver.md R155): on variant B two 4-bit frames, the low address first; the
RAM takes the two nibbles (the high one last, should both addresses be the same); otherwise
`InvalidAddress` before any event. -/
def Obligations.RenderDigitWritesTwoNibbles : Prop :=
  ∀ (k : Cs) (position : BitVec 7) (value : BitVec 16) (s : State), s.quiet = true →
    (∀ (al ah : Fin 82) (nl nh : Nibble), s.variant k = .B →
      s.cfg.digAddr[position.toNat]? = some (al, ah) →
      s.cfg.digNib.toList[value.toNat]? = some (nl, nh) →
      ∃ t, exec (.renderDigit k position value) s = .next t ∧ t.answered 0 ∧
        s.sentFrames t k [dataBits 7 (BitVec.ofNat 7 al.val) 4 nl,
          dataBits 7 (BitVec.ofNat 7 ah.val) 4 nh] ∧
        (∀ a, (t.ctl k).ram.read a =
          if a = ah.val then some nh else if a = al.val then some nl else (s.ctl k).ram.read a) ∧
        (s.ctl k).sameLife (t.ctl k) ∧ s.sameFixed t) ∧
    (s.variant k = .A ∨ s.cfg.digAddr.length ≤ position.toNat ∨ 9 < value.toNat →
      exec (.renderDigit k position value) s = .next (s.rejected 1))

/-- RENDER_CHAR (44_display_driver.md R157): on variant A one 16-bit frame at `0x04 + 4*position` with
the font's pattern; the slot's nibbles take it, low nibble first. The position (and the variant) is
judged before the glyph. -/
def Obligations.RenderCharWritesTheGlyph : Prop :=
  ∀ (k : Cs) (position : BitVec 7) (index : BitVec 16) (s : State), s.quiet = true →
    (∀ p, s.variant k = .A → position.toNat ≤ 14 → (fontRom s.cfg)[index.toNat]? = some p →
      let a := 0x04 + 4 * position.toNat
      ∃ t, exec (.renderChar k position index) s = .next t ∧ t.answered 0 ∧
        s.tookData t k 6 (BitVec.ofNat 7 a) 16 p ∧
        (∀ x, (t.ctl k).ram.read x =
          if a ≤ x ∧ x < a + 4 then some (p.extractLsb' (4 * (x - a)) 4)
          else (s.ctl k).ram.read x)) ∧
    (s.variant k = .B ∨ 14 < position.toNat →
      exec (.renderChar k position index) s = .next (s.rejected 1)) ∧
    (s.variant k = .A → position.toNat ≤ 14 → (fontRom s.cfg).length ≤ index.toNat →
      exec (.renderChar k position index) s = .next (s.rejected 2))

/-- SET_IND (44_display_driver.md R159, 70_reset_and_hazards.md R231): on variant B one 4-bit frame; the
whole nibble at the indicator's address becomes `0b0100` or `0b0000`, whatever it held; otherwise
`InvalidAddress` before any event. -/
def Obligations.SetIndWritesTheWholeNibble : Prop :=
  ∀ (k : Cs) (name : BitVec 7) (on : Bool) (s : State), s.quiet = true →
    (∀ a : Fin 82, s.variant k = .B → s.cfg.indAddr.toList[name.toNat]? = some a →
      let nib : Nibble := if on then 0b0100 else 0b0000
      ∃ t, exec (.setInd k name on) s = .next t ∧ t.answered 0 ∧
        s.tookData t k 7 (BitVec.ofNat 7 a.val) 4 nib ∧
        (∀ x, (t.ctl k).ram.read x = if x = a.val then some nib else (s.ctl k).ram.read x)) ∧
    (s.variant k = .A ∨ 4 < name.toNat →
      exec (.setInd k name on) s = .next (s.rejected 1))

/-- PWR_ON and PWR_OFF (44_display_driver.md R161, R162): one frame with code 0x03 or 0x02; PWR_ON leads
to DisplayOn only from DisplayOff or DisplayOn with the clock source configured, else to Unknown;
PWR_OFF leads to DisplayOff from SystemEnabled, DisplayOff and DisplayOn and leaves the other two.
The RAM is untouched. -/
def Obligations.PowerOnAndOffSendOneCommand : Prop :=
  ∀ (k : Cs) (s : State), s.quiet = true →
    (∃ t, exec (.pwrOn k) s = .next t ∧ t.answered 0 ∧ s.tookCommand t k 0x03 ∧
      (t.ctl k).clkCfg = (s.ctl k).clkCfg ∧
      (t.ctl k).life =
        if (s.ctl k).clkCfg = true ∧ ((s.ctl k).life = .displayOff ∨ (s.ctl k).life = .displayOn)
        then .displayOn else .unknown) ∧
    (∃ t, exec (.pwrOff k) s = .next t ∧ t.answered 0 ∧ s.tookCommand t k 0x02 ∧
      (t.ctl k).clkCfg = (s.ctl k).clkCfg ∧
      (t.ctl k).life =
        if (s.ctl k).life = .uninitialized ∨ (s.ctl k).life = .unknown then (s.ctl k).life
        else .displayOff)

/-- `op = 0x7` and `op = 0xF`: `IllegalOp` and nothing else (30_encoding.md R71, 60_exceptions.md R194). -/
def Obligations.UnassignedOperationsAreRejected : Prop :=
  ∀ s : State,
    exec .unassigned7 s = .next (s.rejected 4) ∧ exec .unassignedF s = .next (s.rejected 4)

/-- The boot order of 70_reset_and_hazards.md R223: from any known lifecycle INIT leads to DisplayOff and
PWR_ON after it to DisplayOn, with the RAM as it was. -/
def Obligations.InitThenPowerOnShowsTheDisplay : Prop :=
  ∀ (k : Cs) (s : State), s.quiet = true → (s.ctl k).life ≠ .unknown →
    ∃ t u, exec (.init k) s = .next t ∧ (t.ctl k).life = .displayOff ∧
      exec (.pwrOn k) t = .next u ∧ (u.ctl k).life = .displayOn ∧ (u.ctl k).clkCfg = true ∧
      (u.ctl k).ram = (s.ctl k).ram

/-- Every display-driver operation is, on the bus, exactly the SENDCMD and WRDATA operations it expands
to (30_encoding.md R74): the same trace, the same pins, the same controllers afterwards. -/
def Obligations.ExpansionsAreTheSameOnTheBus : Prop :=
  ∀ (k : Cs) (s : State), s.quiet = true →
    (∃ t u, exec (.init k) s = .next t ∧
      execAll [.sendcmd k 0x18, .sendcmd k 0x05, .sendcmd k 0x04, .sendcmd k 0x01,
        .sendcmd k 0x02] s = some u ∧ u.sameBus t) ∧
    (∃ t u, exec (.pwrOn k) s = .next t ∧ execAll [.sendcmd k 0x03] s = some u ∧ u.sameBus t) ∧
    (∃ t u, exec (.pwrOff k) s = .next t ∧ execAll [.sendcmd k 0x02] s = some u ∧ u.sameBus t) ∧
    (∀ on : Bool, ∃ t u, exec (.allset k on) s = .next t ∧
      execAll ((List.range ((s.variant k).top + 1)).map fun a =>
        .wrdata k (BitVec.ofNat 7 a) (if on then 0xF else 0x0) 4) s = some u ∧ u.sameBus t) ∧
    (∀ (position : BitVec 7) (index p : BitVec 16), s.variant k = .A → position.toNat ≤ 14 →
      (fontRom s.cfg)[index.toNat]? = some p →
      ∃ t u, exec (.renderChar k position index) s = .next t ∧
        execAll [.wrdata k (0x04 + 4 * position) p 16] s = some u ∧ u.sameBus t) ∧
    (∀ (position : BitVec 7) (value : BitVec 16) (al ah : Fin 82) (nl nh : Nibble),
      s.variant k = .B → s.cfg.digAddr[position.toNat]? = some (al, ah) →
      s.cfg.digNib.toList[value.toNat]? = some (nl, nh) →
      ∃ t u, exec (.renderDigit k position value) s = .next t ∧
        execAll [.wrdata k (BitVec.ofNat 7 al.val) (nl.setWidth 16) 4,
          .wrdata k (BitVec.ofNat 7 ah.val) (nh.setWidth 16) 4] s = some u ∧ u.sameBus t) ∧
    (∀ (name : BitVec 7) (on : Bool) (a : Fin 82), s.variant k = .B →
      s.cfg.indAddr.toList[name.toNat]? = some a →
      ∃ t u, exec (.setInd k name on) s = .next t ∧
        execAll [.wrdata k (BitVec.ofNat 7 a.val) (if on then 0b0100 else 0b0000) 4] s = some u ∧
        u.sameBus t)

/-- The command frames that move the lifecycle of the selected controller (45_controller_commands.md R171
to R174, R178, R183; 10_state.md R35): each goes over the bus as one frame; no RAM, no response and
nothing of the other controller changes. That a wire frame is an
instruction on the line `fe_cs` and leaves the response as it was is the model's choice (log 6). -/
def Obligations.LifecycleFramesTakeEffect : Prop :=
  ∀ s : State, s.quiet = true →
    let k := s.feCs
    (∃ t, exec .sysDis s = .next t ∧ s.tookCommand t k 0x00 ∧ s.sameResponse t ∧
      (t.ctl k).life = .unknown ∧
      (t.ctl k).clkCfg = (s.ctl k).clkCfg) ∧
    (∃ t, exec .sysEn s = .next t ∧ s.tookCommand t k 0x01 ∧ s.sameResponse t ∧
      (t.ctl k).life = (if (s.ctl k).life = .uninitialized then .systemEnabled else (s.ctl k).life) ∧
      (t.ctl k).clkCfg = (s.ctl k).clkCfg) ∧
    (∃ t, exec .lcdOff s = .next t ∧ s.tookCommand t k 0x02 ∧ s.sameResponse t ∧
      (t.ctl k).life = (if (s.ctl k).life = .uninitialized ∨ (s.ctl k).life = .unknown then (s.ctl k).life
        else .displayOff) ∧
      (t.ctl k).clkCfg = (s.ctl k).clkCfg) ∧
    (∃ t, exec .lcdOn s = .next t ∧ s.tookCommand t k 0x03 ∧ s.sameResponse t ∧
      (t.ctl k).life = (if (s.ctl k).clkCfg = true ∧ ((s.ctl k).life = .displayOff ∨ (s.ctl k).life = .displayOn)
        then .displayOn else .unknown) ∧
      (t.ctl k).clkCfg = (s.ctl k).clkCfg) ∧
    (∃ t, exec .rcSel s = .next t ∧ s.tookCommand t k 0x18 ∧ s.sameResponse t ∧
      (t.ctl k).life = (s.ctl k).life ∧
      (t.ctl k).clkCfg = true) ∧
    (∀ code : BitVec 8, (Instr.cmdUnnamed code).wf = true →
      ∃ t, exec (.cmdUnnamed code) s = .next t ∧ s.tookCommand t k code ∧ s.sameResponse t ∧
        (t.ctl k).life = .unknown ∧ (t.ctl k).clkCfg = (s.ctl k).clkCfg)

/-- The command frames with no effect on the ghost state (45_controller_commands.md R175 to R177, R179 to
R182; 10_state.md R35): each goes over the bus as one frame to the selected controller. That a wire frame is an
instruction on the line `fe_cs` and leaves the response as it was is the model's choice (log 6). -/
def Obligations.OtherCommandFramesChangeNoGhostState : Prop :=
  ∀ s : State, s.quiet = true →
    let k := s.feCs
    (∃ t, exec .timerDis s = .next t ∧ s.tookCommand t k 0x04 ∧ s.sameResponse t ∧
      (t.ctl k).life = (s.ctl k).life ∧
      (t.ctl k).clkCfg = (s.ctl k).clkCfg) ∧
    (∃ t, exec .wdtDis s = .next t ∧ s.tookCommand t k 0x05 ∧ s.sameResponse t ∧
      (t.ctl k).life = (s.ctl k).life ∧
      (t.ctl k).clkCfg = (s.ctl k).clkCfg) ∧
    (∃ t, exec .toneOff s = .next t ∧ s.tookCommand t k 0x08 ∧ s.sameResponse t ∧
      (t.ctl k).life = (s.ctl k).life ∧
      (t.ctl k).clkCfg = (s.ctl k).clkCfg) ∧
    (∃ t, exec .tone4k40 s = .next t ∧ s.tookCommand t k 0x40 ∧ s.sameResponse t ∧
      (t.ctl k).life = (s.ctl k).life ∧
      (t.ctl k).clkCfg = (s.ctl k).clkCfg) ∧
    (∃ t, exec .tone4k60 s = .next t ∧ s.tookCommand t k 0x60 ∧ s.sameResponse t ∧
      (t.ctl k).life = (s.ctl k).life ∧
      (t.ctl k).clkCfg = (s.ctl k).clkCfg) ∧
    (∃ t, exec .irqDis s = .next t ∧ s.tookCommand t k 0x80 ∧ s.sameResponse t ∧
      (t.ctl k).life = (s.ctl k).life ∧
      (t.ctl k).clkCfg = (s.ctl k).clkCfg) ∧
    (∃ t, exec .irqEn s = .next t ∧ s.tookCommand t k 0x88 ∧ s.sameResponse t ∧
      (t.ctl k).life = (s.ctl k).life ∧
      (t.ctl k).clkCfg = (s.ctl k).clkCfg)

/-- The data frames of variant A, one for each payload width (30_encoding.md R62, R63): each goes over
the bus as one frame to the selected controller, and a controller of variant A writes its nibbles
(20_memory.md R46). No lifecycle, no response and nothing of the other controller changes. That a wire frame is an
instruction on the line `fe_cs` and leaves the response as it was is the model's choice (log 6).
So is it that the address is sent unchecked (log 28). -/
def Obligations.DataFramesOfVariantAWriteTheirNibbles : Prop :=
  ∀ s : State, s.quiet = true → (s.ctl s.feCs).ram.wf = true →
    let k := s.feCs
    (∀ (a : BitVec 6) (d : BitVec 4), ∃ t, exec (.dataAW4 a d) s = .next t ∧
      s.tookData t k 6 a 4 d ∧ s.sameResponse t ∧ (s.variant k = .A →
        Ram.holds (s.ctl k).ram (t.ctl k).ram (Variant.top .A) a.toNat 4 (d.setWidth 16))) ∧
    (∀ (a : BitVec 6) (d : BitVec 5), ∃ t, exec (.dataAW5 a d) s = .next t ∧
      s.tookData t k 6 a 5 d ∧ s.sameResponse t ∧ (s.variant k = .A →
        Ram.holds (s.ctl k).ram (t.ctl k).ram (Variant.top .A) a.toNat 5 (d.setWidth 16))) ∧
    (∀ (a : BitVec 6) (d : BitVec 6), ∃ t, exec (.dataAW6 a d) s = .next t ∧
      s.tookData t k 6 a 6 d ∧ s.sameResponse t ∧ (s.variant k = .A →
        Ram.holds (s.ctl k).ram (t.ctl k).ram (Variant.top .A) a.toNat 6 (d.setWidth 16))) ∧
    (∀ (a : BitVec 6) (d : BitVec 7), ∃ t, exec (.dataAW7 a d) s = .next t ∧
      s.tookData t k 6 a 7 d ∧ s.sameResponse t ∧ (s.variant k = .A →
        Ram.holds (s.ctl k).ram (t.ctl k).ram (Variant.top .A) a.toNat 7 (d.setWidth 16))) ∧
    (∀ (a : BitVec 6) (d : BitVec 8), ∃ t, exec (.dataAW8 a d) s = .next t ∧
      s.tookData t k 6 a 8 d ∧ s.sameResponse t ∧ (s.variant k = .A →
        Ram.holds (s.ctl k).ram (t.ctl k).ram (Variant.top .A) a.toNat 8 (d.setWidth 16))) ∧
    (∀ (a : BitVec 6) (d : BitVec 9), ∃ t, exec (.dataAW9 a d) s = .next t ∧
      s.tookData t k 6 a 9 d ∧ s.sameResponse t ∧ (s.variant k = .A →
        Ram.holds (s.ctl k).ram (t.ctl k).ram (Variant.top .A) a.toNat 9 (d.setWidth 16))) ∧
    (∀ (a : BitVec 6) (d : BitVec 10), ∃ t, exec (.dataAW10 a d) s = .next t ∧
      s.tookData t k 6 a 10 d ∧ s.sameResponse t ∧ (s.variant k = .A →
        Ram.holds (s.ctl k).ram (t.ctl k).ram (Variant.top .A) a.toNat 10 (d.setWidth 16))) ∧
    (∀ (a : BitVec 6) (d : BitVec 11), ∃ t, exec (.dataAW11 a d) s = .next t ∧
      s.tookData t k 6 a 11 d ∧ s.sameResponse t ∧ (s.variant k = .A →
        Ram.holds (s.ctl k).ram (t.ctl k).ram (Variant.top .A) a.toNat 11 (d.setWidth 16))) ∧
    (∀ (a : BitVec 6) (d : BitVec 12), ∃ t, exec (.dataAW12 a d) s = .next t ∧
      s.tookData t k 6 a 12 d ∧ s.sameResponse t ∧ (s.variant k = .A →
        Ram.holds (s.ctl k).ram (t.ctl k).ram (Variant.top .A) a.toNat 12 (d.setWidth 16))) ∧
    (∀ (a : BitVec 6) (d : BitVec 13), ∃ t, exec (.dataAW13 a d) s = .next t ∧
      s.tookData t k 6 a 13 d ∧ s.sameResponse t ∧ (s.variant k = .A →
        Ram.holds (s.ctl k).ram (t.ctl k).ram (Variant.top .A) a.toNat 13 (d.setWidth 16))) ∧
    (∀ (a : BitVec 6) (d : BitVec 14), ∃ t, exec (.dataAW14 a d) s = .next t ∧
      s.tookData t k 6 a 14 d ∧ s.sameResponse t ∧ (s.variant k = .A →
        Ram.holds (s.ctl k).ram (t.ctl k).ram (Variant.top .A) a.toNat 14 (d.setWidth 16))) ∧
    (∀ (a : BitVec 6) (d : BitVec 15), ∃ t, exec (.dataAW15 a d) s = .next t ∧
      s.tookData t k 6 a 15 d ∧ s.sameResponse t ∧ (s.variant k = .A →
        Ram.holds (s.ctl k).ram (t.ctl k).ram (Variant.top .A) a.toNat 15 (d.setWidth 16))) ∧
    (∀ (a : BitVec 6) (d : BitVec 16), ∃ t, exec (.dataAW16 a d) s = .next t ∧
      s.tookData t k 6 a 16 d ∧ s.sameResponse t ∧ (s.variant k = .A →
        Ram.holds (s.ctl k).ram (t.ctl k).ram (Variant.top .A) a.toNat 16 (d.setWidth 16)))

/-- The data frames of variant B, one for each payload width (30_encoding.md R62, R63): each goes over
the bus as one frame to the selected controller, and a controller of variant B writes its nibbles
(20_memory.md R46). No lifecycle, no response and nothing of the other controller changes. That a wire frame is an
instruction on the line `fe_cs` and leaves the response as it was is the model's choice (log 6).
So is it that the address is sent unchecked (log 28). -/
def Obligations.DataFramesOfVariantBWriteTheirNibbles : Prop :=
  ∀ s : State, s.quiet = true → (s.ctl s.feCs).ram.wf = true →
    let k := s.feCs
    (∀ (a : BitVec 7) (d : BitVec 4), ∃ t, exec (.dataBW4 a d) s = .next t ∧
      s.tookData t k 7 a 4 d ∧ s.sameResponse t ∧ (s.variant k = .B →
        Ram.holds (s.ctl k).ram (t.ctl k).ram (Variant.top .B) a.toNat 4 (d.setWidth 16))) ∧
    (∀ (a : BitVec 7) (d : BitVec 5), ∃ t, exec (.dataBW5 a d) s = .next t ∧
      s.tookData t k 7 a 5 d ∧ s.sameResponse t ∧ (s.variant k = .B →
        Ram.holds (s.ctl k).ram (t.ctl k).ram (Variant.top .B) a.toNat 5 (d.setWidth 16))) ∧
    (∀ (a : BitVec 7) (d : BitVec 6), ∃ t, exec (.dataBW6 a d) s = .next t ∧
      s.tookData t k 7 a 6 d ∧ s.sameResponse t ∧ (s.variant k = .B →
        Ram.holds (s.ctl k).ram (t.ctl k).ram (Variant.top .B) a.toNat 6 (d.setWidth 16))) ∧
    (∀ (a : BitVec 7) (d : BitVec 7), ∃ t, exec (.dataBW7 a d) s = .next t ∧
      s.tookData t k 7 a 7 d ∧ s.sameResponse t ∧ (s.variant k = .B →
        Ram.holds (s.ctl k).ram (t.ctl k).ram (Variant.top .B) a.toNat 7 (d.setWidth 16))) ∧
    (∀ (a : BitVec 7) (d : BitVec 8), ∃ t, exec (.dataBW8 a d) s = .next t ∧
      s.tookData t k 7 a 8 d ∧ s.sameResponse t ∧ (s.variant k = .B →
        Ram.holds (s.ctl k).ram (t.ctl k).ram (Variant.top .B) a.toNat 8 (d.setWidth 16))) ∧
    (∀ (a : BitVec 7) (d : BitVec 9), ∃ t, exec (.dataBW9 a d) s = .next t ∧
      s.tookData t k 7 a 9 d ∧ s.sameResponse t ∧ (s.variant k = .B →
        Ram.holds (s.ctl k).ram (t.ctl k).ram (Variant.top .B) a.toNat 9 (d.setWidth 16))) ∧
    (∀ (a : BitVec 7) (d : BitVec 10), ∃ t, exec (.dataBW10 a d) s = .next t ∧
      s.tookData t k 7 a 10 d ∧ s.sameResponse t ∧ (s.variant k = .B →
        Ram.holds (s.ctl k).ram (t.ctl k).ram (Variant.top .B) a.toNat 10 (d.setWidth 16))) ∧
    (∀ (a : BitVec 7) (d : BitVec 11), ∃ t, exec (.dataBW11 a d) s = .next t ∧
      s.tookData t k 7 a 11 d ∧ s.sameResponse t ∧ (s.variant k = .B →
        Ram.holds (s.ctl k).ram (t.ctl k).ram (Variant.top .B) a.toNat 11 (d.setWidth 16))) ∧
    (∀ (a : BitVec 7) (d : BitVec 12), ∃ t, exec (.dataBW12 a d) s = .next t ∧
      s.tookData t k 7 a 12 d ∧ s.sameResponse t ∧ (s.variant k = .B →
        Ram.holds (s.ctl k).ram (t.ctl k).ram (Variant.top .B) a.toNat 12 (d.setWidth 16))) ∧
    (∀ (a : BitVec 7) (d : BitVec 13), ∃ t, exec (.dataBW13 a d) s = .next t ∧
      s.tookData t k 7 a 13 d ∧ s.sameResponse t ∧ (s.variant k = .B →
        Ram.holds (s.ctl k).ram (t.ctl k).ram (Variant.top .B) a.toNat 13 (d.setWidth 16))) ∧
    (∀ (a : BitVec 7) (d : BitVec 14), ∃ t, exec (.dataBW14 a d) s = .next t ∧
      s.tookData t k 7 a 14 d ∧ s.sameResponse t ∧ (s.variant k = .B →
        Ram.holds (s.ctl k).ram (t.ctl k).ram (Variant.top .B) a.toNat 14 (d.setWidth 16))) ∧
    (∀ (a : BitVec 7) (d : BitVec 15), ∃ t, exec (.dataBW15 a d) s = .next t ∧
      s.tookData t k 7 a 15 d ∧ s.sameResponse t ∧ (s.variant k = .B →
        Ram.holds (s.ctl k).ram (t.ctl k).ram (Variant.top .B) a.toNat 15 (d.setWidth 16))) ∧
    (∀ (a : BitVec 7) (d : BitVec 16), ∃ t, exec (.dataBW16 a d) s = .next t ∧
      s.tookData t k 7 a 16 d ∧ s.sameResponse t ∧ (s.variant k = .B →
        Ram.holds (s.ctl k).ram (t.ctl k).ram (Variant.top .B) a.toNat 16 (d.setWidth 16)))

/-- The entry of an error (60_exceptions.md R195): whatever the request, if its operation ends with an
error code, the state is as before but for the response and `busy`. -/
def Obligations.ErrorsLeaveNoTrace : Prop :=
  ∀ (w : Request) (s t : State), exec (decodeRequest w) s = .next t → t.rspErr ≠ 0 →
    t = { s with rspValid := true, rspErr := t.rspErr, rspData := 0, busy := false }

/-- The complete matrix of errors (60_exceptions.md R191 to R194, R203), with the priority of R197: the
error code each operation ends with, for all operands. -/
def Obligations.EachOperationRaisesItsErrors : Prop :=
  ∀ (k : Cs) (s t : State),
    let v := s.variant k
    (∀ x b, exec (.sendbits x b) s = .next t →
      t.rspErr = if 1 ≤ b.toNat ∧ b.toNat ≤ 16 then 0 else 3) ∧
    (∀ c, exec (.sendcmd k c) s = .next t → t.rspErr = 0) ∧
    (∀ a p b, exec (.wrdata k a p b) s = .next t →
      t.rspErr = if v.top < a.toNat then 1 else if 4 ≤ b.toNat ∧ b.toNat ≤ 16 then 0 else 3) ∧
    (∀ p b, exec (.revbits p b) s = .next t →
      t.rspErr = if 1 ≤ b.toNat ∧ b.toNat ≤ 16 then 0 else 3) ∧
    (∀ p x, exec (.resolveDigit k p x) s = .next t →
      t.rspErr = if (v = .A ∧ p.toNat ≤ 14) ∨
        (v = .B ∧ p.toNat < s.cfg.digAddr.length ∧ x.toNat ≤ 9) then 0 else 1) ∧
    (∀ n on, exec (.resolveInd k n on) s = .next t →
      t.rspErr = if v = .B ∧ n.toNat ≤ 4 then 0 else 1) ∧
    (∀ i, exec (.glyph i) s = .next t →
      t.rspErr = if i.toNat < 36 + s.cfg.fontSymbols.length then 0 else 2) ∧
    (exec (.init k) s = .next t → t.rspErr = 0) ∧
    (∀ on, exec (.allset k on) s = .next t → t.rspErr = 0) ∧
    (∀ p x, exec (.renderDigit k p x) s = .next t →
      t.rspErr = if v = .B ∧ p.toNat < s.cfg.digAddr.length ∧ x.toNat ≤ 9 then 0 else 1) ∧
    (∀ p i, exec (.renderChar k p i) s = .next t →
      t.rspErr = if v = .B ∨ 14 < p.toNat then 1
        else if i.toNat < 36 + s.cfg.fontSymbols.length then 0 else 2) ∧
    (∀ n on, exec (.setInd k n on) s = .next t →
      t.rspErr = if v = .B ∧ n.toNat ≤ 4 then 0 else 1) ∧
    (exec (.pwrOn k) s = .next t → t.rspErr = 0) ∧
    (exec (.pwrOff k) s = .next t → t.rspErr = 0) ∧
    (exec .unassigned7 s = .next t → t.rspErr = 4) ∧
    (exec .unassignedF s = .next t → t.rspErr = 4)

/-- No operation can hang and no instruction stops (60_exceptions.md R202): every one answers a next
state, from every state; and a step does too, but for two inputs on which the model stops by its own
choice: a foreign master (log 16), and bits that are no frame (log 8). -/
def Obligations.EveryInstructionCompletes : Prop :=
  (∀ (i : Instr) (s : State), ∃ t, exec i s = .next t) ∧
    ∀ s : State, (∃ t, step s = .next t) ∨
      (step s = .fault .busContention ∧ ∃ rest, s.inbox = .foreignDrive :: rest) ∨
      ∃ k bits rest e, s.inbox = .frame k bits :: rest ∧
        decodeFrame (s.variant k) bits = .error e ∧ step s = .refused (.noSuchFrame e)

/-- The state after reset meets the invariants of the statements below: the bus at rest, the trace that
tells pins and frames, the timing contract, the ghost state as the replay of the frames received, and
only frames in the sinks (none). -/
def Obligations.ResetStateIsInForm : Prop :=
  State.reset.Inv ∧ State.reset.Probed ∧ State.reset.Timely ∧ State.reset.OnlyFrames ∧
    ∀ k, State.reset.ctl k =
      Ctl.powerUp.replay (State.reset.variant k) (State.reset.ctl k).sink

/-- The invariant between operations (10_state.md R38): chip-selects and strobe high, no frame in
progress, not busy, the ghost RAMs in canonical form within the valid addresses (20_memory.md R41). -/
def Obligations.StepKeepsTheBusAtRest : Prop :=
  ∀ s t : State, s.Inv → step s = .next t → t.Inv

/-- The trace is the complete observable behaviour of the CORE on the bus (10_state.md R29): whoever
replays it finds the pins, the frames in progress and the frames received (R30), and never both
chip-selects low (20_memory.md R55). Every step keeps that. -/
def Obligations.TraceTellsPinsAndFrames : Prop :=
  ∀ s t : State, s.Inv → s.Probed → step s = .next t → t.Probed

/-- The timing contract of the bus (40_bit_transmitter.md R84), whatever the delays of the configuration:
DATA still 4 units before and 2 after each rising edge of WR, WR low 2 and high 4 units, DATA never
driven while WR is low. Every step keeps it, over the whole trace. -/
def Obligations.StepKeepsTheTimingContract : Prop :=
  ∀ s t : State, s.Inv → s.Timely → step s = .next t → t.Timely

/-- The ghost state of a controller is what its frames since reset say (10_state.md R34), starting from a
controller just powered up, or from one of which nothing is known (70_reset_and_hazards.md R221).
Every step keeps that. -/
def Obligations.GhostStateIsTheFramesReceived : Prop :=
  ∀ (s t : State) (k : Cs), s.Inv →
    (s.ctl k = Ctl.powerUp.replay (s.variant k) (s.ctl k).sink ∨
      s.ctl k = Ctl.afterBadReset.replay (s.variant k) (s.ctl k).sink) →
    step s = .next t →
    (t.ctl k = Ctl.powerUp.replay (t.variant k) (t.ctl k).sink ∨
      t.ctl k = Ctl.afterBadReset.replay (t.variant k) (t.ctl k).sink)

/-- An operation on one instance has no effect on the other's sink or ghost state (60_exceptions.md R207,
20_memory.md R55), for every instruction. -/
def Obligations.OnlyTheAddressedControllerIsTouched : Prop :=
  ∀ (i : Instr) (s t : State), s.quiet = true → exec i s = .next t →
    t.ctl (i.line s.feCs).other = s.ctl (i.line s.feCs).other

/-- No instruction writes the configuration, `VARIANT[k]`, the operand latches or `por_done` (10_state.md
R23, R24, R26, 44_display_driver.md R158), and every one leaves the bus at rest. -/
def Obligations.InstructionsKeepConfigurationAndLatches : Prop :=
  ∀ (i : Instr) (s t : State), s.quiet = true → exec i s = .next t →
    s.sameFixed t ∧ t.quiet = true ∧ t.wr = s.wr ∧ t.cs0 = s.cs0 ∧ t.cs1 = s.cs1

/-- `VARIANT[k]` is loaded at reset and "written by nothing else" (10_state.md R23), and no step changes
the configuration (R36). -/
def Obligations.OnlyResetChangesTheVariant : Prop :=
  ∀ s t : State, s.Inv → step s = .next t →
    t.cfg = s.cfg ∧
    ((∀ kind, s.inbox.head? ≠ some (.rst kind)) → (∀ w, s.inbox.head? ≠ some (.cutRequest w)) →
      t.variant0 = s.variant0 ∧ t.variant1 = s.variant1)

/-- `Unknown` is absorbing until reset (10_state.md R33). -/
def Obligations.UnknownLifecycleStaysUntilReset : Prop :=
  ∀ (s t : State) (k : Cs), s.Inv → (s.ctl k).life = .unknown →
    (∀ kind, s.inbox.head? ≠ some (.rst kind)) → (∀ w, s.inbox.head? ≠ some (.cutRequest w)) →
    step s = .next t → (t.ctl k).life = .unknown

/-- No operation's bus events or response depend on what went before ("no hidden state carried between
calls", 10_state.md R26), nor on the ghost state (R31, R33): two states with the bus at rest that
agree on configuration, VARIANT and selected line give the same events and the same response. -/
def Obligations.NoHiddenStateBetweenOperations : Prop :=
  ∀ (i : Instr) (s s' t t' : State), s.quiet = true → s'.quiet = true →
    s'.cfg = s.cfg → s'.variant0 = s.variant0 → s'.variant1 = s.variant1 → s'.feCs = s.feCs →
    exec i s = .next t → exec i s' = .next t' →
    (∃ evs, t.tr = s.tr ++ evs ∧ t'.tr = s'.tr ++ evs) ∧
    ((∃ w, i = decodeRequest w) → t'.rspErr = t.rspErr ∧ t'.rspData = t.rspData)

/-- Durations are lower bounds that no functional rule depends on (10_state.md R21, 92_eei_decisions.md
D10): with any other conforming delays an instruction leaves the same controllers, pins and response. -/
def Obligations.DelaysDoNotChangeWhatIsReceived : Prop :=
  ∀ (i : Instr) (s t : State) (su wd hd : Nat), s.quiet = true → exec i s = .next t →
    ∃ t', exec i { s with cfg := { s.cfg with suOver := su, wrOver := wd, hdOver := hd } } = .next t' ∧
      t'.ctl0 = t.ctl0 ∧ t'.ctl1 = t.ctl1 ∧ t'.data = t.data ∧ t'.cs0 = t.cs0 ∧ t'.cs1 = t.cs1 ∧
      t'.wr = t.wr ∧ t'.rspErr = t.rspErr ∧ t'.rspData = t.rspData

/-- The clock edges of a `SENDBITS` in the reference schedule (40_bit_transmitter.md R85), of the events it
appends to the trace when it starts at edge `u`: bit `j` is driven at `u + 6j + 1`, WR falls at
`u + 6j + 3` and rises at `u + 6j + 5`, the slot ends at `u + 6j + 6`, and the whole takes
`6 * bitCount` units. (A slot is 7 events, four of
them waits.) -/
def Obligations.ReferenceScheduleOfSendbits : Prop :=
  ∀ (value : BitVec 16) (bitCount : BitVec 5) (s : State), s.wr = true → referenceSchedule s.cfg →
    1 ≤ bitCount.toNat → bitCount.toNat ≤ 16 →
    let n := bitCount.toNat
    ∃ t evs, exec (.sendbits value bitCount) s = .next t ∧ t.tr = s.tr ++ evs ∧
      (∀ u j : Nat, j < n →
        (edges u evs)[3 * j]? = some (u + 6 * j + 1, .data, value.getLsbD (n - 1 - j)) ∧
        (edges u evs)[3 * j + 1]? = some (u + 6 * j + 3, .wr, false) ∧
        (edges u evs)[3 * j + 2]? = some (u + 6 * j + 5, .wr, true) ∧
        duration (evs.take (7 * (j + 1))) = 6 * j + 6) ∧
      (∀ u : Nat, (edges u evs).length = 3 * n) ∧ duration evs = 6 * n

/-- The durations of frames and operations in the reference schedule (41_frame_encoder.md R109,
44_display_driver.md R165, 70_reset_and_hazards.md R240), of the events each operation appends to the
trace. (SENDBITS has a statement of its own; lookups and errors append no event.) -/
def Obligations.ReferenceDurations : Prop :=
  ∀ (k : Cs) (s : State), s.quiet = true → referenceSchedule s.cfg →
    let takes : Instr → Nat → Prop := fun i n =>
      ∃ t evs, exec i s = .next t ∧ t.tr = s.tr ++ evs ∧ duration evs = n
    (∀ bits : Bits, duration (frameEvents s.cfg k bits) = 4 + 6 * bits.length) ∧
    (∀ cmd, takes (.sendcmd k cmd) 76) ∧
    (∀ (a : BitVec 7) (p : BitVec 16) (b : BitVec 5), a.toNat ≤ (s.variant k).top →
      4 ≤ b.toNat → b.toNat ≤ 16 →
      takes (.wrdata k a p b) (4 + 6 * (3 + (s.variant k).aw + b.toNat))) ∧
    takes (.init k) 380 ∧ takes (.pwrOn k) 76 ∧ takes (.pwrOff k) 76 ∧
    (∀ on, takes (.allset k on) (if s.variant k = .A then 5248 else 7216)) ∧
    (∀ position index, s.variant k = .A → position.toNat ≤ 14 →
      index.toNat < 36 + s.cfg.fontSymbols.length → takes (.renderChar k position index) 154) ∧
    (∀ position value, s.variant k = .B → position.toNat < s.cfg.digAddr.length →
      value.toNat ≤ 9 → takes (.renderDigit k position value) 176) ∧
    (∀ name on, s.variant k = .B → name.toNat ≤ 4 → takes (.setInd k name on) 88)

/-- Every frame the CORE sends has the bit count its kind and variant call for, and no prefix but `100` and
`101` (41_frame_encoder.md R110, 30_encoding.md R63, R65): if every sink holds only such frames, so it
does after every step. -/
def Obligations.OnlyFramesReachTheControllers : Prop :=
  ∀ s t : State, s.Inv → s.OnlyFrames → step s = .next t → t.OnlyFrames

/-- `GhostFrame` is total (10_state.md R34): what a controller makes of any closed frame, sent by the CORE or
not. Twelve bits with prefix `100` are the command, whatever the trailer; prefix `101` with at least one
payload bit is a `MemWrite` (20_memory.md R46), of any length; anything else loses the ghost state. -/
def Obligations.GhostFrameTakesAnyBits : Prop :=
  ∀ (c : Ctl) (v : Variant),
    (∀ (code : BitVec 8) (trailer : Bool),
      let d := c.received v ([true, false, false] ++ bitsMSB code 8 ++ [trailer])
      d.life = (c.command code).life ∧ d.clkCfg = (c.command code).clkCfg ∧ d.ram = c.ram) ∧
    (∀ (w : Nat) (a : BitVec v.aw) (p : BitVec w), 1 ≤ w → c.ram.wf = true →
      let d := c.received v ([true, false, true] ++ bitsMSB a v.aw ++ bitsLSB p w)
      c.sameLife d ∧ Ram.holds c.ram d.ram v.top a.toNat w p) ∧
    ∀ f : Bits, ¬ (f.length = 12 ∧ f.take 3 = [true, false, false]) →
      ¬ (4 + v.aw ≤ f.length ∧ f.take 3 = [true, false, true]) →
      (c.received v f).life = .unknown ∧ ∀ a, (c.received v f).ram.read a = none
end

