-- ==== Sys2Proof/Laws/Bits.lean ====
section
/-! SUPPORT. Bit lists, fields and the bit reversal. -/

namespace Sys2Proof

/-! ### Bit lists -/

@[simp] theorem bitsMSB_length {w : Nat} (v : BitVec w) (n : Nat) : (bitsMSB v n).length = n := by
  induction n with
  | zero => rfl
  | succ n ih => simp [bitsMSB, ih]

@[simp] theorem bitsLSB_length {w : Nat} (v : BitVec w) (n : Nat) : (bitsLSB v n).length = n := by
  simp [bitsLSB]

@[simp] theorem commandBits_length (cmd : BitVec 8) : (commandBits cmd).length = 12 := by
  simp [commandBits, prefixCmd]

@[simp] theorem dataBits_length {m n : Nat} (aw : Nat) (a : BitVec m) (w : Nat) (d : BitVec n) :
    (dataBits aw a w d).length = 3 + aw + w := by
  simp [dataBits, prefixData]; omega

/-- Only the bits that are sent count. -/
theorem bitsMSB_congr {m n : Nat} (u : BitVec m) (v : BitVec n) (k : Nat)
    (h : ∀ i, i < k → u.getLsbD i = v.getLsbD i) : bitsMSB u k = bitsMSB v k := by
  induction k with
  | zero => rfl
  | succ k ih => simp [bitsMSB, h k (by omega), ih fun i hi => h i (by omega)]

/-- Extending a value with zeros changes none of the bits it has. -/
theorem bitsMSB_setWidth {w : Nat} (v : BitVec w) (m k : Nat) (h : k ≤ m) :
    bitsMSB (v.setWidth m) k = bitsMSB v k :=
  bitsMSB_congr _ _ _ fun i hi => by simp; omega

/-- Bit `i` of a list sent least significant bit first is bit `i` of the value. -/
theorem bitsLSB_getElem? {w : Nat} (v : BitVec w) (n i : Nat) :
    (bitsLSB v n)[i]? = if i < n then some (v.getLsbD i) else none := by
  induction n with
  | zero => simp [bitsLSB, bitsMSB]
  | succ n ih =>
    have h : bitsLSB v (n + 1) = bitsLSB v n ++ [v.getLsbD n] := by simp [bitsLSB, bitsMSB]
    rw [h, List.getElem?_append, bitsLSB_length, ih]
    by_cases hi : i < n
    · simp [hi, Nat.lt_succ_of_lt hi]
    · by_cases he : i = n
      · subst he; simp
      · simp [hi, show ¬ i < n + 1 by omega, show i - n ≠ 0 by omega]

/-- A list is what its bits say. -/
theorem bitsLSB_congr {m n : Nat} (u : BitVec m) (v : BitVec n) (k : Nat)
    (h : ∀ i, i < k → u.getLsbD i = v.getLsbD i) : bitsLSB u k = bitsLSB v k := by
  rw [bitsLSB, bitsLSB, bitsMSB_congr u v k h]

/-! ### Numbers and fields -/

theorem natOfMSB_append (xs ys : Bits) :
    natOfMSB (xs ++ ys) = natOfMSB xs * 2 ^ ys.length + natOfMSB ys := by
  induction ys using List.reverseRecOn with
  | nil => simp [natOfMSB]
  | append_singleton ys y ih =>
    have step : ∀ zs : Bits, natOfMSB (zs ++ [y]) = 2 * natOfMSB zs + y.toNat := fun zs => by
      simp [natOfMSB]
    rw [← List.append_assoc, step, step, ih, List.length_append, List.length_singleton, pow_succ]
    ring

theorem natOfMSB_cons (x : Bool) (ys : Bits) :
    natOfMSB (x :: ys) = x.toNat * 2 ^ ys.length + natOfMSB ys := by
  have h := natOfMSB_append [x] ys
  simpa [natOfMSB] using h

/-- The bits of a value, most significant first, are the value. -/
theorem natOfMSB_bitsMSB {w : Nat} (v : BitVec w) (n : Nat) :
    natOfMSB (bitsMSB v n) = v.toNat % 2 ^ n := by
  induction n with
  | zero => simp [bitsMSB, natOfMSB, Nat.mod_one]
  | succ n ih =>
    rw [bitsMSB, natOfMSB_cons, ih, bitsMSB_length, Nat.pow_succ, Nat.mod_mul]
    have h : (v.getLsbD n).toNat = v.toNat / 2 ^ n % 2 := by
      rw [BitVec.getLsbD, Nat.testBit_eq_decide_div_mod_eq]
      have := Nat.mod_two_eq_zero_or_one (v.toNat / 2 ^ n)
      rcases this with h | h <;> simp [h]
    rw [h]; ring

/-- A field of `w` bits, sent most significant bit first, is read back. -/
theorem fieldMSB_bitsMSB {w : Nat} (v : BitVec w) : fieldMSB w (bitsMSB v w) = v := by
  apply BitVec.eq_of_toNat_eq
  rw [fieldMSB, natOfMSB_bitsMSB, BitVec.toNat_ofNat, Nat.mod_mod, Nat.mod_eq_of_lt v.isLt]

/-- A field of `w` bits, sent least significant bit first, is read back. -/
theorem fieldLSB_bitsLSB {w : Nat} (v : BitVec w) : fieldLSB w (bitsLSB v w) = v := by
  rw [fieldLSB, bitsLSB, List.reverse_reverse, fieldMSB_bitsMSB]

end Sys2Proof

namespace Sys2Proof.Machine

/-! ### The bit reversal (41_frame_encoder.md R101) -/

/-- What the loop has in the accumulator after `n` turns. -/
theorem revLoop_getLsbD (n : Nat) (acc p : BitVec 16) (j : Nat) (hj : j < 16) :
    (revLoop n acc p).getLsbD j = if j < n then p.getLsbD (n - 1 - j) else acc.getLsbD (j - n) := by
  induction n generalizing acc p with
  | zero => simp [revLoop]
  | succ n ih =>
    rw [revLoop, ih]
    by_cases h : j < n
    · simp [h, show j < n + 1 by omega, show 1 + (n - 1 - j) = n - j by omega]
    · by_cases he : j = n
      · subst he; simp
      · have h1 : j - n ≠ 0 := by omega
        simp [h, show ¬ j < n + 1 by omega, BitVec.getLsbD_one, h1, show j - n - 1 = j - (n + 1) by omega]
        omega

/-- `acc[W-1-i] = payload[i]`, and 0 from bit `W` on. -/
theorem rev_getLsbD (p : BitVec 16) (w j : Nat) (hj : j < 16) :
    (rev p w).getLsbD j = (decide (j < w) && p.getLsbD (w - 1 - j)) := by
  rw [rev, revLoop_getLsbD w 0 p j hj]
  by_cases h : j < w <;> simp [h]

/-- Sending the reversed payload most significant bit first sends the payload's bit 0 first. -/
theorem bitsMSB_rev (p : BitVec 16) (w : Nat) (hw : w ≤ 16) : bitsMSB (rev p w) w = bitsLSB p w := by
  suffices h : ∀ k, k ≤ w → bitsMSB (rev p w) k = ((bitsLSB p w).drop (w - k)) by
    simpa using h w (Nat.le_refl w)
  intro k
  induction k with
  | zero => intro _; simp [bitsMSB]
  | succ k ih =>
    intro hk
    have hlt : w - (k + 1) < (bitsLSB p w).length := by simp; omega
    rw [bitsMSB, ih (by omega), List.drop_eq_getElem_cons hlt, show w - (k + 1) + 1 = w - k by omega,
      rev_getLsbD p w k (by omega)]
    congr 1
    have h := bitsLSB_getElem? p w (w - (k + 1))
    rw [List.getElem?_eq_getElem hlt, if_pos (by omega)] at h
    simp only [Option.some.injEq] at h
    rw [h]
    simp [show k < w by omega, show w - 1 - k = w - (k + 1) by omega]

end Sys2Proof.Machine
end

