-- ==== Sys2Proof/Laws/State.lean ====
section
/-! SUPPORT. One lemma for each field of State under each of its updates, so that no later proof
unfolds a record update. -/

namespace Sys2Proof.Machine

variable (s : State)

/-! ### `State.record` -/

@[simp] theorem State.record_cfg (e : Event) : (s.record e).cfg = s.cfg := rfl
@[simp] theorem State.record_cs0 (e : Event) : (s.record e).cs0 = s.cs0 := rfl
@[simp] theorem State.record_cs1 (e : Event) : (s.record e).cs1 = s.cs1 := rfl
@[simp] theorem State.record_wr (e : Event) : (s.record e).wr = s.wr := rfl
@[simp] theorem State.record_data (e : Event) : (s.record e).data = s.data := rfl
@[simp] theorem State.record_variant0 (e : Event) : (s.record e).variant0 = s.variant0 := rfl
@[simp] theorem State.record_variant1 (e : Event) : (s.record e).variant1 = s.variant1 := rfl
@[simp] theorem State.record_op (e : Event) : (s.record e).op = s.op := rfl
@[simp] theorem State.record_cs (e : Event) : (s.record e).cs = s.cs := rfl
@[simp] theorem State.record_width (e : Event) : (s.record e).width = s.width := rfl
@[simp] theorem State.record_addr (e : Event) : (s.record e).addr = s.addr := rfl
@[simp] theorem State.record_dat (e : Event) : (s.record e).dat = s.dat := rfl
@[simp] theorem State.record_sh (e : Event) : (s.record e).sh = s.sh := rfl
@[simp] theorem State.record_cnt (e : Event) : (s.record e).cnt = s.cnt := rfl
@[simp] theorem State.record_acc (e : Event) : (s.record e).acc = s.acc := rfl
@[simp] theorem State.record_dly (e : Event) : (s.record e).dly = s.dly := rfl
@[simp] theorem State.record_fa (e : Event) : (s.record e).fa = s.fa := rfl
@[simp] theorem State.record_fi (e : Event) : (s.record e).fi = s.fi := rfl
@[simp] theorem State.record_si (e : Event) : (s.record e).si = s.si := rfl
@[simp] theorem State.record_busy (e : Event) : (s.record e).busy = s.busy := rfl
@[simp] theorem State.record_porDone (e : Event) : (s.record e).porDone = s.porDone := rfl
@[simp] theorem State.record_rspValid (e : Event) : (s.record e).rspValid = s.rspValid := rfl
@[simp] theorem State.record_rspErr (e : Event) : (s.record e).rspErr = s.rspErr := rfl
@[simp] theorem State.record_rspData (e : Event) : (s.record e).rspData = s.rspData := rfl
@[simp] theorem State.record_feCs (e : Event) : (s.record e).feCs = s.feCs := rfl
@[simp] theorem State.record_tr (e : Event) : (s.record e).tr = s.tr ++ [e] := rfl
@[simp] theorem State.record_ctl0 (e : Event) : (s.record e).ctl0 = s.ctl0 := rfl
@[simp] theorem State.record_ctl1 (e : Event) : (s.record e).ctl1 = s.ctl1 := rfl
@[simp] theorem State.record_inbox (e : Event) : (s.record e).inbox = s.inbox := rfl

/-! ### `State.wait` -/

@[simp] theorem State.wait_cfg (n : Nat) : (s.wait n).cfg = s.cfg := rfl
@[simp] theorem State.wait_cs0 (n : Nat) : (s.wait n).cs0 = s.cs0 := rfl
@[simp] theorem State.wait_cs1 (n : Nat) : (s.wait n).cs1 = s.cs1 := rfl
@[simp] theorem State.wait_wr (n : Nat) : (s.wait n).wr = s.wr := rfl
@[simp] theorem State.wait_data (n : Nat) : (s.wait n).data = s.data := rfl
@[simp] theorem State.wait_variant0 (n : Nat) : (s.wait n).variant0 = s.variant0 := rfl
@[simp] theorem State.wait_variant1 (n : Nat) : (s.wait n).variant1 = s.variant1 := rfl
@[simp] theorem State.wait_op (n : Nat) : (s.wait n).op = s.op := rfl
@[simp] theorem State.wait_cs (n : Nat) : (s.wait n).cs = s.cs := rfl
@[simp] theorem State.wait_width (n : Nat) : (s.wait n).width = s.width := rfl
@[simp] theorem State.wait_addr (n : Nat) : (s.wait n).addr = s.addr := rfl
@[simp] theorem State.wait_dat (n : Nat) : (s.wait n).dat = s.dat := rfl
@[simp] theorem State.wait_sh (n : Nat) : (s.wait n).sh = s.sh := rfl
@[simp] theorem State.wait_cnt (n : Nat) : (s.wait n).cnt = s.cnt := rfl
@[simp] theorem State.wait_acc (n : Nat) : (s.wait n).acc = s.acc := rfl
@[simp] theorem State.wait_dly (n : Nat) : (s.wait n).dly = 0 := rfl
@[simp] theorem State.wait_fa (n : Nat) : (s.wait n).fa = s.fa := rfl
@[simp] theorem State.wait_fi (n : Nat) : (s.wait n).fi = s.fi := rfl
@[simp] theorem State.wait_si (n : Nat) : (s.wait n).si = s.si := rfl
@[simp] theorem State.wait_busy (n : Nat) : (s.wait n).busy = s.busy := rfl
@[simp] theorem State.wait_porDone (n : Nat) : (s.wait n).porDone = s.porDone := rfl
@[simp] theorem State.wait_rspValid (n : Nat) : (s.wait n).rspValid = s.rspValid := rfl
@[simp] theorem State.wait_rspErr (n : Nat) : (s.wait n).rspErr = s.rspErr := rfl
@[simp] theorem State.wait_rspData (n : Nat) : (s.wait n).rspData = s.rspData := rfl
@[simp] theorem State.wait_feCs (n : Nat) : (s.wait n).feCs = s.feCs := rfl
@[simp] theorem State.wait_tr (n : Nat) : (s.wait n).tr = s.tr ++ [.wait n] := rfl
@[simp] theorem State.wait_ctl0 (n : Nat) : (s.wait n).ctl0 = s.ctl0 := rfl
@[simp] theorem State.wait_ctl1 (n : Nat) : (s.wait n).ctl1 = s.ctl1 := rfl
@[simp] theorem State.wait_inbox (n : Nat) : (s.wait n).inbox = s.inbox := rfl

/-! ### `State.setData` -/

@[simp] theorem State.setData_cfg (b : Bool) : (s.setData b).cfg = s.cfg := rfl
@[simp] theorem State.setData_cs0 (b : Bool) : (s.setData b).cs0 = s.cs0 := rfl
@[simp] theorem State.setData_cs1 (b : Bool) : (s.setData b).cs1 = s.cs1 := rfl
@[simp] theorem State.setData_wr (b : Bool) : (s.setData b).wr = s.wr := rfl
@[simp] theorem State.setData_data (b : Bool) : (s.setData b).data = b := rfl
@[simp] theorem State.setData_variant0 (b : Bool) : (s.setData b).variant0 = s.variant0 := rfl
@[simp] theorem State.setData_variant1 (b : Bool) : (s.setData b).variant1 = s.variant1 := rfl
@[simp] theorem State.setData_op (b : Bool) : (s.setData b).op = s.op := rfl
@[simp] theorem State.setData_cs (b : Bool) : (s.setData b).cs = s.cs := rfl
@[simp] theorem State.setData_width (b : Bool) : (s.setData b).width = s.width := rfl
@[simp] theorem State.setData_addr (b : Bool) : (s.setData b).addr = s.addr := rfl
@[simp] theorem State.setData_dat (b : Bool) : (s.setData b).dat = s.dat := rfl
@[simp] theorem State.setData_sh (b : Bool) : (s.setData b).sh = s.sh := rfl
@[simp] theorem State.setData_cnt (b : Bool) : (s.setData b).cnt = s.cnt := rfl
@[simp] theorem State.setData_acc (b : Bool) : (s.setData b).acc = s.acc := rfl
@[simp] theorem State.setData_dly (b : Bool) : (s.setData b).dly = s.dly := rfl
@[simp] theorem State.setData_fa (b : Bool) : (s.setData b).fa = s.fa := rfl
@[simp] theorem State.setData_fi (b : Bool) : (s.setData b).fi = s.fi := rfl
@[simp] theorem State.setData_si (b : Bool) : (s.setData b).si = s.si := rfl
@[simp] theorem State.setData_busy (b : Bool) : (s.setData b).busy = s.busy := rfl
@[simp] theorem State.setData_porDone (b : Bool) : (s.setData b).porDone = s.porDone := rfl
@[simp] theorem State.setData_rspValid (b : Bool) : (s.setData b).rspValid = s.rspValid := rfl
@[simp] theorem State.setData_rspErr (b : Bool) : (s.setData b).rspErr = s.rspErr := rfl
@[simp] theorem State.setData_rspData (b : Bool) : (s.setData b).rspData = s.rspData := rfl
@[simp] theorem State.setData_feCs (b : Bool) : (s.setData b).feCs = s.feCs := rfl
@[simp] theorem State.setData_tr (b : Bool) : (s.setData b).tr = s.tr ++ [.set .data b] := rfl
@[simp] theorem State.setData_ctl0 (b : Bool) : (s.setData b).ctl0 = s.ctl0 := rfl
@[simp] theorem State.setData_ctl1 (b : Bool) : (s.setData b).ctl1 = s.ctl1 := rfl
@[simp] theorem State.setData_inbox (b : Bool) : (s.setData b).inbox = s.inbox := rfl

/-! ### `State.raise` -/

@[simp] theorem State.raise_cfg (e : Err) : (s.raise e).cfg = s.cfg := rfl
@[simp] theorem State.raise_cs0 (e : Err) : (s.raise e).cs0 = s.cs0 := rfl
@[simp] theorem State.raise_cs1 (e : Err) : (s.raise e).cs1 = s.cs1 := rfl
@[simp] theorem State.raise_wr (e : Err) : (s.raise e).wr = s.wr := rfl
@[simp] theorem State.raise_data (e : Err) : (s.raise e).data = s.data := rfl
@[simp] theorem State.raise_variant0 (e : Err) : (s.raise e).variant0 = s.variant0 := rfl
@[simp] theorem State.raise_variant1 (e : Err) : (s.raise e).variant1 = s.variant1 := rfl
@[simp] theorem State.raise_op (e : Err) : (s.raise e).op = s.op := rfl
@[simp] theorem State.raise_cs (e : Err) : (s.raise e).cs = s.cs := rfl
@[simp] theorem State.raise_width (e : Err) : (s.raise e).width = s.width := rfl
@[simp] theorem State.raise_addr (e : Err) : (s.raise e).addr = s.addr := rfl
@[simp] theorem State.raise_dat (e : Err) : (s.raise e).dat = s.dat := rfl
@[simp] theorem State.raise_sh (e : Err) : (s.raise e).sh = s.sh := rfl
@[simp] theorem State.raise_cnt (e : Err) : (s.raise e).cnt = s.cnt := rfl
@[simp] theorem State.raise_acc (e : Err) : (s.raise e).acc = s.acc := rfl
@[simp] theorem State.raise_dly (e : Err) : (s.raise e).dly = s.dly := rfl
@[simp] theorem State.raise_fa (e : Err) : (s.raise e).fa = s.fa := rfl
@[simp] theorem State.raise_fi (e : Err) : (s.raise e).fi = s.fi := rfl
@[simp] theorem State.raise_si (e : Err) : (s.raise e).si = s.si := rfl
@[simp] theorem State.raise_busy (e : Err) : (s.raise e).busy = false := rfl
@[simp] theorem State.raise_porDone (e : Err) : (s.raise e).porDone = s.porDone := rfl
@[simp] theorem State.raise_rspValid (e : Err) : (s.raise e).rspValid = true := rfl
@[simp] theorem State.raise_rspErr (e : Err) : (s.raise e).rspErr = e.code := rfl
@[simp] theorem State.raise_rspData (e : Err) : (s.raise e).rspData = 0 := rfl
@[simp] theorem State.raise_feCs (e : Err) : (s.raise e).feCs = s.feCs := rfl
@[simp] theorem State.raise_tr (e : Err) : (s.raise e).tr = s.tr := rfl
@[simp] theorem State.raise_ctl0 (e : Err) : (s.raise e).ctl0 = s.ctl0 := rfl
@[simp] theorem State.raise_ctl1 (e : Err) : (s.raise e).ctl1 = s.ctl1 := rfl
@[simp] theorem State.raise_inbox (e : Err) : (s.raise e).inbox = s.inbox := rfl

/-! ### `State.ok` -/

@[simp] theorem State.ok_cfg (d : BitVec 32) : (s.ok d).cfg = s.cfg := rfl
@[simp] theorem State.ok_cs0 (d : BitVec 32) : (s.ok d).cs0 = s.cs0 := rfl
@[simp] theorem State.ok_cs1 (d : BitVec 32) : (s.ok d).cs1 = s.cs1 := rfl
@[simp] theorem State.ok_wr (d : BitVec 32) : (s.ok d).wr = s.wr := rfl
@[simp] theorem State.ok_data (d : BitVec 32) : (s.ok d).data = s.data := rfl
@[simp] theorem State.ok_variant0 (d : BitVec 32) : (s.ok d).variant0 = s.variant0 := rfl
@[simp] theorem State.ok_variant1 (d : BitVec 32) : (s.ok d).variant1 = s.variant1 := rfl
@[simp] theorem State.ok_op (d : BitVec 32) : (s.ok d).op = s.op := rfl
@[simp] theorem State.ok_cs (d : BitVec 32) : (s.ok d).cs = s.cs := rfl
@[simp] theorem State.ok_width (d : BitVec 32) : (s.ok d).width = s.width := rfl
@[simp] theorem State.ok_addr (d : BitVec 32) : (s.ok d).addr = s.addr := rfl
@[simp] theorem State.ok_dat (d : BitVec 32) : (s.ok d).dat = s.dat := rfl
@[simp] theorem State.ok_sh (d : BitVec 32) : (s.ok d).sh = s.sh := rfl
@[simp] theorem State.ok_cnt (d : BitVec 32) : (s.ok d).cnt = s.cnt := rfl
@[simp] theorem State.ok_acc (d : BitVec 32) : (s.ok d).acc = s.acc := rfl
@[simp] theorem State.ok_dly (d : BitVec 32) : (s.ok d).dly = s.dly := rfl
@[simp] theorem State.ok_fa (d : BitVec 32) : (s.ok d).fa = s.fa := rfl
@[simp] theorem State.ok_fi (d : BitVec 32) : (s.ok d).fi = 0 := rfl
@[simp] theorem State.ok_si (d : BitVec 32) : (s.ok d).si = 0 := rfl
@[simp] theorem State.ok_busy (d : BitVec 32) : (s.ok d).busy = false := rfl
@[simp] theorem State.ok_porDone (d : BitVec 32) : (s.ok d).porDone = s.porDone := rfl
@[simp] theorem State.ok_rspValid (d : BitVec 32) : (s.ok d).rspValid = true := rfl
@[simp] theorem State.ok_rspErr (d : BitVec 32) : (s.ok d).rspErr = 0 := rfl
@[simp] theorem State.ok_rspData (d : BitVec 32) : (s.ok d).rspData = d := rfl
@[simp] theorem State.ok_feCs (d : BitVec 32) : (s.ok d).feCs = s.feCs := rfl
@[simp] theorem State.ok_tr (d : BitVec 32) : (s.ok d).tr = s.tr := rfl
@[simp] theorem State.ok_ctl0 (d : BitVec 32) : (s.ok d).ctl0 = s.ctl0 := rfl
@[simp] theorem State.ok_ctl1 (d : BitVec 32) : (s.ok d).ctl1 = s.ctl1 := rfl
@[simp] theorem State.ok_inbox (d : BitVec 32) : (s.ok d).inbox = s.inbox := rfl

/-! ### `State.tick` -/

@[simp] theorem State.tick_cfg : (s.tick).cfg = s.cfg := rfl
@[simp] theorem State.tick_cs0 : (s.tick).cs0 = s.cs0 := rfl
@[simp] theorem State.tick_cs1 : (s.tick).cs1 = s.cs1 := rfl
@[simp] theorem State.tick_wr : (s.tick).wr = s.wr := rfl
@[simp] theorem State.tick_data : (s.tick).data = s.data := rfl
@[simp] theorem State.tick_variant0 : (s.tick).variant0 = s.variant0 := rfl
@[simp] theorem State.tick_variant1 : (s.tick).variant1 = s.variant1 := rfl
@[simp] theorem State.tick_op : (s.tick).op = s.op := rfl
@[simp] theorem State.tick_cs : (s.tick).cs = s.cs := rfl
@[simp] theorem State.tick_width : (s.tick).width = s.width := rfl
@[simp] theorem State.tick_addr : (s.tick).addr = s.addr := rfl
@[simp] theorem State.tick_dat : (s.tick).dat = s.dat := rfl
@[simp] theorem State.tick_sh : (s.tick).sh = s.sh := rfl
@[simp] theorem State.tick_cnt : (s.tick).cnt = s.cnt := rfl
@[simp] theorem State.tick_acc : (s.tick).acc = s.acc := rfl
@[simp] theorem State.tick_dly : (s.tick).dly = s.dly := rfl
@[simp] theorem State.tick_fa : (s.tick).fa = s.fa := rfl
@[simp] theorem State.tick_fi : (s.tick).fi = s.fi := rfl
@[simp] theorem State.tick_si : (s.tick).si = s.si := rfl
@[simp] theorem State.tick_busy : (s.tick).busy = s.busy := rfl
@[simp] theorem State.tick_porDone : (s.tick).porDone = s.porDone := rfl
@[simp] theorem State.tick_rspValid : (s.tick).rspValid = false := rfl
@[simp] theorem State.tick_rspErr : (s.tick).rspErr = s.rspErr := rfl
@[simp] theorem State.tick_rspData : (s.tick).rspData = s.rspData := rfl
@[simp] theorem State.tick_feCs : (s.tick).feCs = s.feCs := rfl
@[simp] theorem State.tick_tr : (s.tick).tr = s.tr := rfl
@[simp] theorem State.tick_ctl0 : (s.tick).ctl0 = s.ctl0 := rfl
@[simp] theorem State.tick_ctl1 : (s.tick).ctl1 = s.ctl1 := rfl
@[simp] theorem State.tick_inbox : (s.tick).inbox = s.inbox := rfl

/-! ### `State.accept` -/

@[simp] theorem State.accept_cfg (w : Request) : (s.accept w).cfg = s.cfg := rfl
@[simp] theorem State.accept_cs0 (w : Request) : (s.accept w).cs0 = s.cs0 := rfl
@[simp] theorem State.accept_cs1 (w : Request) : (s.accept w).cs1 = s.cs1 := rfl
@[simp] theorem State.accept_wr (w : Request) : (s.accept w).wr = s.wr := rfl
@[simp] theorem State.accept_data (w : Request) : (s.accept w).data = s.data := rfl
@[simp] theorem State.accept_variant0 (w : Request) : (s.accept w).variant0 = s.variant0 := rfl
@[simp] theorem State.accept_variant1 (w : Request) : (s.accept w).variant1 = s.variant1 := rfl
@[simp] theorem State.accept_op (w : Request) : (s.accept w).op = reqOp w := rfl
@[simp] theorem State.accept_cs (w : Request) : (s.accept w).cs = reqCs w := rfl
@[simp] theorem State.accept_width (w : Request) : (s.accept w).width = reqWidth w := rfl
@[simp] theorem State.accept_addr (w : Request) : (s.accept w).addr = reqAddr w := rfl
@[simp] theorem State.accept_dat (w : Request) : (s.accept w).dat = reqDat w := rfl
@[simp] theorem State.accept_sh (w : Request) : (s.accept w).sh = s.sh := rfl
@[simp] theorem State.accept_cnt (w : Request) : (s.accept w).cnt = s.cnt := rfl
@[simp] theorem State.accept_acc (w : Request) : (s.accept w).acc = s.acc := rfl
@[simp] theorem State.accept_dly (w : Request) : (s.accept w).dly = s.dly := rfl
@[simp] theorem State.accept_fa (w : Request) : (s.accept w).fa = s.fa := rfl
@[simp] theorem State.accept_fi (w : Request) : (s.accept w).fi = s.fi := rfl
@[simp] theorem State.accept_si (w : Request) : (s.accept w).si = s.si := rfl
@[simp] theorem State.accept_busy (w : Request) : (s.accept w).busy = true := rfl
@[simp] theorem State.accept_porDone (w : Request) : (s.accept w).porDone = s.porDone := rfl
@[simp] theorem State.accept_rspValid (w : Request) : (s.accept w).rspValid = false := rfl
@[simp] theorem State.accept_rspErr (w : Request) : (s.accept w).rspErr = s.rspErr := rfl
@[simp] theorem State.accept_rspData (w : Request) : (s.accept w).rspData = s.rspData := rfl
@[simp] theorem State.accept_feCs (w : Request) : (s.accept w).feCs = s.feCs := rfl
@[simp] theorem State.accept_tr (w : Request) : (s.accept w).tr = s.tr := rfl
@[simp] theorem State.accept_ctl0 (w : Request) : (s.accept w).ctl0 = s.ctl0 := rfl
@[simp] theorem State.accept_ctl1 (w : Request) : (s.accept w).ctl1 = s.ctl1 := rfl
@[simp] theorem State.accept_inbox (w : Request) : (s.accept w).inbox = s.inbox := rfl

/-! ### `State.selectFrame` -/

@[simp] theorem State.selectFrame_cfg (k : Cs) : (s.selectFrame k).cfg = s.cfg := rfl
@[simp] theorem State.selectFrame_cs0 (k : Cs) : (s.selectFrame k).cs0 = s.cs0 := rfl
@[simp] theorem State.selectFrame_cs1 (k : Cs) : (s.selectFrame k).cs1 = s.cs1 := rfl
@[simp] theorem State.selectFrame_wr (k : Cs) : (s.selectFrame k).wr = s.wr := rfl
@[simp] theorem State.selectFrame_data (k : Cs) : (s.selectFrame k).data = s.data := rfl
@[simp] theorem State.selectFrame_variant0 (k : Cs) : (s.selectFrame k).variant0 = s.variant0 := rfl
@[simp] theorem State.selectFrame_variant1 (k : Cs) : (s.selectFrame k).variant1 = s.variant1 := rfl
@[simp] theorem State.selectFrame_op (k : Cs) : (s.selectFrame k).op = s.op := rfl
@[simp] theorem State.selectFrame_cs (k : Cs) : (s.selectFrame k).cs = s.cs := rfl
@[simp] theorem State.selectFrame_width (k : Cs) : (s.selectFrame k).width = s.width := rfl
@[simp] theorem State.selectFrame_addr (k : Cs) : (s.selectFrame k).addr = s.addr := rfl
@[simp] theorem State.selectFrame_dat (k : Cs) : (s.selectFrame k).dat = s.dat := rfl
@[simp] theorem State.selectFrame_sh (k : Cs) : (s.selectFrame k).sh = s.sh := rfl
@[simp] theorem State.selectFrame_cnt (k : Cs) : (s.selectFrame k).cnt = s.cnt := rfl
@[simp] theorem State.selectFrame_acc (k : Cs) : (s.selectFrame k).acc = s.acc := rfl
@[simp] theorem State.selectFrame_dly (k : Cs) : (s.selectFrame k).dly = s.dly := rfl
@[simp] theorem State.selectFrame_fa (k : Cs) : (s.selectFrame k).fa = s.fa := rfl
@[simp] theorem State.selectFrame_fi (k : Cs) : (s.selectFrame k).fi = s.fi := rfl
@[simp] theorem State.selectFrame_si (k : Cs) : (s.selectFrame k).si = s.si := rfl
@[simp] theorem State.selectFrame_busy (k : Cs) : (s.selectFrame k).busy = s.busy := rfl
@[simp] theorem State.selectFrame_porDone (k : Cs) : (s.selectFrame k).porDone = s.porDone := rfl
@[simp] theorem State.selectFrame_rspValid (k : Cs) : (s.selectFrame k).rspValid = false := rfl
@[simp] theorem State.selectFrame_rspErr (k : Cs) : (s.selectFrame k).rspErr = s.rspErr := rfl
@[simp] theorem State.selectFrame_rspData (k : Cs) : (s.selectFrame k).rspData = s.rspData := rfl
@[simp] theorem State.selectFrame_feCs (k : Cs) : (s.selectFrame k).feCs = k := rfl
@[simp] theorem State.selectFrame_tr (k : Cs) : (s.selectFrame k).tr = s.tr := rfl
@[simp] theorem State.selectFrame_ctl0 (k : Cs) : (s.selectFrame k).ctl0 = s.ctl0 := rfl
@[simp] theorem State.selectFrame_ctl1 (k : Cs) : (s.selectFrame k).ctl1 = s.ctl1 := rfl
@[simp] theorem State.selectFrame_inbox (k : Cs) : (s.selectFrame k).inbox = s.inbox := rfl

/-! ### `State.frameEnd` -/

@[simp] theorem State.frameEnd_cfg : (s.frameEnd).cfg = s.cfg := rfl
@[simp] theorem State.frameEnd_cs0 : (s.frameEnd).cs0 = s.cs0 := rfl
@[simp] theorem State.frameEnd_cs1 : (s.frameEnd).cs1 = s.cs1 := rfl
@[simp] theorem State.frameEnd_wr : (s.frameEnd).wr = s.wr := rfl
@[simp] theorem State.frameEnd_data : (s.frameEnd).data = s.data := rfl
@[simp] theorem State.frameEnd_variant0 : (s.frameEnd).variant0 = s.variant0 := rfl
@[simp] theorem State.frameEnd_variant1 : (s.frameEnd).variant1 = s.variant1 := rfl
@[simp] theorem State.frameEnd_op : (s.frameEnd).op = s.op := rfl
@[simp] theorem State.frameEnd_cs : (s.frameEnd).cs = s.cs := rfl
@[simp] theorem State.frameEnd_width : (s.frameEnd).width = s.width := rfl
@[simp] theorem State.frameEnd_addr : (s.frameEnd).addr = s.addr := rfl
@[simp] theorem State.frameEnd_dat : (s.frameEnd).dat = s.dat := rfl
@[simp] theorem State.frameEnd_sh : (s.frameEnd).sh = s.sh := rfl
@[simp] theorem State.frameEnd_cnt : (s.frameEnd).cnt = s.cnt := rfl
@[simp] theorem State.frameEnd_acc : (s.frameEnd).acc = s.acc := rfl
@[simp] theorem State.frameEnd_dly : (s.frameEnd).dly = s.dly := rfl
@[simp] theorem State.frameEnd_fa : (s.frameEnd).fa = s.fa := rfl
@[simp] theorem State.frameEnd_fi : (s.frameEnd).fi = 0 := rfl
@[simp] theorem State.frameEnd_si : (s.frameEnd).si = 0 := rfl
@[simp] theorem State.frameEnd_busy : (s.frameEnd).busy = s.busy := rfl
@[simp] theorem State.frameEnd_porDone : (s.frameEnd).porDone = s.porDone := rfl
@[simp] theorem State.frameEnd_rspValid : (s.frameEnd).rspValid = s.rspValid := rfl
@[simp] theorem State.frameEnd_rspErr : (s.frameEnd).rspErr = s.rspErr := rfl
@[simp] theorem State.frameEnd_rspData : (s.frameEnd).rspData = s.rspData := rfl
@[simp] theorem State.frameEnd_feCs : (s.frameEnd).feCs = s.feCs := rfl
@[simp] theorem State.frameEnd_tr : (s.frameEnd).tr = s.tr := rfl
@[simp] theorem State.frameEnd_ctl0 : (s.frameEnd).ctl0 = s.ctl0 := rfl
@[simp] theorem State.frameEnd_ctl1 : (s.frameEnd).ctl1 = s.ctl1 := rfl
@[simp] theorem State.frameEnd_inbox : (s.frameEnd).inbox = s.inbox := rfl

/-! ### `State.powerUp` -/

@[simp] theorem State.powerUp_cfg : (s.powerUp).cfg = s.cfg := rfl
@[simp] theorem State.powerUp_cs0 : (s.powerUp).cs0 = s.cs0 := rfl
@[simp] theorem State.powerUp_cs1 : (s.powerUp).cs1 = s.cs1 := rfl
@[simp] theorem State.powerUp_wr : (s.powerUp).wr = s.wr := rfl
@[simp] theorem State.powerUp_data : (s.powerUp).data = s.data := rfl
@[simp] theorem State.powerUp_variant0 : (s.powerUp).variant0 = s.variant0 := rfl
@[simp] theorem State.powerUp_variant1 : (s.powerUp).variant1 = s.variant1 := rfl
@[simp] theorem State.powerUp_op : (s.powerUp).op = s.op := rfl
@[simp] theorem State.powerUp_cs : (s.powerUp).cs = s.cs := rfl
@[simp] theorem State.powerUp_width : (s.powerUp).width = s.width := rfl
@[simp] theorem State.powerUp_addr : (s.powerUp).addr = s.addr := rfl
@[simp] theorem State.powerUp_dat : (s.powerUp).dat = s.dat := rfl
@[simp] theorem State.powerUp_sh : (s.powerUp).sh = s.sh := rfl
@[simp] theorem State.powerUp_cnt : (s.powerUp).cnt = s.cnt := rfl
@[simp] theorem State.powerUp_acc : (s.powerUp).acc = s.acc := rfl
@[simp] theorem State.powerUp_dly : (s.powerUp).dly = 0 := rfl
@[simp] theorem State.powerUp_fa : (s.powerUp).fa = s.fa := rfl
@[simp] theorem State.powerUp_fi : (s.powerUp).fi = s.fi := rfl
@[simp] theorem State.powerUp_si : (s.powerUp).si = s.si := rfl
@[simp] theorem State.powerUp_busy : (s.powerUp).busy = s.busy := rfl
@[simp] theorem State.powerUp_porDone : (s.powerUp).porDone = true := rfl
@[simp] theorem State.powerUp_rspValid : (s.powerUp).rspValid = s.rspValid := rfl
@[simp] theorem State.powerUp_rspErr : (s.powerUp).rspErr = s.rspErr := rfl
@[simp] theorem State.powerUp_rspData : (s.powerUp).rspData = s.rspData := rfl
@[simp] theorem State.powerUp_feCs : (s.powerUp).feCs = s.feCs := rfl
@[simp] theorem State.powerUp_tr : (s.powerUp).tr = s.tr ++ [.wait s.cfg.dPOR] := rfl
@[simp] theorem State.powerUp_ctl0 : (s.powerUp).ctl0 = s.ctl0 := rfl
@[simp] theorem State.powerUp_ctl1 : (s.powerUp).ctl1 = s.ctl1 := rfl
@[simp] theorem State.powerUp_inbox : (s.powerUp).inbox = s.inbox := rfl

/-! ### `State.popInput` -/

@[simp] theorem State.popInput_cfg : (s.popInput).cfg = s.cfg := rfl
@[simp] theorem State.popInput_cs0 : (s.popInput).cs0 = s.cs0 := rfl
@[simp] theorem State.popInput_cs1 : (s.popInput).cs1 = s.cs1 := rfl
@[simp] theorem State.popInput_wr : (s.popInput).wr = s.wr := rfl
@[simp] theorem State.popInput_data : (s.popInput).data = s.data := rfl
@[simp] theorem State.popInput_variant0 : (s.popInput).variant0 = s.variant0 := rfl
@[simp] theorem State.popInput_variant1 : (s.popInput).variant1 = s.variant1 := rfl
@[simp] theorem State.popInput_op : (s.popInput).op = s.op := rfl
@[simp] theorem State.popInput_cs : (s.popInput).cs = s.cs := rfl
@[simp] theorem State.popInput_width : (s.popInput).width = s.width := rfl
@[simp] theorem State.popInput_addr : (s.popInput).addr = s.addr := rfl
@[simp] theorem State.popInput_dat : (s.popInput).dat = s.dat := rfl
@[simp] theorem State.popInput_sh : (s.popInput).sh = s.sh := rfl
@[simp] theorem State.popInput_cnt : (s.popInput).cnt = s.cnt := rfl
@[simp] theorem State.popInput_acc : (s.popInput).acc = s.acc := rfl
@[simp] theorem State.popInput_dly : (s.popInput).dly = s.dly := rfl
@[simp] theorem State.popInput_fa : (s.popInput).fa = s.fa := rfl
@[simp] theorem State.popInput_fi : (s.popInput).fi = s.fi := rfl
@[simp] theorem State.popInput_si : (s.popInput).si = s.si := rfl
@[simp] theorem State.popInput_busy : (s.popInput).busy = s.busy := rfl
@[simp] theorem State.popInput_porDone : (s.popInput).porDone = s.porDone := rfl
@[simp] theorem State.popInput_rspValid : (s.popInput).rspValid = s.rspValid := rfl
@[simp] theorem State.popInput_rspErr : (s.popInput).rspErr = s.rspErr := rfl
@[simp] theorem State.popInput_rspData : (s.popInput).rspData = s.rspData := rfl
@[simp] theorem State.popInput_feCs : (s.popInput).feCs = s.feCs := rfl
@[simp] theorem State.popInput_tr : (s.popInput).tr = s.tr := rfl
@[simp] theorem State.popInput_ctl0 : (s.popInput).ctl0 = s.ctl0 := rfl
@[simp] theorem State.popInput_ctl1 : (s.popInput).ctl1 = s.ctl1 := rfl
@[simp] theorem State.popInput_inbox : (s.popInput).inbox = s.inbox.tail := rfl

/-! ### `State.loadBt` -/

@[simp] theorem State.loadBt_cfg (value : BitVec 16) (i : BitVec 5) :
    (s.loadBt value i).cfg = s.cfg := rfl
@[simp] theorem State.loadBt_cs0 (value : BitVec 16) (i : BitVec 5) :
    (s.loadBt value i).cs0 = s.cs0 := rfl
@[simp] theorem State.loadBt_cs1 (value : BitVec 16) (i : BitVec 5) :
    (s.loadBt value i).cs1 = s.cs1 := rfl
@[simp] theorem State.loadBt_wr (value : BitVec 16) (i : BitVec 5) :
    (s.loadBt value i).wr = s.wr := rfl
@[simp] theorem State.loadBt_data (value : BitVec 16) (i : BitVec 5) :
    (s.loadBt value i).data = s.data := rfl
@[simp] theorem State.loadBt_variant0 (value : BitVec 16) (i : BitVec 5) :
    (s.loadBt value i).variant0 = s.variant0 := rfl
@[simp] theorem State.loadBt_variant1 (value : BitVec 16) (i : BitVec 5) :
    (s.loadBt value i).variant1 = s.variant1 := rfl
@[simp] theorem State.loadBt_op (value : BitVec 16) (i : BitVec 5) :
    (s.loadBt value i).op = s.op := rfl
@[simp] theorem State.loadBt_cs (value : BitVec 16) (i : BitVec 5) :
    (s.loadBt value i).cs = s.cs := rfl
@[simp] theorem State.loadBt_width (value : BitVec 16) (i : BitVec 5) :
    (s.loadBt value i).width = s.width := rfl
@[simp] theorem State.loadBt_addr (value : BitVec 16) (i : BitVec 5) :
    (s.loadBt value i).addr = s.addr := rfl
@[simp] theorem State.loadBt_dat (value : BitVec 16) (i : BitVec 5) :
    (s.loadBt value i).dat = s.dat := rfl
@[simp] theorem State.loadBt_sh (value : BitVec 16) (i : BitVec 5) :
    (s.loadBt value i).sh = value := rfl
@[simp] theorem State.loadBt_cnt (value : BitVec 16) (i : BitVec 5) :
    (s.loadBt value i).cnt = i := rfl
@[simp] theorem State.loadBt_acc (value : BitVec 16) (i : BitVec 5) :
    (s.loadBt value i).acc = s.acc := rfl
@[simp] theorem State.loadBt_dly (value : BitVec 16) (i : BitVec 5) :
    (s.loadBt value i).dly = s.dly := rfl
@[simp] theorem State.loadBt_fa (value : BitVec 16) (i : BitVec 5) :
    (s.loadBt value i).fa = s.fa := rfl
@[simp] theorem State.loadBt_fi (value : BitVec 16) (i : BitVec 5) :
    (s.loadBt value i).fi = s.fi := rfl
@[simp] theorem State.loadBt_si (value : BitVec 16) (i : BitVec 5) :
    (s.loadBt value i).si = s.si := rfl
@[simp] theorem State.loadBt_busy (value : BitVec 16) (i : BitVec 5) :
    (s.loadBt value i).busy = s.busy := rfl
@[simp] theorem State.loadBt_porDone (value : BitVec 16) (i : BitVec 5) :
    (s.loadBt value i).porDone = s.porDone := rfl
@[simp] theorem State.loadBt_rspValid (value : BitVec 16) (i : BitVec 5) :
    (s.loadBt value i).rspValid = s.rspValid := rfl
@[simp] theorem State.loadBt_rspErr (value : BitVec 16) (i : BitVec 5) :
    (s.loadBt value i).rspErr = s.rspErr := rfl
@[simp] theorem State.loadBt_rspData (value : BitVec 16) (i : BitVec 5) :
    (s.loadBt value i).rspData = s.rspData := rfl
@[simp] theorem State.loadBt_feCs (value : BitVec 16) (i : BitVec 5) :
    (s.loadBt value i).feCs = s.feCs := rfl
@[simp] theorem State.loadBt_tr (value : BitVec 16) (i : BitVec 5) :
    (s.loadBt value i).tr = s.tr := rfl
@[simp] theorem State.loadBt_ctl0 (value : BitVec 16) (i : BitVec 5) :
    (s.loadBt value i).ctl0 = s.ctl0 := rfl
@[simp] theorem State.loadBt_ctl1 (value : BitVec 16) (i : BitVec 5) :
    (s.loadBt value i).ctl1 = s.ctl1 := rfl
@[simp] theorem State.loadBt_inbox (value : BitVec 16) (i : BitVec 5) :
    (s.loadBt value i).inbox = s.inbox := rfl
@[simp] theorem State.loadBt_ctl (value : BitVec 16) (i : BitVec 5) (j : Cs) :
    (s.loadBt value i).ctl j = s.ctl j := by
  cases j <;> rfl
@[simp] theorem State.loadBt_variant (value : BitVec 16) (i : BitVec 5) (j : Cs) :
    (s.loadBt value i).variant j = s.variant j := by
  cases j <;> rfl
@[simp] theorem State.loadBt_csPin (value : BitVec 16) (i : BitVec 5) (j : Cs) :
    (s.loadBt value i).csPin j = s.csPin j := by
  cases j <;> rfl

/-! ### `State.loadCs` -/

@[simp] theorem State.loadCs_cfg (k : Cs) : (s.loadCs k).cfg = s.cfg := rfl
@[simp] theorem State.loadCs_cs0 (k : Cs) : (s.loadCs k).cs0 = s.cs0 := rfl
@[simp] theorem State.loadCs_cs1 (k : Cs) : (s.loadCs k).cs1 = s.cs1 := rfl
@[simp] theorem State.loadCs_wr (k : Cs) : (s.loadCs k).wr = s.wr := rfl
@[simp] theorem State.loadCs_data (k : Cs) : (s.loadCs k).data = s.data := rfl
@[simp] theorem State.loadCs_variant0 (k : Cs) : (s.loadCs k).variant0 = s.variant0 := rfl
@[simp] theorem State.loadCs_variant1 (k : Cs) : (s.loadCs k).variant1 = s.variant1 := rfl
@[simp] theorem State.loadCs_op (k : Cs) : (s.loadCs k).op = s.op := rfl
@[simp] theorem State.loadCs_cs (k : Cs) : (s.loadCs k).cs = s.cs := rfl
@[simp] theorem State.loadCs_width (k : Cs) : (s.loadCs k).width = s.width := rfl
@[simp] theorem State.loadCs_addr (k : Cs) : (s.loadCs k).addr = s.addr := rfl
@[simp] theorem State.loadCs_dat (k : Cs) : (s.loadCs k).dat = s.dat := rfl
@[simp] theorem State.loadCs_sh (k : Cs) : (s.loadCs k).sh = s.sh := rfl
@[simp] theorem State.loadCs_cnt (k : Cs) : (s.loadCs k).cnt = s.cnt := rfl
@[simp] theorem State.loadCs_acc (k : Cs) : (s.loadCs k).acc = s.acc := rfl
@[simp] theorem State.loadCs_dly (k : Cs) : (s.loadCs k).dly = s.dly := rfl
@[simp] theorem State.loadCs_fa (k : Cs) : (s.loadCs k).fa = s.fa := rfl
@[simp] theorem State.loadCs_fi (k : Cs) : (s.loadCs k).fi = s.fi := rfl
@[simp] theorem State.loadCs_si (k : Cs) : (s.loadCs k).si = s.si := rfl
@[simp] theorem State.loadCs_busy (k : Cs) : (s.loadCs k).busy = s.busy := rfl
@[simp] theorem State.loadCs_porDone (k : Cs) : (s.loadCs k).porDone = s.porDone := rfl
@[simp] theorem State.loadCs_rspValid (k : Cs) : (s.loadCs k).rspValid = s.rspValid := rfl
@[simp] theorem State.loadCs_rspErr (k : Cs) : (s.loadCs k).rspErr = s.rspErr := rfl
@[simp] theorem State.loadCs_rspData (k : Cs) : (s.loadCs k).rspData = s.rspData := rfl
@[simp] theorem State.loadCs_feCs (k : Cs) : (s.loadCs k).feCs = k := rfl
@[simp] theorem State.loadCs_tr (k : Cs) : (s.loadCs k).tr = s.tr := rfl
@[simp] theorem State.loadCs_ctl0 (k : Cs) : (s.loadCs k).ctl0 = s.ctl0 := rfl
@[simp] theorem State.loadCs_ctl1 (k : Cs) : (s.loadCs k).ctl1 = s.ctl1 := rfl
@[simp] theorem State.loadCs_inbox (k : Cs) : (s.loadCs k).inbox = s.inbox := rfl
@[simp] theorem State.loadCs_ctl (k : Cs) (j : Cs) :
    (s.loadCs k).ctl j = s.ctl j := by
  cases j <;> rfl
@[simp] theorem State.loadCs_variant (k : Cs) (j : Cs) :
    (s.loadCs k).variant j = s.variant j := by
  cases j <;> rfl
@[simp] theorem State.loadCs_csPin (k : Cs) (j : Cs) :
    (s.loadCs k).csPin j = s.csPin j := by
  cases j <;> rfl

/-! ### `State.loadFe` -/

@[simp] theorem State.loadFe_cfg (reversed : BitVec 16) (address : BitVec 7) :
    (s.loadFe reversed address).cfg = s.cfg := rfl
@[simp] theorem State.loadFe_cs0 (reversed : BitVec 16) (address : BitVec 7) :
    (s.loadFe reversed address).cs0 = s.cs0 := rfl
@[simp] theorem State.loadFe_cs1 (reversed : BitVec 16) (address : BitVec 7) :
    (s.loadFe reversed address).cs1 = s.cs1 := rfl
@[simp] theorem State.loadFe_wr (reversed : BitVec 16) (address : BitVec 7) :
    (s.loadFe reversed address).wr = s.wr := rfl
@[simp] theorem State.loadFe_data (reversed : BitVec 16) (address : BitVec 7) :
    (s.loadFe reversed address).data = s.data := rfl
@[simp] theorem State.loadFe_variant0 (reversed : BitVec 16) (address : BitVec 7) :
    (s.loadFe reversed address).variant0 = s.variant0 := rfl
@[simp] theorem State.loadFe_variant1 (reversed : BitVec 16) (address : BitVec 7) :
    (s.loadFe reversed address).variant1 = s.variant1 := rfl
@[simp] theorem State.loadFe_op (reversed : BitVec 16) (address : BitVec 7) :
    (s.loadFe reversed address).op = s.op := rfl
@[simp] theorem State.loadFe_cs (reversed : BitVec 16) (address : BitVec 7) :
    (s.loadFe reversed address).cs = s.cs := rfl
@[simp] theorem State.loadFe_width (reversed : BitVec 16) (address : BitVec 7) :
    (s.loadFe reversed address).width = s.width := rfl
@[simp] theorem State.loadFe_addr (reversed : BitVec 16) (address : BitVec 7) :
    (s.loadFe reversed address).addr = s.addr := rfl
@[simp] theorem State.loadFe_dat (reversed : BitVec 16) (address : BitVec 7) :
    (s.loadFe reversed address).dat = s.dat := rfl
@[simp] theorem State.loadFe_sh (reversed : BitVec 16) (address : BitVec 7) :
    (s.loadFe reversed address).sh = s.sh := rfl
@[simp] theorem State.loadFe_cnt (reversed : BitVec 16) (address : BitVec 7) :
    (s.loadFe reversed address).cnt = s.cnt := rfl
@[simp] theorem State.loadFe_acc (reversed : BitVec 16) (address : BitVec 7) :
    (s.loadFe reversed address).acc = reversed := rfl
@[simp] theorem State.loadFe_dly (reversed : BitVec 16) (address : BitVec 7) :
    (s.loadFe reversed address).dly = s.dly := rfl
@[simp] theorem State.loadFe_fa (reversed : BitVec 16) (address : BitVec 7) :
    (s.loadFe reversed address).fa = address := rfl
@[simp] theorem State.loadFe_fi (reversed : BitVec 16) (address : BitVec 7) :
    (s.loadFe reversed address).fi = s.fi := rfl
@[simp] theorem State.loadFe_si (reversed : BitVec 16) (address : BitVec 7) :
    (s.loadFe reversed address).si = s.si := rfl
@[simp] theorem State.loadFe_busy (reversed : BitVec 16) (address : BitVec 7) :
    (s.loadFe reversed address).busy = s.busy := rfl
@[simp] theorem State.loadFe_porDone (reversed : BitVec 16) (address : BitVec 7) :
    (s.loadFe reversed address).porDone = s.porDone := rfl
@[simp] theorem State.loadFe_rspValid (reversed : BitVec 16) (address : BitVec 7) :
    (s.loadFe reversed address).rspValid = s.rspValid := rfl
@[simp] theorem State.loadFe_rspErr (reversed : BitVec 16) (address : BitVec 7) :
    (s.loadFe reversed address).rspErr = s.rspErr := rfl
@[simp] theorem State.loadFe_rspData (reversed : BitVec 16) (address : BitVec 7) :
    (s.loadFe reversed address).rspData = s.rspData := rfl
@[simp] theorem State.loadFe_feCs (reversed : BitVec 16) (address : BitVec 7) :
    (s.loadFe reversed address).feCs = s.feCs := rfl
@[simp] theorem State.loadFe_tr (reversed : BitVec 16) (address : BitVec 7) :
    (s.loadFe reversed address).tr = s.tr := rfl
@[simp] theorem State.loadFe_ctl0 (reversed : BitVec 16) (address : BitVec 7) :
    (s.loadFe reversed address).ctl0 = s.ctl0 := rfl
@[simp] theorem State.loadFe_ctl1 (reversed : BitVec 16) (address : BitVec 7) :
    (s.loadFe reversed address).ctl1 = s.ctl1 := rfl
@[simp] theorem State.loadFe_inbox (reversed : BitVec 16) (address : BitVec 7) :
    (s.loadFe reversed address).inbox = s.inbox := rfl
@[simp] theorem State.loadFe_ctl (reversed : BitVec 16) (address : BitVec 7) (j : Cs) :
    (s.loadFe reversed address).ctl j = s.ctl j := by
  cases j <;> rfl
@[simp] theorem State.loadFe_variant (reversed : BitVec 16) (address : BitVec 7) (j : Cs) :
    (s.loadFe reversed address).variant j = s.variant j := by
  cases j <;> rfl
@[simp] theorem State.loadFe_csPin (reversed : BitVec 16) (address : BitVec 7) (j : Cs) :
    (s.loadFe reversed address).csPin j = s.csPin j := by
  cases j <;> rfl

/-! ### `State.setSi` -/

@[simp] theorem State.setSi_cfg (i : Nat) : (s.setSi i).cfg = s.cfg := rfl
@[simp] theorem State.setSi_cs0 (i : Nat) : (s.setSi i).cs0 = s.cs0 := rfl
@[simp] theorem State.setSi_cs1 (i : Nat) : (s.setSi i).cs1 = s.cs1 := rfl
@[simp] theorem State.setSi_wr (i : Nat) : (s.setSi i).wr = s.wr := rfl
@[simp] theorem State.setSi_data (i : Nat) : (s.setSi i).data = s.data := rfl
@[simp] theorem State.setSi_variant0 (i : Nat) : (s.setSi i).variant0 = s.variant0 := rfl
@[simp] theorem State.setSi_variant1 (i : Nat) : (s.setSi i).variant1 = s.variant1 := rfl
@[simp] theorem State.setSi_op (i : Nat) : (s.setSi i).op = s.op := rfl
@[simp] theorem State.setSi_cs (i : Nat) : (s.setSi i).cs = s.cs := rfl
@[simp] theorem State.setSi_width (i : Nat) : (s.setSi i).width = s.width := rfl
@[simp] theorem State.setSi_addr (i : Nat) : (s.setSi i).addr = s.addr := rfl
@[simp] theorem State.setSi_dat (i : Nat) : (s.setSi i).dat = s.dat := rfl
@[simp] theorem State.setSi_sh (i : Nat) : (s.setSi i).sh = s.sh := rfl
@[simp] theorem State.setSi_cnt (i : Nat) : (s.setSi i).cnt = s.cnt := rfl
@[simp] theorem State.setSi_acc (i : Nat) : (s.setSi i).acc = s.acc := rfl
@[simp] theorem State.setSi_dly (i : Nat) : (s.setSi i).dly = s.dly := rfl
@[simp] theorem State.setSi_fa (i : Nat) : (s.setSi i).fa = s.fa := rfl
@[simp] theorem State.setSi_fi (i : Nat) : (s.setSi i).fi = s.fi := rfl
@[simp] theorem State.setSi_si (i : Nat) : (s.setSi i).si = i := rfl
@[simp] theorem State.setSi_busy (i : Nat) : (s.setSi i).busy = s.busy := rfl
@[simp] theorem State.setSi_porDone (i : Nat) : (s.setSi i).porDone = s.porDone := rfl
@[simp] theorem State.setSi_rspValid (i : Nat) : (s.setSi i).rspValid = s.rspValid := rfl
@[simp] theorem State.setSi_rspErr (i : Nat) : (s.setSi i).rspErr = s.rspErr := rfl
@[simp] theorem State.setSi_rspData (i : Nat) : (s.setSi i).rspData = s.rspData := rfl
@[simp] theorem State.setSi_feCs (i : Nat) : (s.setSi i).feCs = s.feCs := rfl
@[simp] theorem State.setSi_tr (i : Nat) : (s.setSi i).tr = s.tr := rfl
@[simp] theorem State.setSi_ctl0 (i : Nat) : (s.setSi i).ctl0 = s.ctl0 := rfl
@[simp] theorem State.setSi_ctl1 (i : Nat) : (s.setSi i).ctl1 = s.ctl1 := rfl
@[simp] theorem State.setSi_inbox (i : Nat) : (s.setSi i).inbox = s.inbox := rfl
@[simp] theorem State.setSi_ctl (i : Nat) (j : Cs) :
    (s.setSi i).ctl j = s.ctl j := by
  cases j <;> rfl
@[simp] theorem State.setSi_variant (i : Nat) (j : Cs) :
    (s.setSi i).variant j = s.variant j := by
  cases j <;> rfl
@[simp] theorem State.setSi_csPin (i : Nat) (j : Cs) :
    (s.setSi i).csPin j = s.csPin j := by
  cases j <;> rfl

/-! ### `State.nextFrame` -/

@[simp] theorem State.nextFrame_cfg : (s.nextFrame).cfg = s.cfg := rfl
@[simp] theorem State.nextFrame_cs0 : (s.nextFrame).cs0 = s.cs0 := rfl
@[simp] theorem State.nextFrame_cs1 : (s.nextFrame).cs1 = s.cs1 := rfl
@[simp] theorem State.nextFrame_wr : (s.nextFrame).wr = s.wr := rfl
@[simp] theorem State.nextFrame_data : (s.nextFrame).data = s.data := rfl
@[simp] theorem State.nextFrame_variant0 : (s.nextFrame).variant0 = s.variant0 := rfl
@[simp] theorem State.nextFrame_variant1 : (s.nextFrame).variant1 = s.variant1 := rfl
@[simp] theorem State.nextFrame_op : (s.nextFrame).op = s.op := rfl
@[simp] theorem State.nextFrame_cs : (s.nextFrame).cs = s.cs := rfl
@[simp] theorem State.nextFrame_width : (s.nextFrame).width = s.width := rfl
@[simp] theorem State.nextFrame_addr : (s.nextFrame).addr = s.addr := rfl
@[simp] theorem State.nextFrame_dat : (s.nextFrame).dat = s.dat := rfl
@[simp] theorem State.nextFrame_sh : (s.nextFrame).sh = s.sh := rfl
@[simp] theorem State.nextFrame_cnt : (s.nextFrame).cnt = s.cnt := rfl
@[simp] theorem State.nextFrame_acc : (s.nextFrame).acc = s.acc := rfl
@[simp] theorem State.nextFrame_dly : (s.nextFrame).dly = s.dly := rfl
@[simp] theorem State.nextFrame_fa : (s.nextFrame).fa = s.fa := rfl
@[simp] theorem State.nextFrame_fi : (s.nextFrame).fi = s.fi + 1 := rfl
@[simp] theorem State.nextFrame_si : (s.nextFrame).si = s.si := rfl
@[simp] theorem State.nextFrame_busy : (s.nextFrame).busy = s.busy := rfl
@[simp] theorem State.nextFrame_porDone : (s.nextFrame).porDone = s.porDone := rfl
@[simp] theorem State.nextFrame_rspValid : (s.nextFrame).rspValid = s.rspValid := rfl
@[simp] theorem State.nextFrame_rspErr : (s.nextFrame).rspErr = s.rspErr := rfl
@[simp] theorem State.nextFrame_rspData : (s.nextFrame).rspData = s.rspData := rfl
@[simp] theorem State.nextFrame_feCs : (s.nextFrame).feCs = s.feCs := rfl
@[simp] theorem State.nextFrame_tr : (s.nextFrame).tr = s.tr := rfl
@[simp] theorem State.nextFrame_ctl0 : (s.nextFrame).ctl0 = s.ctl0 := rfl
@[simp] theorem State.nextFrame_ctl1 : (s.nextFrame).ctl1 = s.ctl1 := rfl
@[simp] theorem State.nextFrame_inbox : (s.nextFrame).inbox = s.inbox := rfl
@[simp] theorem State.nextFrame_ctl (j : Cs) :
    (s.nextFrame).ctl j = s.ctl j := by
  cases j <;> rfl
@[simp] theorem State.nextFrame_variant (j : Cs) :
    (s.nextFrame).variant j = s.variant j := by
  cases j <;> rfl
@[simp] theorem State.nextFrame_csPin (j : Cs) :
    (s.nextFrame).csPin j = s.csPin j := by
  cases j <;> rfl

/-! ### Per-controller accessors -/

@[simp] theorem State.record_ctl (e : Event) (j : Cs) : (s.record e).ctl j = s.ctl j := by cases j <;> rfl
@[simp] theorem State.record_variant (e : Event) (j : Cs) : (s.record e).variant j = s.variant j := by
  cases j <;> rfl
@[simp] theorem State.record_csPin (e : Event) (j : Cs) : (s.record e).csPin j = s.csPin j := by cases j <;> rfl
@[simp] theorem State.wait_ctl (n : Nat) (j : Cs) : (s.wait n).ctl j = s.ctl j := by cases j <;> rfl
@[simp] theorem State.wait_variant (n : Nat) (j : Cs) : (s.wait n).variant j = s.variant j := by
  cases j <;> rfl
@[simp] theorem State.wait_csPin (n : Nat) (j : Cs) : (s.wait n).csPin j = s.csPin j := by cases j <;> rfl
@[simp] theorem State.setData_ctl (b : Bool) (j : Cs) : (s.setData b).ctl j = s.ctl j := by cases j <;> rfl
@[simp] theorem State.setData_variant (b : Bool) (j : Cs) : (s.setData b).variant j = s.variant j := by
  cases j <;> rfl
@[simp] theorem State.setData_csPin (b : Bool) (j : Cs) : (s.setData b).csPin j = s.csPin j := by cases j <;> rfl
@[simp] theorem State.raise_ctl (e : Err) (j : Cs) : (s.raise e).ctl j = s.ctl j := by cases j <;> rfl
@[simp] theorem State.raise_variant (e : Err) (j : Cs) : (s.raise e).variant j = s.variant j := by
  cases j <;> rfl
@[simp] theorem State.raise_csPin (e : Err) (j : Cs) : (s.raise e).csPin j = s.csPin j := by cases j <;> rfl
@[simp] theorem State.ok_ctl (d : BitVec 32) (j : Cs) : (s.ok d).ctl j = s.ctl j := by cases j <;> rfl
@[simp] theorem State.ok_variant (d : BitVec 32) (j : Cs) : (s.ok d).variant j = s.variant j := by
  cases j <;> rfl
@[simp] theorem State.ok_csPin (d : BitVec 32) (j : Cs) : (s.ok d).csPin j = s.csPin j := by cases j <;> rfl
@[simp] theorem State.tick_ctl (j : Cs) : (s.tick).ctl j = s.ctl j := by cases j <;> rfl
@[simp] theorem State.tick_variant (j : Cs) : (s.tick).variant j = s.variant j := by
  cases j <;> rfl
@[simp] theorem State.tick_csPin (j : Cs) : (s.tick).csPin j = s.csPin j := by cases j <;> rfl
@[simp] theorem State.accept_ctl (w : Request) (j : Cs) : (s.accept w).ctl j = s.ctl j := by cases j <;> rfl
@[simp] theorem State.accept_variant (w : Request) (j : Cs) : (s.accept w).variant j = s.variant j := by
  cases j <;> rfl
@[simp] theorem State.accept_csPin (w : Request) (j : Cs) : (s.accept w).csPin j = s.csPin j := by cases j <;> rfl
@[simp] theorem State.selectFrame_ctl (k : Cs) (j : Cs) : (s.selectFrame k).ctl j = s.ctl j := by cases j <;> rfl
@[simp] theorem State.selectFrame_variant (k : Cs) (j : Cs) : (s.selectFrame k).variant j = s.variant j := by
  cases j <;> rfl
@[simp] theorem State.selectFrame_csPin (k : Cs) (j : Cs) : (s.selectFrame k).csPin j = s.csPin j := by cases j <;> rfl
@[simp] theorem State.frameEnd_ctl (j : Cs) : (s.frameEnd).ctl j = s.ctl j := by cases j <;> rfl
@[simp] theorem State.frameEnd_variant (j : Cs) : (s.frameEnd).variant j = s.variant j := by
  cases j <;> rfl
@[simp] theorem State.frameEnd_csPin (j : Cs) : (s.frameEnd).csPin j = s.csPin j := by cases j <;> rfl
@[simp] theorem State.powerUp_ctl (j : Cs) : (s.powerUp).ctl j = s.ctl j := by cases j <;> rfl
@[simp] theorem State.powerUp_variant (j : Cs) : (s.powerUp).variant j = s.variant j := by
  cases j <;> rfl
@[simp] theorem State.powerUp_csPin (j : Cs) : (s.powerUp).csPin j = s.csPin j := by cases j <;> rfl
@[simp] theorem State.popInput_ctl (j : Cs) : (s.popInput).ctl j = s.ctl j := by cases j <;> rfl
@[simp] theorem State.popInput_variant (j : Cs) : (s.popInput).variant j = s.variant j := by
  cases j <;> rfl
@[simp] theorem State.popInput_csPin (j : Cs) : (s.popInput).csPin j = s.csPin j := by cases j <;> rfl

/-! ### `State.putCtl` -/

@[simp] theorem State.putCtl_ctl_self (k : Cs) (c : Ctl) : (s.putCtl k c).ctl k = c := by
  cases k <;> rfl

@[simp] theorem State.putCtl_ctl_other (k : Cs) (c : Ctl) :
    (s.putCtl k c).ctl k.other = s.ctl k.other := by
  cases k <;> rfl

@[simp] theorem State.putCtl_variant (k : Cs) (c : Ctl) (j : Cs) :
    (s.putCtl k c).variant j = s.variant j := by
  cases k <;> cases j <;> rfl

@[simp] theorem State.putCtl_csPin (k : Cs) (c : Ctl) (j : Cs) :
    (s.putCtl k c).csPin j = s.csPin j := by
  cases k <;> cases j <;> rfl

@[simp] theorem State.putCtl_cfg (k : Cs) (c : Ctl) : (s.putCtl k c).cfg = s.cfg := by
  cases k <;> rfl
@[simp] theorem State.putCtl_cs0 (k : Cs) (c : Ctl) : (s.putCtl k c).cs0 = s.cs0 := by
  cases k <;> rfl
@[simp] theorem State.putCtl_cs1 (k : Cs) (c : Ctl) : (s.putCtl k c).cs1 = s.cs1 := by
  cases k <;> rfl
@[simp] theorem State.putCtl_wr (k : Cs) (c : Ctl) : (s.putCtl k c).wr = s.wr := by
  cases k <;> rfl
@[simp] theorem State.putCtl_data (k : Cs) (c : Ctl) : (s.putCtl k c).data = s.data := by
  cases k <;> rfl
@[simp] theorem State.putCtl_variant0 (k : Cs) (c : Ctl) : (s.putCtl k c).variant0 = s.variant0 := by
  cases k <;> rfl
@[simp] theorem State.putCtl_variant1 (k : Cs) (c : Ctl) : (s.putCtl k c).variant1 = s.variant1 := by
  cases k <;> rfl
@[simp] theorem State.putCtl_op (k : Cs) (c : Ctl) : (s.putCtl k c).op = s.op := by
  cases k <;> rfl
@[simp] theorem State.putCtl_cs (k : Cs) (c : Ctl) : (s.putCtl k c).cs = s.cs := by
  cases k <;> rfl
@[simp] theorem State.putCtl_width (k : Cs) (c : Ctl) : (s.putCtl k c).width = s.width := by
  cases k <;> rfl
@[simp] theorem State.putCtl_addr (k : Cs) (c : Ctl) : (s.putCtl k c).addr = s.addr := by
  cases k <;> rfl
@[simp] theorem State.putCtl_dat (k : Cs) (c : Ctl) : (s.putCtl k c).dat = s.dat := by
  cases k <;> rfl
@[simp] theorem State.putCtl_sh (k : Cs) (c : Ctl) : (s.putCtl k c).sh = s.sh := by
  cases k <;> rfl
@[simp] theorem State.putCtl_cnt (k : Cs) (c : Ctl) : (s.putCtl k c).cnt = s.cnt := by
  cases k <;> rfl
@[simp] theorem State.putCtl_acc (k : Cs) (c : Ctl) : (s.putCtl k c).acc = s.acc := by
  cases k <;> rfl
@[simp] theorem State.putCtl_dly (k : Cs) (c : Ctl) : (s.putCtl k c).dly = s.dly := by
  cases k <;> rfl
@[simp] theorem State.putCtl_fa (k : Cs) (c : Ctl) : (s.putCtl k c).fa = s.fa := by
  cases k <;> rfl
@[simp] theorem State.putCtl_fi (k : Cs) (c : Ctl) : (s.putCtl k c).fi = s.fi := by
  cases k <;> rfl
@[simp] theorem State.putCtl_si (k : Cs) (c : Ctl) : (s.putCtl k c).si = s.si := by
  cases k <;> rfl
@[simp] theorem State.putCtl_busy (k : Cs) (c : Ctl) : (s.putCtl k c).busy = s.busy := by
  cases k <;> rfl
@[simp] theorem State.putCtl_porDone (k : Cs) (c : Ctl) : (s.putCtl k c).porDone = s.porDone := by
  cases k <;> rfl
@[simp] theorem State.putCtl_rspValid (k : Cs) (c : Ctl) : (s.putCtl k c).rspValid = s.rspValid := by
  cases k <;> rfl
@[simp] theorem State.putCtl_rspErr (k : Cs) (c : Ctl) : (s.putCtl k c).rspErr = s.rspErr := by
  cases k <;> rfl
@[simp] theorem State.putCtl_rspData (k : Cs) (c : Ctl) : (s.putCtl k c).rspData = s.rspData := by
  cases k <;> rfl
@[simp] theorem State.putCtl_feCs (k : Cs) (c : Ctl) : (s.putCtl k c).feCs = s.feCs := by
  cases k <;> rfl
@[simp] theorem State.putCtl_tr (k : Cs) (c : Ctl) : (s.putCtl k c).tr = s.tr := by
  cases k <;> rfl
@[simp] theorem State.putCtl_inbox (k : Cs) (c : Ctl) : (s.putCtl k c).inbox = s.inbox := by
  cases k <;> rfl
/-! ### `State.putCsPin` and the events of the strobe and the chip-selects -/

@[simp] theorem State.putCsPin_cfg (k : Cs) (b : Bool) : (s.putCsPin k b).cfg = s.cfg := by
  cases k <;> rfl
@[simp] theorem State.putCsPin_wr (k : Cs) (b : Bool) : (s.putCsPin k b).wr = s.wr := by
  cases k <;> rfl
@[simp] theorem State.putCsPin_data (k : Cs) (b : Bool) : (s.putCsPin k b).data = s.data := by
  cases k <;> rfl
@[simp] theorem State.putCsPin_variant0 (k : Cs) (b : Bool) : (s.putCsPin k b).variant0 = s.variant0 := by
  cases k <;> rfl
@[simp] theorem State.putCsPin_variant1 (k : Cs) (b : Bool) : (s.putCsPin k b).variant1 = s.variant1 := by
  cases k <;> rfl
@[simp] theorem State.putCsPin_op (k : Cs) (b : Bool) : (s.putCsPin k b).op = s.op := by
  cases k <;> rfl
@[simp] theorem State.putCsPin_cs (k : Cs) (b : Bool) : (s.putCsPin k b).cs = s.cs := by
  cases k <;> rfl
@[simp] theorem State.putCsPin_width (k : Cs) (b : Bool) : (s.putCsPin k b).width = s.width := by
  cases k <;> rfl
@[simp] theorem State.putCsPin_addr (k : Cs) (b : Bool) : (s.putCsPin k b).addr = s.addr := by
  cases k <;> rfl
@[simp] theorem State.putCsPin_dat (k : Cs) (b : Bool) : (s.putCsPin k b).dat = s.dat := by
  cases k <;> rfl
@[simp] theorem State.putCsPin_sh (k : Cs) (b : Bool) : (s.putCsPin k b).sh = s.sh := by
  cases k <;> rfl
@[simp] theorem State.putCsPin_cnt (k : Cs) (b : Bool) : (s.putCsPin k b).cnt = s.cnt := by
  cases k <;> rfl
@[simp] theorem State.putCsPin_acc (k : Cs) (b : Bool) : (s.putCsPin k b).acc = s.acc := by
  cases k <;> rfl
@[simp] theorem State.putCsPin_dly (k : Cs) (b : Bool) : (s.putCsPin k b).dly = s.dly := by
  cases k <;> rfl
@[simp] theorem State.putCsPin_fa (k : Cs) (b : Bool) : (s.putCsPin k b).fa = s.fa := by
  cases k <;> rfl
@[simp] theorem State.putCsPin_fi (k : Cs) (b : Bool) : (s.putCsPin k b).fi = s.fi := by
  cases k <;> rfl
@[simp] theorem State.putCsPin_si (k : Cs) (b : Bool) : (s.putCsPin k b).si = s.si := by
  cases k <;> rfl
@[simp] theorem State.putCsPin_busy (k : Cs) (b : Bool) : (s.putCsPin k b).busy = s.busy := by
  cases k <;> rfl
@[simp] theorem State.putCsPin_porDone (k : Cs) (b : Bool) : (s.putCsPin k b).porDone = s.porDone := by
  cases k <;> rfl
@[simp] theorem State.putCsPin_rspValid (k : Cs) (b : Bool) : (s.putCsPin k b).rspValid = s.rspValid := by
  cases k <;> rfl
@[simp] theorem State.putCsPin_rspErr (k : Cs) (b : Bool) : (s.putCsPin k b).rspErr = s.rspErr := by
  cases k <;> rfl
@[simp] theorem State.putCsPin_rspData (k : Cs) (b : Bool) : (s.putCsPin k b).rspData = s.rspData := by
  cases k <;> rfl
@[simp] theorem State.putCsPin_feCs (k : Cs) (b : Bool) : (s.putCsPin k b).feCs = s.feCs := by
  cases k <;> rfl
@[simp] theorem State.putCsPin_tr (k : Cs) (b : Bool) : (s.putCsPin k b).tr = s.tr := by
  cases k <;> rfl
@[simp] theorem State.putCsPin_ctl0 (k : Cs) (b : Bool) : (s.putCsPin k b).ctl0 = s.ctl0 := by
  cases k <;> rfl
@[simp] theorem State.putCsPin_ctl1 (k : Cs) (b : Bool) : (s.putCsPin k b).ctl1 = s.ctl1 := by
  cases k <;> rfl
@[simp] theorem State.putCsPin_inbox (k : Cs) (b : Bool) : (s.putCsPin k b).inbox = s.inbox := by
  cases k <;> rfl

@[simp] theorem State.putCsPin_ctl (k : Cs) (b : Bool) (j : Cs) :
    (s.putCsPin k b).ctl j = s.ctl j := by
  cases k <;> cases j <;> rfl

@[simp] theorem State.putCsPin_csPin_self (k : Cs) (b : Bool) : (s.putCsPin k b).csPin k = b := by
  cases k <;> rfl

@[simp] theorem State.sample_cfg : s.sample.cfg = s.cfg := rfl
@[simp] theorem State.sample_cs0 : s.sample.cs0 = s.cs0 := rfl
@[simp] theorem State.sample_cs1 : s.sample.cs1 = s.cs1 := rfl
@[simp] theorem State.sample_wr : s.sample.wr = s.wr := rfl
@[simp] theorem State.sample_data : s.sample.data = s.data := rfl
@[simp] theorem State.sample_variant0 : s.sample.variant0 = s.variant0 := rfl
@[simp] theorem State.sample_variant1 : s.sample.variant1 = s.variant1 := rfl
@[simp] theorem State.sample_op : s.sample.op = s.op := rfl
@[simp] theorem State.sample_cs : s.sample.cs = s.cs := rfl
@[simp] theorem State.sample_width : s.sample.width = s.width := rfl
@[simp] theorem State.sample_addr : s.sample.addr = s.addr := rfl
@[simp] theorem State.sample_dat : s.sample.dat = s.dat := rfl
@[simp] theorem State.sample_sh : s.sample.sh = s.sh := rfl
@[simp] theorem State.sample_cnt : s.sample.cnt = s.cnt := rfl
@[simp] theorem State.sample_acc : s.sample.acc = s.acc := rfl
@[simp] theorem State.sample_dly : s.sample.dly = s.dly := rfl
@[simp] theorem State.sample_fa : s.sample.fa = s.fa := rfl
@[simp] theorem State.sample_fi : s.sample.fi = s.fi := rfl
@[simp] theorem State.sample_si : s.sample.si = s.si := rfl
@[simp] theorem State.sample_busy : s.sample.busy = s.busy := rfl
@[simp] theorem State.sample_porDone : s.sample.porDone = s.porDone := rfl
@[simp] theorem State.sample_rspValid : s.sample.rspValid = s.rspValid := rfl
@[simp] theorem State.sample_rspErr : s.sample.rspErr = s.rspErr := rfl
@[simp] theorem State.sample_rspData : s.sample.rspData = s.rspData := rfl
@[simp] theorem State.sample_feCs : s.sample.feCs = s.feCs := rfl
@[simp] theorem State.sample_tr : s.sample.tr = s.tr := rfl
@[simp] theorem State.sample_inbox : s.sample.inbox = s.inbox := rfl

@[simp] theorem State.setWr_cfg (b : Bool) : (s.setWr b).cfg = s.cfg := by
  cases h : (b && !s.wr) <;> simp [State.setWr, h]
@[simp] theorem State.setWr_cs0 (b : Bool) : (s.setWr b).cs0 = s.cs0 := by
  cases h : (b && !s.wr) <;> simp [State.setWr, h]
@[simp] theorem State.setWr_cs1 (b : Bool) : (s.setWr b).cs1 = s.cs1 := by
  cases h : (b && !s.wr) <;> simp [State.setWr, h]
@[simp] theorem State.setWr_wr (b : Bool) : (s.setWr b).wr = b := by
  cases h : (b && !s.wr) <;> simp [State.setWr, h]
@[simp] theorem State.setWr_data (b : Bool) : (s.setWr b).data = s.data := by
  cases h : (b && !s.wr) <;> simp [State.setWr, h]
@[simp] theorem State.setWr_variant0 (b : Bool) : (s.setWr b).variant0 = s.variant0 := by
  cases h : (b && !s.wr) <;> simp [State.setWr, h]
@[simp] theorem State.setWr_variant1 (b : Bool) : (s.setWr b).variant1 = s.variant1 := by
  cases h : (b && !s.wr) <;> simp [State.setWr, h]
@[simp] theorem State.setWr_op (b : Bool) : (s.setWr b).op = s.op := by
  cases h : (b && !s.wr) <;> simp [State.setWr, h]
@[simp] theorem State.setWr_cs (b : Bool) : (s.setWr b).cs = s.cs := by
  cases h : (b && !s.wr) <;> simp [State.setWr, h]
@[simp] theorem State.setWr_width (b : Bool) : (s.setWr b).width = s.width := by
  cases h : (b && !s.wr) <;> simp [State.setWr, h]
@[simp] theorem State.setWr_addr (b : Bool) : (s.setWr b).addr = s.addr := by
  cases h : (b && !s.wr) <;> simp [State.setWr, h]
@[simp] theorem State.setWr_dat (b : Bool) : (s.setWr b).dat = s.dat := by
  cases h : (b && !s.wr) <;> simp [State.setWr, h]
@[simp] theorem State.setWr_sh (b : Bool) : (s.setWr b).sh = s.sh := by
  cases h : (b && !s.wr) <;> simp [State.setWr, h]
@[simp] theorem State.setWr_cnt (b : Bool) : (s.setWr b).cnt = s.cnt := by
  cases h : (b && !s.wr) <;> simp [State.setWr, h]
@[simp] theorem State.setWr_acc (b : Bool) : (s.setWr b).acc = s.acc := by
  cases h : (b && !s.wr) <;> simp [State.setWr, h]
@[simp] theorem State.setWr_dly (b : Bool) : (s.setWr b).dly = s.dly := by
  cases h : (b && !s.wr) <;> simp [State.setWr, h]
@[simp] theorem State.setWr_fa (b : Bool) : (s.setWr b).fa = s.fa := by
  cases h : (b && !s.wr) <;> simp [State.setWr, h]
@[simp] theorem State.setWr_fi (b : Bool) : (s.setWr b).fi = s.fi := by
  cases h : (b && !s.wr) <;> simp [State.setWr, h]
@[simp] theorem State.setWr_si (b : Bool) : (s.setWr b).si = s.si := by
  cases h : (b && !s.wr) <;> simp [State.setWr, h]
@[simp] theorem State.setWr_busy (b : Bool) : (s.setWr b).busy = s.busy := by
  cases h : (b && !s.wr) <;> simp [State.setWr, h]
@[simp] theorem State.setWr_porDone (b : Bool) : (s.setWr b).porDone = s.porDone := by
  cases h : (b && !s.wr) <;> simp [State.setWr, h]
@[simp] theorem State.setWr_rspValid (b : Bool) : (s.setWr b).rspValid = s.rspValid := by
  cases h : (b && !s.wr) <;> simp [State.setWr, h]
@[simp] theorem State.setWr_rspErr (b : Bool) : (s.setWr b).rspErr = s.rspErr := by
  cases h : (b && !s.wr) <;> simp [State.setWr, h]
@[simp] theorem State.setWr_rspData (b : Bool) : (s.setWr b).rspData = s.rspData := by
  cases h : (b && !s.wr) <;> simp [State.setWr, h]
@[simp] theorem State.setWr_feCs (b : Bool) : (s.setWr b).feCs = s.feCs := by
  cases h : (b && !s.wr) <;> simp [State.setWr, h]
@[simp] theorem State.setWr_tr (b : Bool) : (s.setWr b).tr = s.tr ++ [.set .wr b] := by
  cases h : (b && !s.wr) <;> simp [State.setWr, h]
@[simp] theorem State.setWr_inbox (b : Bool) : (s.setWr b).inbox = s.inbox := by
  cases h : (b && !s.wr) <;> simp [State.setWr, h]

@[simp] theorem State.setCs_cfg (k : Cs) (b : Bool) : (s.setCs k b).cfg = s.cfg := by
  simp [State.setCs]
@[simp] theorem State.setCs_wr (k : Cs) (b : Bool) : (s.setCs k b).wr = s.wr := by
  simp [State.setCs]
@[simp] theorem State.setCs_data (k : Cs) (b : Bool) : (s.setCs k b).data = s.data := by
  simp [State.setCs]
@[simp] theorem State.setCs_variant0 (k : Cs) (b : Bool) : (s.setCs k b).variant0 = s.variant0 := by
  simp [State.setCs]
@[simp] theorem State.setCs_variant1 (k : Cs) (b : Bool) : (s.setCs k b).variant1 = s.variant1 := by
  simp [State.setCs]
@[simp] theorem State.setCs_op (k : Cs) (b : Bool) : (s.setCs k b).op = s.op := by
  simp [State.setCs]
@[simp] theorem State.setCs_cs (k : Cs) (b : Bool) : (s.setCs k b).cs = s.cs := by
  simp [State.setCs]
@[simp] theorem State.setCs_width (k : Cs) (b : Bool) : (s.setCs k b).width = s.width := by
  simp [State.setCs]
@[simp] theorem State.setCs_addr (k : Cs) (b : Bool) : (s.setCs k b).addr = s.addr := by
  simp [State.setCs]
@[simp] theorem State.setCs_dat (k : Cs) (b : Bool) : (s.setCs k b).dat = s.dat := by
  simp [State.setCs]
@[simp] theorem State.setCs_sh (k : Cs) (b : Bool) : (s.setCs k b).sh = s.sh := by
  simp [State.setCs]
@[simp] theorem State.setCs_cnt (k : Cs) (b : Bool) : (s.setCs k b).cnt = s.cnt := by
  simp [State.setCs]
@[simp] theorem State.setCs_acc (k : Cs) (b : Bool) : (s.setCs k b).acc = s.acc := by
  simp [State.setCs]
@[simp] theorem State.setCs_dly (k : Cs) (b : Bool) : (s.setCs k b).dly = s.dly := by
  simp [State.setCs]
@[simp] theorem State.setCs_fa (k : Cs) (b : Bool) : (s.setCs k b).fa = s.fa := by
  simp [State.setCs]
@[simp] theorem State.setCs_fi (k : Cs) (b : Bool) : (s.setCs k b).fi = s.fi := by
  simp [State.setCs]
@[simp] theorem State.setCs_si (k : Cs) (b : Bool) : (s.setCs k b).si = s.si := by
  simp [State.setCs]
@[simp] theorem State.setCs_busy (k : Cs) (b : Bool) : (s.setCs k b).busy = s.busy := by
  simp [State.setCs]
@[simp] theorem State.setCs_porDone (k : Cs) (b : Bool) : (s.setCs k b).porDone = s.porDone := by
  simp [State.setCs]
@[simp] theorem State.setCs_rspValid (k : Cs) (b : Bool) : (s.setCs k b).rspValid = s.rspValid := by
  simp [State.setCs]
@[simp] theorem State.setCs_rspErr (k : Cs) (b : Bool) : (s.setCs k b).rspErr = s.rspErr := by
  simp [State.setCs]
@[simp] theorem State.setCs_rspData (k : Cs) (b : Bool) : (s.setCs k b).rspData = s.rspData := by
  simp [State.setCs]
@[simp] theorem State.setCs_feCs (k : Cs) (b : Bool) : (s.setCs k b).feCs = s.feCs := by
  simp [State.setCs]
@[simp] theorem State.setCs_tr (k : Cs) (b : Bool) : (s.setCs k b).tr = s.tr ++ [.set (.cs k) b] := by
  simp [State.setCs]
@[simp] theorem State.setCs_inbox (k : Cs) (b : Bool) : (s.setCs k b).inbox = s.inbox := by
  simp [State.setCs]

/-- The other chip-select and the other controller have no part in `Set(CS[k], b)`. -/
theorem State.setCs_other (k : Cs) (b : Bool) :
    (s.setCs k b).csPin k.other = s.csPin k.other ∧ (s.setCs k b).ctl k.other = s.ctl k.other := by
  cases k <;> exact ⟨rfl, rfl⟩


end Sys2Proof.Machine
end

