-- ==== Sys2Proof/Laws/Bus.lean ====
section
/-! SUPPORT. What the bus operations do, said once: a slot, a run of slots, a bracket, a whole frame,
each as one update of the state it starts from. -/

namespace Sys2Proof.Machine

/-! ### Controllers -/

/-- A controller after a rising edge for each of the bits. -/
def Ctl.gathered (c : Ctl) (bits : Bits) : Ctl :=
  { c with openBits := c.openBits.map (· ++ bits) }

@[simp] theorem Ctl.gathered_nil (c : Ctl) : c.gathered [] = c := by
  cases c with | mk sink o life clk ram => cases o <;> simp [Ctl.gathered]

@[simp] theorem Ctl.gathered_gathered (c : Ctl) (xs ys : Bits) :
    (c.gathered xs).gathered ys = c.gathered (xs ++ ys) := by
  cases c with | mk sink o life clk ram => cases o <;> simp [Ctl.gathered]

theorem Ctl.sampled_eq_gathered (c : Ctl) (b : Bool) : c.sampled b = c.gathered [b] := rfl

/-- A whole frame, from the falling to the rising edge of the chip-select. -/
theorem Ctl.closed_gathered_opened (c : Ctl) (v : Variant) (bits : Bits) (h : c.openBits = none) :
    (c.opened.gathered bits).closed v = c.received v bits := by
  cases c with
  | mk sink o life clk ram =>
    subst h
    simp [Ctl.opened, Ctl.gathered, Ctl.closed, Ctl.received]

/-! ### Bits -/

@[simp] theorem bitsEvents_nil (c : Config) : bitsEvents c [] = [] := rfl

@[simp] theorem bitsEvents_cons (c : Config) (b : Bool) (bits : Bits) :
    bitsEvents c (b :: bits) = slotEvents c b ++ bitsEvents c bits := rfl

theorem bitsEvents_append (c : Config) (xs ys : Bits) :
    bitsEvents c (xs ++ ys) = bitsEvents c xs ++ bitsEvents c ys := by
  simp [bitsEvents]

/-- The state after a run of bits on the bus, with the strobe at rest: `DATA` holds the last one,
the selected controllers have gathered them. -/
def State.afterBits (s : State) (bits : Bits) : State :=
  { s with
    data := bits.getLastD s.data
    dly := if bits = [] then s.dly else 0
    tr := s.tr ++ bitsEvents s.cfg bits
    ctl0 := if s.cs0 then s.ctl0 else s.ctl0.gathered bits
    ctl1 := if s.cs1 then s.ctl1 else s.ctl1.gathered bits }

/-- One slot puts one bit on the bus (40_bit_transmitter.md R82). -/
theorem State.bitSlot_eq (s : State) (b : Bool) (h : s.wr = true) :
    s.bitSlot b = s.afterBits [b] := by
  cases s
  simp only at h
  subst h
  simp [State.bitSlot, State.wait, State.setData, State.setWr, State.record, State.sample,
    State.afterBits, slotEvents, bitsEvents, Ctl.sampled_eq_gathered]

theorem State.afterBits_append (s : State) (xs ys : Bits) :
    (s.afterBits xs).afterBits ys = s.afterBits (xs ++ ys) := by
  apply State.ext <;> try rfl
  case data =>
    cases ys with
    | nil => simp [State.afterBits]
    | cons y ys => simp [State.afterBits, List.getLastD_eq_getLast?, List.getLast?_append]
  case dly => cases xs <;> cases ys <;> simp [State.afterBits]
  case tr => simp [State.afterBits, bitsEvents_append]
  case ctl0 => cases h : s.cs0 <;> simp [State.afterBits, h]
  case ctl1 => cases h : s.cs1 <;> simp [State.afterBits, h]

@[simp] theorem State.afterBits_nil (s : State) : s.afterBits [] = s := by
  cases s with
  | mk => simp [State.afterBits]

/-- The serializer sends the low bits of `sh`, bit `cnt` first, and leaves `cnt` at 0
(40_bit_transmitter.md R86). -/
theorem State.slots_eq (n : Nat) (s : State) (hw : s.wr = true) (hc : s.cnt = BitVec.ofNat 5 n)
    (hn : n < 16) :
    State.slots (n + 1) s = (s.afterBits (bitsMSB s.sh (n + 1))).loadBt s.sh 0 := by
  induction n generalizing s with
  | zero =>
    rw [State.slots, State.slots, State.bitSlot_eq _ _ hw, hc]
    simp [State.nextBit, State.afterBits, State.loadBt, bitsMSB, hc]
  | succ n ih =>
    have hcn : s.cnt.toNat = n + 1 := by rw [hc, BitVec.toNat_ofNat]; omega
    have hne : s.cnt ≠ 0 := fun h0 => by simp [h0] at hcn
    have hdec : s.cnt - 1 = BitVec.ofNat 5 n := by
      apply BitVec.eq_of_toNat_eq
      rw [BitVec.toNat_sub, hcn, BitVec.toNat_ofNat]
      simp; omega
    have hnext : (s.afterBits [s.sh.getLsbD (n + 1)]).nextBit =
        (s.afterBits [s.sh.getLsbD (n + 1)]).loadBt s.sh (BitVec.ofNat 5 n) := by
      rw [← hdec, State.nextBit]
      exact if_neg hne
    rw [State.slots, State.bitSlot_eq _ _ hw, hcn, hnext,
      ih ((s.afterBits [s.sh.getLsbD (n + 1)]).loadBt s.sh (BitVec.ofNat 5 n)) hw rfl (by omega)]
    have happ := State.afterBits_append s [s.sh.getLsbD (n + 1)] (bitsMSB s.sh (n + 1))
    rw [List.singleton_append] at happ
    rw [show bitsMSB s.sh (n + 1 + 1) = s.sh.getLsbD (n + 1) :: bitsMSB s.sh (n + 1) from rfl, ← happ]
    rfl

/-- The Bit Transmitter sends `bitsMSB(value, n)` (40_bit_transmitter.md R83). -/
theorem State.sendBits_eq (s : State) (value : BitVec 16) (n : Nat) (hw : s.wr = true) (h1 : 1 ≤ n)
    (h2 : n ≤ 16) : s.sendBits value n = (s.afterBits (bitsMSB value n)).loadBt value 0 := by
  obtain ⟨m, rfl⟩ : ∃ m, n = m + 1 := ⟨n - 1, by omega⟩
  exact State.slots_eq m (s.loadBt value (BitVec.ofNat 5 m)) hw rfl (by omega)

/-! ### Frames -/

/-- The bus at rest, field by field. -/
theorem State.quiet_iff (s : State) : s.quiet = true ↔
    s.cs0 = true ∧ s.cs1 = true ∧ s.wr = true ∧ s.ctl0.openBits = none ∧ s.ctl1.openBits = none := by
  simp [State.quiet, and_assoc]

/-- The state after a frame with these bits on line `k`: the trace, the level of `DATA`, and the
controller that received it; the chip-selects and the strobe are back at rest. -/
def State.afterFrame (s : State) (k : Cs) (bits : Bits) : State :=
  { s with
    feCs := k
    fi := s.fi + 1
    data := bits.getLastD s.data
    dly := 0
    tr := s.tr ++ frameEvents s.cfg k bits
    ctl0 := if k = .c0 then s.ctl0.received s.variant0 bits else s.ctl0
    ctl1 := if k = .c1 then s.ctl1.received s.variant1 bits else s.ctl1 }

/-- A bracket around a run of bits on a bus at rest is a frame (41_frame_encoder.md R104, R105). -/
theorem State.bracket_eq (s : State) (k : Cs) (bits : Bits) (h : s.quiet = true) :
    ((s.frameOpen k).afterBits bits).frameClose k = s.afterFrame k bits := by
  obtain ⟨h0, h1, hw, ho0, ho1⟩ := s.quiet_iff.1 h
  have hc0 := Ctl.closed_gathered_opened s.ctl0 s.variant0 bits ho0
  have hc1 := Ctl.closed_gathered_opened s.ctl1 s.variant1 bits ho1
  cases s
  simp only at h0 h1 hw hc0 hc1
  subst h0 h1 hw
  cases k
  · apply State.ext
    case ctl0 => exact hc0
    case tr =>
      simp [State.frameOpen, State.frameClose, State.afterBits, State.afterFrame, State.setCs,
        State.putCsPin, State.putCtl, frameEvents, openEvents, closeEvents]
    all_goals rfl
  · apply State.ext
    case ctl1 => exact hc1
    case tr =>
      simp [State.frameOpen, State.frameClose, State.afterBits, State.afterFrame, State.setCs,
        State.putCsPin, State.putCtl, frameEvents, openEvents, closeEvents]
    all_goals rfl

/-- The strobe is at rest inside a bracket. -/
theorem State.frameOpen_wr (s : State) (k : Cs) : (s.frameOpen k).wr = s.wr := by
  simp [State.frameOpen]

/-- The registers of the Bit Transmitter have no part in closing a bracket. -/
theorem State.frameClose_loadBt (s : State) (k : Cs) (v : BitVec 16) (i : BitVec 5) :
    (s.loadBt v i).frameClose k = (s.frameClose k).loadBt v i := by
  cases s; cases k <;> rfl

/-- Nor has the index of the field. -/
theorem State.frameClose_setSi (s : State) (k : Cs) (i : Nat) :
    (s.setSi i).frameClose k = (s.frameClose k).setSi i := by
  cases s; cases k <;> rfl

/-- Nor have the registers of the Frame Encoder. -/
theorem State.frameClose_loadFe (s : State) (k : Cs) (r : BitVec 16) (a : BitVec 7) :
    (s.loadFe r a).frameClose k = (s.frameClose k).loadFe r a := by
  cases s; cases k <;> rfl

/-- The registers of the Frame Encoder have no part in opening a bracket or in the bits. -/
theorem State.frameOpen_loadFe (s : State) (k : Cs) (r : BitVec 16) (a : BitVec 7) :
    (s.loadFe r a).frameOpen k = (s.frameOpen k).loadFe r a := by
  cases s; cases k <;> rfl

theorem State.afterBits_loadFe (s : State) (bits : Bits) (r : BitVec 16) (a : BitVec 7) :
    (s.loadFe r a).afterBits bits = (s.afterBits bits).loadFe r a := rfl

theorem State.afterBits_loadBt (s : State) (bits : Bits) (v : BitVec 16) (i : BitVec 5) :
    (s.loadBt v i).afterBits bits = (s.afterBits bits).loadBt v i := rfl

theorem State.afterBits_setSi (s : State) (bits : Bits) (i : Nat) :
    (s.setSi i).afterBits bits = (s.afterBits bits).setSi i := rfl

/-- A field of a frame with the strobe at rest. -/
theorem State.field_eq (s : State) (i : Nat) (v : BitVec 16) (n : Nat) (hw : s.wr = true)
    (h1 : 1 ≤ n) (h2 : n ≤ 16) :
    s.field i v n = ((s.afterBits (bitsMSB v n)).loadBt v 0).setSi i := by
  rw [State.field, State.sendBits_eq (s.setSi i) v n hw h1 h2, State.afterBits_setSi]
  rfl

/-- A field leaves the strobe at rest and the accumulator alone. -/
theorem State.field_wr_acc (s : State) (i : Nat) (v : BitVec 16) (n : Nat) (hw : s.wr = true)
    (hn : 1 ≤ n ∧ n ≤ 16) : (s.field i v n).wr = true ∧ (s.field i v n).acc = s.acc := by
  rw [State.field_eq s i v n hw hn.1 hn.2]
  exact ⟨hw, rfl⟩

/-- Two fields one after another are one run of bits, seen by the third. -/
theorem State.fields_eq (s : State) (u v w : BitVec 16) (l m n : Nat) (hw : s.wr = true)
    (hl : 1 ≤ l ∧ l ≤ 16) (hm : 1 ≤ m ∧ m ≤ 16) (hn : 1 ≤ n ∧ n ≤ 16) :
    ((s.field 0 u l).field 1 v m).field 2 w n =
      ((s.afterBits (bitsMSB u l ++ bitsMSB v m ++ bitsMSB w n)).loadBt w 0).setSi 2 := by
  rw [State.field_eq s 0 u l hw hl.1 hl.2,
    State.field_eq (((s.afterBits (bitsMSB u l)).loadBt u 0).setSi 0) 1 v m hw hm.1 hm.2,
    State.afterBits_setSi, State.afterBits_loadBt, State.afterBits_append]
  generalize bitsMSB u l ++ bitsMSB v m = bits
  rw [State.field_eq (((((s.afterBits bits).loadBt u 0).setSi 0).loadBt v 0).setSi 1) 2 w n hw hn.1
    hn.2, State.afterBits_setSi, State.afterBits_loadBt, State.afterBits_setSi,
    State.afterBits_loadBt, State.afterBits_append]
  rfl

/-- A command frame on a bus at rest (41_frame_encoder.md R106). -/
theorem State.commandFrame_eq (s : State) (k : Cs) (cmd : BitVec 8) (h : s.quiet = true) :
    s.commandFrame k cmd = ((s.afterFrame k (commandBits cmd)).loadBt 1 0).setSi 2 := by
  have hw : (s.frameOpen k).wr = true := by
    rw [State.frameOpen_wr]; exact (s.quiet_iff.1 h).2.2.1
  have hb : bitsMSB (0b100 : BitVec 16) 3 ++ bitsMSB (cmd.setWidth 16) 8 ++ bitsMSB (1 : BitVec 16) 1 =
      commandBits cmd := by
    rw [bitsMSB_setWidth cmd 16 8 (by omega)]; rfl
  rw [State.commandFrame, State.fields_eq _ _ _ _ _ _ _ hw (by omega) (by omega) (by omega), hb,
    State.frameClose_setSi, State.frameClose_loadBt, State.bracket_eq s k _ h]

/-- A data frame on a bus at rest (41_frame_encoder.md R108). -/
theorem State.dataFrame_eq (s : State) (k : Cs) (aw : Nat) (address : BitVec 7)
    (payload : BitVec 16) (w : Nat) (h : s.quiet = true) (ha : 1 ≤ aw ∧ aw ≤ 16)
    (hw : 1 ≤ w ∧ w ≤ 16) :
    s.dataFrame k aw address payload w =
      (((s.afterFrame k (dataBits aw address w payload)).loadFe (rev payload w) address).loadBt
        (rev payload w) 0).setSi 2 := by
  have hwr : ((s.loadFe (rev payload w) address).frameOpen k).wr = true := by
    rw [State.frameOpen_wr]; exact (s.quiet_iff.1 h).2.2.1
  have hb : bitsMSB (0b101 : BitVec 16) 3 ++ bitsMSB (address.setWidth 16) aw ++
      bitsMSB (rev payload w) w = dataBits aw address w payload := by
    rw [bitsMSB_setWidth address 16 aw ha.2, bitsMSB_rev payload w hw.2]; rfl
  have hacc : (((s.loadFe (rev payload w) address).frameOpen k).field 0 0b101 3 |>.field 1
      (address.setWidth 16) aw).acc = rev payload w := by
    have h0 := State.field_wr_acc _ 0 (0b101 : BitVec 16) 3 hwr (by omega)
    have h1 := State.field_wr_acc _ 1 (address.setWidth 16) aw h0.1 ha
    rw [h1.2, h0.2, State.frameOpen_loadFe, State.loadFe_acc]
  rw [State.dataFrame, hacc, State.fields_eq _ _ _ _ _ _ _ hwr (by omega) ha hw, hb,
    State.frameOpen_loadFe, State.afterBits_loadFe, State.frameClose_setSi, State.frameClose_loadBt,
    State.frameClose_loadFe, State.bracket_eq s k _ h]

/-- Receiving a frame leaves no frame in progress. -/
theorem Ctl.received_openBits (c : Ctl) (v : Variant) (bits : Bits) :
    (c.received v bits).openBits = c.openBits := by
  simp only [Ctl.received, Ctl.frame, Ctl.command, Ctl.lost]
  repeat' split
  all_goals rfl

/-- A frame leaves the bus at rest (10_state.md R38). -/
theorem State.afterFrame_quiet (s : State) (k : Cs) (bits : Bits) (h : s.quiet = true) :
    (s.afterFrame k bits).quiet = true := by
  rw [State.quiet_iff] at *
  obtain ⟨h0, h1, hw, ho0, ho1⟩ := h
  cases k <;> simp [State.afterFrame, h0, h1, hw, ho0, ho1, Ctl.received_openBits]

/-! ### Time -/

theorem duration_append (xs ys : List Event) : duration (xs ++ ys) = duration xs + duration ys := by
  simp [duration]

/-- A clock period is a unit or longer (10_state.md R21), so a trace takes its units at the least. -/
theorem units_le_elapsed (c : Config) (evs : List Event) : duration evs * c.unit ≤ elapsed c evs :=
  Nat.mul_le_mul_left _ (Nat.le_add_right _ _)

end Sys2Proof.Machine
end

