-- ==== Sys2Proof/Laws/Memory.lean ====
section
/-! SUPPORT. The ghost RAM: reading after writing, and that every operation keeps the canonical form
and the address range. -/

namespace Sys2Proof.Machine

/-! ### The canonical form -/

/-- The canonical form as a statement about pairs of entries. -/
theorem Ram.wf_iff (m : Ram) : m.wf = true ↔ m.Pairwise (fun x y => x.1 < y.1) := by
  induction m with
  | nil => simp [Ram.wf]
  | cons e m ih =>
    cases m with
    | nil => simp [Ram.wf]
    | cons f m =>
      simp only [Ram.wf, Bool.and_eq_true, decide_eq_true_eq, ih, List.pairwise_cons]
      constructor
      · rintro ⟨hlt, hf, hm⟩
        refine ⟨?_, hf, hm⟩
        intro y hy
        rcases List.mem_cons.1 hy with rfl | hy
        · exact hlt
        · exact lt_trans hlt (hf y hy)
      · rintro ⟨he, hf, hm⟩
        exact ⟨he f (by simp), hf, hm⟩

/-- An address below every listed one is not listed. -/
theorem Ram.read_eq_none_of_lt (m : Ram) (a : Nat) (h : ∀ e ∈ m, a < e.1) : m.read a = none := by
  induction m with
  | nil => rfl
  | cons e m ih =>
    have ha := h e (by simp)
    rw [Ram.read, if_neg (Nat.ne_of_lt ha)]
    exact ih fun f hf => h f (by simp [hf])

/-- The entries after a write. -/
theorem Ram.mem_write (m : Ram) (a : Nat) (v : Nibble) (e : Nat × Nibble) (h : e ∈ m.write a v) :
    e = (a, v) ∨ e ∈ m := by
  induction m with
  | nil => simpa [Ram.write] using h
  | cons f m ih =>
    simp only [Ram.write] at h
    split at h
    · simpa using h
    · split at h
      · rcases List.mem_cons.1 h with h | h
        · exact .inl h
        · exact .inr (by simp [h])
      · rcases List.mem_cons.1 h with h | h
        · exact .inr (by simp [h])
        · rcases ih h with h | h
          · exact .inl h
          · exact .inr (by simp [h])

/-- The entries after an address is forgotten. -/
theorem Ram.mem_forget (m : Ram) (a : Nat) (e : Nat × Nibble) (h : e ∈ m.forget a) : e ∈ m := by
  induction m with
  | nil => simp [Ram.forget] at h
  | cons f m ih =>
    simp only [Ram.forget] at h
    split at h
    · simp [h]
    · rcases List.mem_cons.1 h with h | h
      · simp [h]
      · simp [ih h]

/-- Writing keeps the canonical form. -/
theorem Ram.write_wf (m : Ram) (a : Nat) (v : Nibble) (h : m.wf = true) :
    (m.write a v).wf = true := by
  rw [Ram.wf_iff] at *
  induction m with
  | nil => simp [Ram.write]
  | cons e m ih =>
    obtain ⟨he, hm⟩ := List.pairwise_cons.1 h
    simp only [Ram.write]
    split
    · rename_i hlt
      refine List.pairwise_cons.2 ⟨fun y hy => ?_, h⟩
      rcases List.mem_cons.1 hy with rfl | hy
      · exact hlt
      · exact lt_trans hlt (he y hy)
    · split
      · rename_i hEq
        exact List.pairwise_cons.2 ⟨fun y hy => hEq ▸ he y hy, hm⟩
      · refine List.pairwise_cons.2 ⟨fun y hy => ?_, ih hm⟩
        rcases Ram.mem_write m a v y hy with rfl | hy
        · simp only; omega
        · exact he y hy

/-- Forgetting an address keeps the canonical form. -/
theorem Ram.forget_wf (m : Ram) (a : Nat) (h : m.wf = true) : (m.forget a).wf = true := by
  rw [Ram.wf_iff] at *
  induction m with
  | nil => simp [Ram.forget]
  | cons e m ih =>
    obtain ⟨he, hm⟩ := List.pairwise_cons.1 h
    simp only [Ram.forget]
    split
    · exact hm
    · exact List.pairwise_cons.2 ⟨fun y hy => he y (Ram.mem_forget m a y hy), ih hm⟩

/-- Writing payload bits keeps the canonical form. -/
theorem Ram.writeBits_wf (m : Ram) (a : Nat) (d : Bits) (h : m.wf = true) :
    (m.writeBits a d).wf = true := by
  induction m, a, d using Ram.writeBits.induct with
  | case1 m a b0 b1 b2 b3 rest ih => exact ih (Ram.write_wf m a _ h)
  | case2 m a => simpa [Ram.writeBits] using h
  | case3 d m a h1 h2 =>
    rw [Ram.writeBits]
    · exact Ram.forget_wf m a h
    · exact h1
    · exact h2

/-- `MemWrite` forgets everything, or writes bits whose whole nibbles end at or below the top. -/
theorem Ram.memWrite_cases (m : Ram) (top a : Nat) (d : Bits) :
    m.memWrite top a d = Ram.allUnknown ∨
      (m.memWrite top a d = m.writeBits a d ∧ a + d.length / 4 ≤ top + 1) := by
  unfold Ram.memWrite
  dsimp only
  by_cases hc : top < a ∨ top < a + d.length / 4 + (if 0 < d.length % 4 then 1 else 0) - 1
  · exact .inl (if_pos hc)
  · exact .inr ⟨if_neg hc, by omega⟩

/-- `MemWrite` keeps the canonical form. -/
theorem Ram.memWrite_wf (m : Ram) (top a : Nat) (d : Bits) (h : m.wf = true) :
    (m.memWrite top a d).wf = true := by
  rcases Ram.memWrite_cases m top a d with hc | ⟨hc, -⟩ <;> rw [hc]
  · rfl
  · exact Ram.writeBits_wf m a d h

/-! ### Reading -/

@[simp] theorem Ram.read_nil (a : Nat) : Ram.read [] a = none := rfl

@[simp] theorem Ram.read_allUnknown (a : Nat) : Ram.allUnknown.read a = none := rfl

/-- Reading the address just written gives the value written. -/
theorem Ram.read_write_self (m : Ram) (a : Nat) (v : Nibble) : (m.write a v).read a = some v := by
  induction m with
  | nil => simp [Ram.write, Ram.read]
  | cons e m ih =>
    simp only [Ram.write]
    split
    · simp [Ram.read]
    · split
      · simp [Ram.read]
      · rename_i h
        rw [Ram.read, if_neg h, ih]

/-- A write leaves every other address alone. -/
theorem Ram.read_write_ne (m : Ram) (a b : Nat) (v : Nibble) (h : b ≠ a) :
    (m.write a v).read b = m.read b := by
  induction m with
  | nil => simp [Ram.write, Ram.read, h, Ram.unlisted]
  | cons e m ih =>
    simp only [Ram.write]
    split
    · rw [Ram.read, if_neg h]
    · split
      · rename_i hEq
        rw [Ram.read, if_neg h, Ram.read, if_neg (hEq ▸ h)]
      · rw [Ram.read, Ram.read, ih]

/-- Forgetting an address leaves every other address alone. -/
theorem Ram.read_forget_ne (m : Ram) (a b : Nat) (h : b ≠ a) : (m.forget a).read b = m.read b := by
  induction m with
  | nil => rfl
  | cons e m ih =>
    simp only [Ram.forget]
    split
    · rename_i hEq
      rw [Ram.read, if_neg (hEq ▸ h)]
    · rw [Ram.read, Ram.read, ih]

/-- A forgotten address reads as unknown, in a RAM in canonical form. -/
theorem Ram.read_forget_self (m : Ram) (a : Nat) (h : m.wf = true) : (m.forget a).read a = none := by
  rw [Ram.wf_iff] at h
  induction m with
  | nil => rfl
  | cons e m ih =>
    obtain ⟨he, hm⟩ := List.pairwise_cons.1 h
    simp only [Ram.forget]
    split
    · rename_i hEq
      exact Ram.read_eq_none_of_lt m a fun y hy => hEq ▸ he y hy
    · rename_i hne
      rw [Ram.read, if_neg hne, ih hm]

/-! ### The address range -/

/-- `Ram.below` as a statement about entries. -/
theorem Ram.below_iff (m : Ram) (top : Nat) : m.below top = true ↔ ∀ e ∈ m, e.1 ≤ top := by
  simp [Ram.below]

/-- Writing a valid address keeps the range. -/
theorem Ram.write_below (m : Ram) (top a : Nat) (v : Nibble) (h : m.below top = true)
    (ha : a ≤ top) : (m.write a v).below top = true := by
  rw [Ram.below_iff] at *
  intro e he
  rcases Ram.mem_write m a v e he with rfl | he
  · exact ha
  · exact h e he

/-- Forgetting keeps the range. -/
theorem Ram.forget_below (m : Ram) (top a : Nat) (h : m.below top = true) :
    (m.forget a).below top = true := by
  rw [Ram.below_iff] at *
  exact fun e he => h e (Ram.mem_forget m a e he)

/-- Writing payload bits whose whole nibbles end at or below the top keeps the range. -/
theorem Ram.writeBits_below (m : Ram) (top a : Nat) (d : Bits) (h : m.below top = true)
    (ha : a + d.length / 4 ≤ top + 1) : (m.writeBits a d).below top = true := by
  induction m, a, d using Ram.writeBits.induct with
  | case1 m a b0 b1 b2 b3 rest ih =>
    simp only [List.length_cons] at ha
    exact ih (Ram.write_below m top a _ h (by omega)) (by omega)
  | case2 m a => simpa [Ram.writeBits] using h
  | case3 d m a h1 h2 =>
    rw [Ram.writeBits]
    · exact Ram.forget_below m top a h
    · exact h1
    · exact h2

/-- `MemWrite` keeps the range (20_memory.md R41, R51). -/
theorem Ram.memWrite_below (m : Ram) (top a : Nat) (d : Bits) (h : m.below top = true) :
    (m.memWrite top a d).below top = true := by
  rcases Ram.memWrite_cases m top a d with hc | ⟨hc, hle⟩ <;> rw [hc]
  · rfl
  · exact Ram.writeBits_below m top a d h hle

end Sys2Proof.Machine
end

