-- ==== Sys2Proof/Laws/Frames.lean ====
section
/-! SUPPORT. What a controller makes of a frame, and, said once for every instruction, all that an
instruction can do to the state. -/

namespace Sys2Proof.Machine

/-! ### A controller receives a frame -/

/-- A command frame is executed as its code (10_state.md R34). -/
theorem Ctl.received_command (c : Ctl) (v : Variant) (cmd : BitVec 8) :
    c.received v (commandBits cmd) = Ctl.command { c with sink := c.sink ++ [commandBits cmd] } cmd := by
  have h8 : ((commandBits cmd).drop 3).take 8 = bitsMSB cmd 8 := by
    simp [commandBits, prefixCmd]
  rw [Ctl.received, Ctl.frame, if_pos ⟨commandBits_length cmd, rfl⟩, h8, fieldMSB_bitsMSB]

/-- A data frame with the controller's address width is a `MemWrite` (10_state.md R34). -/
theorem Ctl.received_data {m n : Nat} (c : Ctl) (v : Variant) (a : BitVec m) (w : Nat)
    (d : BitVec n) (hw : 1 ≤ w) :
    c.received v (dataBits v.aw a w d) =
      { c with
        sink := c.sink ++ [dataBits v.aw a w d]
        ram := c.ram.memWrite v.top (a.toNat % 2 ^ v.aw) (bitsLSB d w) } := by
  have hp : (dataBits v.aw a w d).take 3 = prefixData := by simp [dataBits, prefixData]
  have hne : ¬ ((dataBits v.aw a w d).length = 12 ∧ (dataBits v.aw a w d).take 3 = prefixCmd) := by
    rw [hp]; rintro ⟨-, h⟩; exact absurd h (by decide)
  have ha : ((dataBits v.aw a w d).drop 3).take v.aw = bitsMSB a v.aw := by
    simp [dataBits, prefixData]
  have hd : (dataBits v.aw a w d).drop (3 + v.aw) = bitsLSB d w := by
    rw [← List.drop_drop]; simp [dataBits, prefixData]
  rw [Ctl.received, Ctl.frame, if_neg hne, if_pos ⟨by simp; omega, hp⟩, ha, hd, natOfMSB_bitsMSB]

/-- A command changes no RAM, no sink and no frame in progress. -/
theorem Ctl.command_frame (c : Ctl) (code : BitVec 8) :
    (c.command code).ram = c.ram ∧ (c.command code).sink = c.sink ∧
      (c.command code).openBits = c.openBits := by
  unfold Ctl.command
  split <;> exact ⟨rfl, rfl, rfl⟩

/-- Whatever frame comes, it goes to the sink. -/
theorem Ctl.received_sink (c : Ctl) (v : Variant) (f : Bits) :
    (c.received v f).sink = c.sink ++ [f] := by
  unfold Ctl.received Ctl.frame
  split
  · exact (Ctl.command_frame _ _).2.1
  · split <;> rfl

/-- Whatever frame comes, the RAM stays in form and in range (20_memory.md R41, R46). -/
theorem Ctl.received_ram (c : Ctl) (v : Variant) (f : Bits) (hw : c.ram.wf = true)
    (hb : c.ram.below v.top = true) :
    (c.received v f).ram.wf = true ∧ (c.received v f).ram.below v.top = true := by
  unfold Ctl.received Ctl.frame
  split
  · rw [(Ctl.command_frame _ _).1]; exact ⟨hw, hb⟩
  · split
    · exact ⟨Ram.memWrite_wf _ _ _ _ hw, Ram.memWrite_below _ _ _ _ hb⟩
    · exact ⟨rfl, rfl⟩

/-- `Unknown` is absorbing (10_state.md R33). -/
theorem Ctl.received_unknown (c : Ctl) (v : Variant) (f : Bits) (h : c.life = .unknown) :
    (c.received v f).life = .unknown := by
  unfold Ctl.received Ctl.frame
  split
  · unfold Ctl.command
    split <;> simp [h]
  · split
    · exact h
    · rfl

/-! ### The shape of the frames that are sent (41_frame_encoder.md R110) -/

/-- The address widths are widths the Bit Transmitter takes. -/
theorem Variant.aw_bounds (v : Variant) : 1 ≤ v.aw ∧ v.aw ≤ 16 := by cases v <;> decide

/-- A command frame has the shape of one, whatever the variant. -/
theorem isFrame_commandBits (v : Variant) (cmd : BitVec 8) : isFrame v (commandBits cmd) :=
  .inl ⟨commandBits_length cmd, rfl, rfl⟩

/-- A data frame has the shape of one on the variant whose address width it has. -/
theorem isFrame_dataBits {m n : Nat} (v : Variant) (a : BitVec m) (w : Nat) (d : BitVec n)
    (h4 : 4 ≤ w) (h16 : w ≤ 16) : isFrame v (dataBits v.aw a w d) :=
  .inr ⟨rfl, w, h4, h16, dataBits_length _ _ _ _⟩

/-! ### All that an instruction can do -/

/-- From a state with the bus at rest, `t` is reached from `s` by whole frames on line `k`, each of
the shape variant `v` calls for, runs of bits with no controller selected, loads of the datapath and
sequencer registers, and the two kinds of response. -/
inductive Effect (v : Variant) (k : Cs) (s : State) : State → Prop
  | start : Effect v k s s
  | frame {t} (bits : Bits) : isFrame v bits → Effect v k s t → Effect v k s (t.afterFrame k bits)
  | bits {t} (bits : Bits) : Effect v k s t → Effect v k s (t.afterBits bits)
  | loadBt {t} (r : BitVec 16) (i : BitVec 5) : Effect v k s t → Effect v k s (t.loadBt r i)
  | loadFe {t} (r : BitVec 16) (a : BitVec 7) : Effect v k s t → Effect v k s (t.loadFe r a)
  | setSi {t} (i : Nat) : Effect v k s t → Effect v k s (t.setSi i)
  | frameEnd {t} : Effect v k s t → Effect v k s t.frameEnd
  | ok {t} (d : BitVec 32) : Effect v k s t → Effect v k s (t.ok d)
  | raise {t} (e : Err) : Effect v k s t → Effect v k s (t.raise e)

/-- A run of bits with no controller selected leaves the bus at rest. -/
theorem State.afterBits_quiet (s : State) (bits : Bits) (h : s.quiet = true) :
    (s.afterBits bits).quiet = true := by
  rw [State.quiet_iff] at *
  obtain ⟨h0, h1, hw, ho0, ho1⟩ := h
  simp [State.afterBits, h0, h1, hw, ho0, ho1]

section

variable {v : Variant} {k : Cs} {s t : State}

/-- An effect leaves the bus at rest. -/
theorem Effect.quiet (h : Effect v k s t) (hs : s.quiet = true) : t.quiet = true := by
  induction h with
  | start => exact hs
  | frame bits _ _ ih => exact State.afterFrame_quiet _ _ _ ih
  | bits bits _ ih => exact State.afterBits_quiet _ _ ih
  | _ => assumption

/-- An effect changes no variant. -/
theorem Effect.variant (h : Effect v k s t) (j : Cs) : t.variant j = s.variant j := by
  induction h with
  | start => rfl
  | _ => rename_i ih; rw [← ih]; cases j <;> rfl

/-- A command frame is an effect. -/
theorem Effect.commandFrame (h : Effect v k s t) (hs : s.quiet = true) (cmd : BitVec 8) :
    Effect v k s (t.commandFrame k cmd) := by
  rw [State.commandFrame_eq _ _ _ (h.quiet hs)]
  exact .setSi _ (.loadBt _ _ (.frame _ (isFrame_commandBits v cmd) h))

/-- A data frame with the address width of `v` is an effect. -/
theorem Effect.dataFrame (h : Effect v k s t) (hs : s.quiet = true) (a : BitVec 7) (p : BitVec 16)
    (w : Nat) (hw : 4 ≤ w ∧ w ≤ 16) : Effect v k s (t.dataFrame k v.aw a p w) := by
  rw [State.dataFrame_eq _ _ _ _ _ _ (h.quiet hs) (Variant.aw_bounds v) (by omega)]
  exact .setSi _ (.loadBt _ _ (.loadFe _ _ (.frame _ (isFrame_dataBits v a w p hw.1 hw.2) h)))

/-- A write is an effect of the line's own variant. -/
theorem Effect.writeData (h : Effect (s.variant k) k s t) (hs : s.quiet = true) (a : BitVec 7)
    (p : BitVec 16) (w : Nat) (hw : 4 ≤ w ∧ w ≤ 16) :
    Effect (s.variant k) k s (t.writeData k a p w) := by
  rw [State.writeData, h.variant k]
  exact h.dataFrame hs a p w hw

/-- Filling is an effect of the line's own variant. -/
theorem Effect.fill (h : Effect (s.variant k) k s t) (hs : s.quiet = true) (nib : Nibble)
    (n a : Nat) : Effect (s.variant k) k s (State.fill k nib n a t) := by
  induction n generalizing a t with
  | zero => exact h
  | succ n ih => exact ih (h.writeData hs _ _ 4 (by omega)) (a + 1)

/-- A run of commands is an effect. -/
theorem Effect.commands (h : Effect v k s t) (hs : s.quiet = true) (codes : List (BitVec 8)) :
    Effect v k s (t.commands k codes) := by
  induction codes generalizing t with
  | nil => exact h
  | cons c codes ih => exact ih (h.commandFrame hs c)

/-- What the Bit Transmitter does for a host request is an effect. -/
theorem Effect.sendBits (hs : s.quiet = true) (value : BitVec 16) (n : Nat) (hn : 1 ≤ n ∧ n ≤ 16) :
    Effect v k s (s.sendBits value n) := by
  rw [State.sendBits_eq _ _ _ (s.quiet_iff.1 hs).2.2.1 hn.1 hn.2]
  exact .loadBt _ _ (.bits _ .start)

/-- A wire frame run as an instruction is an effect on the selected line. -/
theorem Effect.runCommand (hs : s.quiet = true) (code : BitVec 8) :
    Effect v s.feCs s (s.runCommand code) :=
  .frameEnd (Effect.commandFrame .start hs code)

/-- A data frame run as an instruction is an effect of the variant whose address width it has. -/
theorem Effect.runData {w : Nat} (hs : s.quiet = true) (a : BitVec v.aw) (d : BitVec w)
    (hw : 4 ≤ w ∧ w ≤ 16) : Effect v s.feCs s (s.runData a d) :=
  .frameEnd (Effect.dataFrame .start hs _ _ w hw)

/-- The frames of an effect reach the sink of its line, which holds only frames of `v`'s shape if it
did before. -/
theorem Effect.sink_isFrame (h : Effect v k s t) (hs : s.quiet = true)
    (h0 : ∀ f ∈ (s.ctl k).sink, isFrame v f) : ∀ f ∈ (t.ctl k).sink, isFrame v f := by
  induction h with
  | start => exact h0
  | @frame t bits hb _ ih =>
    have hsink : ((t.afterFrame k bits).ctl k).sink = (t.ctl k).sink ++ [bits] := by
      cases k <;> simp [State.afterFrame, State.ctl, Ctl.received_sink]
    intro f hf
    rw [hsink, List.mem_append, List.mem_singleton] at hf
    rcases hf with hf | rfl
    · exact ih f hf
    · exact hb
  | @bits t bits he ih =>
    have hq := (State.quiet_iff _).1 (he.quiet hs)
    have hc : (t.afterBits bits).ctl k = t.ctl k := by
      cases k <;> simp [State.afterBits, State.ctl, hq.1, hq.2.1]
    rw [hc]; exact ih
  | _ => assumption

end

end Sys2Proof.Machine
end

