-- ==== Sys2Proof/Laws/Exec.lean ====
section
/-! SUPPORT. What each instruction can do, said once: every one is an effect on its own line
(`Effect`), and every one answers a next state. -/

namespace Sys2Proof.Machine

/-- The variant whose frames an instruction sends on a line of variant `own`: a data frame's own, else
the line's. -/
def sentAs (i : Instr) (own : Variant) : Variant := i.frameVariant.getD own

/-- An instruction that fits the line sends frames of the line's variant. -/
theorem sentAs_of_fits (i : Instr) (v : Variant) (h : i.fits v = true) : sentAs i v = v := by
  unfold Instr.fits at h
  unfold sentAs
  cases hv : i.frameVariant with
  | none => rfl
  | some u => rw [hv] at h; simpa using h

/-- Every instruction answers a next state, and that state is an effect on the instruction's line. -/
theorem exec_effect (i : Instr) (s : State) (hs : s.quiet = true) :
    ∃ t, exec i s = .next t ∧
      Effect (sentAs i (s.variant (i.line s.feCs))) (i.line s.feCs) s t := by
  cases i with
  | sendbits v n =>
    refine ⟨_, rfl, ?_⟩
    split
    · rename_i h
      simp only [transmitWidthOk, Bool.and_eq_true, decide_eq_true_eq] at h
      exact .ok _ (Effect.sendBits hs v n.toNat h)
    · exact .raise _ .start
  | sendcmd k cmd => exact ⟨_, rfl, .ok _ (Effect.commandFrame .start hs cmd)⟩
  | wrdata k a p w =>
    refine ⟨_, rfl, ?_⟩
    split
    · exact .raise _ .start
    · split
      · rename_i h
        simp only [dataWidthOk, Bool.and_eq_true, decide_eq_true_eq] at h
        exact .ok _ (Effect.writeData .start hs a p w.toNat (by omega))
      · exact .raise _ .start
  | revbits p w =>
    refine ⟨_, rfl, ?_⟩
    split
    · exact .ok _ (.loadFe _ _ .start)
    · exact .raise _ .start
  | resolveDigit k p v =>
    refine ⟨_, rfl, ?_⟩
    split
    · exact .ok _ .start
    · exact .raise _ .start
  | resolveInd k n on =>
    refine ⟨_, rfl, ?_⟩
    split
    · exact .ok _ .start
    · exact .raise _ .start
  | glyph i =>
    refine ⟨_, rfl, ?_⟩
    split
    · exact .ok _ .start
    · exact .raise _ .start
  | unassigned7 => exact ⟨_, rfl, .raise _ .start⟩
  | init k => exact ⟨_, rfl, .ok _ (Effect.commands .start hs initCodes)⟩
  | allset k on => exact ⟨_, rfl, .ok _ (Effect.fill .start hs _ _ _)⟩
  | renderDigit k p v =>
    refine ⟨_, rfl, ?_⟩
    split
    · exact .ok _ (Effect.writeData (Effect.writeData .start hs _ _ 4 (by omega)) hs _ _ 4 (by omega))
    · exact .raise _ .start
  | renderChar k p i =>
    refine ⟨_, rfl, ?_⟩
    split
    · exact .raise _ .start
    · exact .raise _ .start
    · exact .ok _ (Effect.writeData .start hs _ _ 16 (by omega))
  | setInd k n on =>
    refine ⟨_, rfl, ?_⟩
    split
    · exact .ok _ (Effect.writeData .start hs _ _ 4 (by omega))
    · exact .raise _ .start
  | pwrOn k => exact ⟨_, rfl, .ok _ (Effect.commandFrame .start hs _)⟩
  | pwrOff k => exact ⟨_, rfl, .ok _ (Effect.commandFrame .start hs _)⟩
  | unassignedF => exact ⟨_, rfl, .raise _ .start⟩
  | sysDis => exact ⟨_, rfl, Effect.runCommand hs _⟩
  | sysEn => exact ⟨_, rfl, Effect.runCommand hs _⟩
  | lcdOff => exact ⟨_, rfl, Effect.runCommand hs _⟩
  | lcdOn => exact ⟨_, rfl, Effect.runCommand hs _⟩
  | timerDis => exact ⟨_, rfl, Effect.runCommand hs _⟩
  | wdtDis => exact ⟨_, rfl, Effect.runCommand hs _⟩
  | toneOff => exact ⟨_, rfl, Effect.runCommand hs _⟩
  | rcSel => exact ⟨_, rfl, Effect.runCommand hs _⟩
  | tone4k40 => exact ⟨_, rfl, Effect.runCommand hs _⟩
  | tone4k60 => exact ⟨_, rfl, Effect.runCommand hs _⟩
  | irqDis => exact ⟨_, rfl, Effect.runCommand hs _⟩
  | irqEn => exact ⟨_, rfl, Effect.runCommand hs _⟩
  | cmdUnnamed code => exact ⟨_, rfl, Effect.runCommand hs code⟩
  | dataAW4 a d => exact ⟨_, rfl, Effect.runData (v := .A) hs a d (by omega)⟩
  | dataAW5 a d => exact ⟨_, rfl, Effect.runData (v := .A) hs a d (by omega)⟩
  | dataAW6 a d => exact ⟨_, rfl, Effect.runData (v := .A) hs a d (by omega)⟩
  | dataAW7 a d => exact ⟨_, rfl, Effect.runData (v := .A) hs a d (by omega)⟩
  | dataAW8 a d => exact ⟨_, rfl, Effect.runData (v := .A) hs a d (by omega)⟩
  | dataAW9 a d => exact ⟨_, rfl, Effect.runData (v := .A) hs a d (by omega)⟩
  | dataAW10 a d => exact ⟨_, rfl, Effect.runData (v := .A) hs a d (by omega)⟩
  | dataAW11 a d => exact ⟨_, rfl, Effect.runData (v := .A) hs a d (by omega)⟩
  | dataAW12 a d => exact ⟨_, rfl, Effect.runData (v := .A) hs a d (by omega)⟩
  | dataAW13 a d => exact ⟨_, rfl, Effect.runData (v := .A) hs a d (by omega)⟩
  | dataAW14 a d => exact ⟨_, rfl, Effect.runData (v := .A) hs a d (by omega)⟩
  | dataAW15 a d => exact ⟨_, rfl, Effect.runData (v := .A) hs a d (by omega)⟩
  | dataAW16 a d => exact ⟨_, rfl, Effect.runData (v := .A) hs a d (by omega)⟩
  | dataBW4 a d => exact ⟨_, rfl, Effect.runData (v := .B) hs a d (by omega)⟩
  | dataBW5 a d => exact ⟨_, rfl, Effect.runData (v := .B) hs a d (by omega)⟩
  | dataBW6 a d => exact ⟨_, rfl, Effect.runData (v := .B) hs a d (by omega)⟩
  | dataBW7 a d => exact ⟨_, rfl, Effect.runData (v := .B) hs a d (by omega)⟩
  | dataBW8 a d => exact ⟨_, rfl, Effect.runData (v := .B) hs a d (by omega)⟩
  | dataBW9 a d => exact ⟨_, rfl, Effect.runData (v := .B) hs a d (by omega)⟩
  | dataBW10 a d => exact ⟨_, rfl, Effect.runData (v := .B) hs a d (by omega)⟩
  | dataBW11 a d => exact ⟨_, rfl, Effect.runData (v := .B) hs a d (by omega)⟩
  | dataBW12 a d => exact ⟨_, rfl, Effect.runData (v := .B) hs a d (by omega)⟩
  | dataBW13 a d => exact ⟨_, rfl, Effect.runData (v := .B) hs a d (by omega)⟩
  | dataBW14 a d => exact ⟨_, rfl, Effect.runData (v := .B) hs a d (by omega)⟩
  | dataBW15 a d => exact ⟨_, rfl, Effect.runData (v := .B) hs a d (by omega)⟩
  | dataBW16 a d => exact ⟨_, rfl, Effect.runData (v := .B) hs a d (by omega)⟩

end Sys2Proof.Machine
end

