-- ==== Sys2Proof/Laws/PerInstr.lean ====
section
/-! SUPPORT. The family `Layout`: what the code of each instruction looks like, one lemma an
instruction. -/

namespace Sys2Proof.Laws.Layout

/-- The layout of an instruction's code: the reserved bits of a request word are 0 (30_encoding.md R66);
a command frame has 12 bits, prefix `100` and trailer 1 (R60); a data frame has the prefix `101`
and, after an address field as wide as its variant's, 4 to 16 payload bits (R62, R63). -/
def Statement (i : Instr) : Prop :=
  match encode i, i.frameVariant with
  | .request w, v => v = none ∧ w.extractLsb' 28 3 = 0#3
  | .frame bits, none => bits.length = 12 ∧ bits.take 3 = prefixCmd ∧ bits[11]? = some true
  | .frame bits, some v =>
    ∃ w, 4 ≤ w ∧ w ≤ 16 ∧ bits.length = 3 + v.aw + w ∧ bits.take 3 = prefixData

/-- The reserved bits of a request word made of its fields. -/
theorem mkRequest_reserved (op : BitVec 4) (cs : BitVec 1) (width : BitVec 5) (addr : BitVec 7)
    (dat : BitVec 16) : (mkRequest op cs width addr dat).extractLsb' 28 3 = 0#3 := by
  unfold mkRequest
  apply BitVec.eq_of_getLsbD_eq
  intro i hi
  rw [BitVec.getLsbD_extractLsb', BitVec.getLsbD_append, BitVec.getLsbD_append,
    BitVec.getLsbD_append, BitVec.getLsbD_append]
  simp [show ¬ 28 + i < 16 by omega, show ¬ 28 + i - 16 < 7 by omega,
    show ¬ 28 + i - 16 - 7 < 5 by omega, show 28 + i - 16 - 7 - 5 < 3 by omega]

/-- The layout of a command frame. -/
theorem commandBits_layout (cmd : BitVec 8) : (commandBits cmd).length = 12 ∧
    (commandBits cmd).take 3 = prefixCmd ∧ (commandBits cmd)[11]? = some true :=
  ⟨commandBits_length cmd, rfl, rfl⟩

theorem sendbits (value : BitVec 16) (bitCount : BitVec 5) : Statement (.sendbits value bitCount) :=
  ⟨rfl, mkRequest_reserved _ _ _ _ _⟩

theorem sendcmd (cs : Cs) (cmd : BitVec 8) : Statement (.sendcmd cs cmd) :=
  ⟨rfl, mkRequest_reserved _ _ _ _ _⟩

theorem wrdata (cs : Cs) (address : BitVec 7) (payload : BitVec 16) (bitWidth : BitVec 5) :
    Statement (.wrdata cs address payload bitWidth) :=
  ⟨rfl, mkRequest_reserved _ _ _ _ _⟩

theorem revbits (payload : BitVec 16) (bitWidth : BitVec 5) :
    Statement (.revbits payload bitWidth) :=
  ⟨rfl, mkRequest_reserved _ _ _ _ _⟩

theorem resolveDigit (cs : Cs) (position : BitVec 7) (value : BitVec 16) :
    Statement (.resolveDigit cs position value) :=
  ⟨rfl, mkRequest_reserved _ _ _ _ _⟩

theorem resolveInd (cs : Cs) (name : BitVec 7) (on : Bool) : Statement (.resolveInd cs name on) :=
  ⟨rfl, mkRequest_reserved _ _ _ _ _⟩

theorem glyph (index : BitVec 16) : Statement (.glyph index) := ⟨rfl, mkRequest_reserved _ _ _ _ _⟩

theorem unassigned7 : Statement .unassigned7 := ⟨rfl, mkRequest_reserved _ _ _ _ _⟩

theorem init (cs : Cs) : Statement (.init cs) := ⟨rfl, mkRequest_reserved _ _ _ _ _⟩

theorem allset (cs : Cs) (on : Bool) : Statement (.allset cs on) :=
  ⟨rfl, mkRequest_reserved _ _ _ _ _⟩

theorem renderDigit (cs : Cs) (position : BitVec 7) (value : BitVec 16) :
    Statement (.renderDigit cs position value) :=
  ⟨rfl, mkRequest_reserved _ _ _ _ _⟩

theorem renderChar (cs : Cs) (position : BitVec 7) (index : BitVec 16) :
    Statement (.renderChar cs position index) :=
  ⟨rfl, mkRequest_reserved _ _ _ _ _⟩

theorem setInd (cs : Cs) (name : BitVec 7) (on : Bool) : Statement (.setInd cs name on) :=
  ⟨rfl, mkRequest_reserved _ _ _ _ _⟩

theorem pwrOn (cs : Cs) : Statement (.pwrOn cs) := ⟨rfl, mkRequest_reserved _ _ _ _ _⟩

theorem pwrOff (cs : Cs) : Statement (.pwrOff cs) := ⟨rfl, mkRequest_reserved _ _ _ _ _⟩

theorem unassignedF : Statement .unassignedF := ⟨rfl, mkRequest_reserved _ _ _ _ _⟩

theorem sysDis : Statement .sysDis := commandBits_layout _

theorem sysEn : Statement .sysEn := commandBits_layout _

theorem lcdOff : Statement .lcdOff := commandBits_layout _

theorem lcdOn : Statement .lcdOn := commandBits_layout _

theorem timerDis : Statement .timerDis := commandBits_layout _

theorem wdtDis : Statement .wdtDis := commandBits_layout _

theorem toneOff : Statement .toneOff := commandBits_layout _

theorem rcSel : Statement .rcSel := commandBits_layout _

theorem tone4k40 : Statement .tone4k40 := commandBits_layout _

theorem tone4k60 : Statement .tone4k60 := commandBits_layout _

theorem irqDis : Statement .irqDis := commandBits_layout _

theorem irqEn : Statement .irqEn := commandBits_layout _

theorem cmdUnnamed (code : BitVec 8) : Statement (.cmdUnnamed code) := commandBits_layout _

theorem dataAW4 (a : BitVec 6) (d : BitVec 4) : Statement (.dataAW4 a d) :=
  ⟨4, by decide, by decide, dataBits_length _ _ _ _, rfl⟩

theorem dataAW5 (a : BitVec 6) (d : BitVec 5) : Statement (.dataAW5 a d) :=
  ⟨5, by decide, by decide, dataBits_length _ _ _ _, rfl⟩

theorem dataAW6 (a : BitVec 6) (d : BitVec 6) : Statement (.dataAW6 a d) :=
  ⟨6, by decide, by decide, dataBits_length _ _ _ _, rfl⟩

theorem dataAW7 (a : BitVec 6) (d : BitVec 7) : Statement (.dataAW7 a d) :=
  ⟨7, by decide, by decide, dataBits_length _ _ _ _, rfl⟩

theorem dataAW8 (a : BitVec 6) (d : BitVec 8) : Statement (.dataAW8 a d) :=
  ⟨8, by decide, by decide, dataBits_length _ _ _ _, rfl⟩

theorem dataAW9 (a : BitVec 6) (d : BitVec 9) : Statement (.dataAW9 a d) :=
  ⟨9, by decide, by decide, dataBits_length _ _ _ _, rfl⟩

theorem dataAW10 (a : BitVec 6) (d : BitVec 10) : Statement (.dataAW10 a d) :=
  ⟨10, by decide, by decide, dataBits_length _ _ _ _, rfl⟩

theorem dataAW11 (a : BitVec 6) (d : BitVec 11) : Statement (.dataAW11 a d) :=
  ⟨11, by decide, by decide, dataBits_length _ _ _ _, rfl⟩

theorem dataAW12 (a : BitVec 6) (d : BitVec 12) : Statement (.dataAW12 a d) :=
  ⟨12, by decide, by decide, dataBits_length _ _ _ _, rfl⟩

theorem dataAW13 (a : BitVec 6) (d : BitVec 13) : Statement (.dataAW13 a d) :=
  ⟨13, by decide, by decide, dataBits_length _ _ _ _, rfl⟩

theorem dataAW14 (a : BitVec 6) (d : BitVec 14) : Statement (.dataAW14 a d) :=
  ⟨14, by decide, by decide, dataBits_length _ _ _ _, rfl⟩

theorem dataAW15 (a : BitVec 6) (d : BitVec 15) : Statement (.dataAW15 a d) :=
  ⟨15, by decide, by decide, dataBits_length _ _ _ _, rfl⟩

theorem dataAW16 (a : BitVec 6) (d : BitVec 16) : Statement (.dataAW16 a d) :=
  ⟨16, by decide, by decide, dataBits_length _ _ _ _, rfl⟩

theorem dataBW4 (a : BitVec 7) (d : BitVec 4) : Statement (.dataBW4 a d) :=
  ⟨4, by decide, by decide, dataBits_length _ _ _ _, rfl⟩

theorem dataBW5 (a : BitVec 7) (d : BitVec 5) : Statement (.dataBW5 a d) :=
  ⟨5, by decide, by decide, dataBits_length _ _ _ _, rfl⟩

theorem dataBW6 (a : BitVec 7) (d : BitVec 6) : Statement (.dataBW6 a d) :=
  ⟨6, by decide, by decide, dataBits_length _ _ _ _, rfl⟩

theorem dataBW7 (a : BitVec 7) (d : BitVec 7) : Statement (.dataBW7 a d) :=
  ⟨7, by decide, by decide, dataBits_length _ _ _ _, rfl⟩

theorem dataBW8 (a : BitVec 7) (d : BitVec 8) : Statement (.dataBW8 a d) :=
  ⟨8, by decide, by decide, dataBits_length _ _ _ _, rfl⟩

theorem dataBW9 (a : BitVec 7) (d : BitVec 9) : Statement (.dataBW9 a d) :=
  ⟨9, by decide, by decide, dataBits_length _ _ _ _, rfl⟩

theorem dataBW10 (a : BitVec 7) (d : BitVec 10) : Statement (.dataBW10 a d) :=
  ⟨10, by decide, by decide, dataBits_length _ _ _ _, rfl⟩

theorem dataBW11 (a : BitVec 7) (d : BitVec 11) : Statement (.dataBW11 a d) :=
  ⟨11, by decide, by decide, dataBits_length _ _ _ _, rfl⟩

theorem dataBW12 (a : BitVec 7) (d : BitVec 12) : Statement (.dataBW12 a d) :=
  ⟨12, by decide, by decide, dataBits_length _ _ _ _, rfl⟩

theorem dataBW13 (a : BitVec 7) (d : BitVec 13) : Statement (.dataBW13 a d) :=
  ⟨13, by decide, by decide, dataBits_length _ _ _ _, rfl⟩

theorem dataBW14 (a : BitVec 7) (d : BitVec 14) : Statement (.dataBW14 a d) :=
  ⟨14, by decide, by decide, dataBits_length _ _ _ _, rfl⟩

theorem dataBW15 (a : BitVec 7) (d : BitVec 15) : Statement (.dataBW15 a d) :=
  ⟨15, by decide, by decide, dataBits_length _ _ _ _, rfl⟩

theorem dataBW16 (a : BitVec 7) (d : BitVec 16) : Statement (.dataBW16 a d) :=
  ⟨16, by decide, by decide, dataBits_length _ _ _ _, rfl⟩

end Sys2Proof.Laws.Layout
end

