-- ==== Sys2Proof/Laws/Step.lean ====
section
/-! SUPPORT. All that a step can be, said once: `Took s t` lists the ways from `s` to `t`, each with
what it needs. -/

namespace Sys2Proof.Machine

/-- The ways a step goes from `s` to `t`. -/
inductive Took (s : State) : State → Prop
  /-- the power-up delay passes (10_state.md R28) -/
  | powerUp : s.porDone = false → Took s s.powerUp
  /-- nothing is offered, or the CORE is not ready (10_state.md R26) -/
  | wait : s.porDone = true → Took s s.tick
  /-- the host offers nothing for a while -/
  | idle (rest : List Input) : s.inbox = .idle :: rest → s.porDone = true → s.busy = false →
      Took s s.popInput.tick
  /-- `rst` (70_reset_and_hazards.md R220, R221) -/
  | rst (kind : ResetKind) (rest : List Input) : s.inbox = .rst kind :: rest →
      Took s (s.popInput.takeReset kind)
  /-- `rst` in the middle of an operation (70_reset_and_hazards.md R221) -/
  | cut (w : Request) (rest : List Input) : s.inbox = .cutRequest w :: rest → s.porDone = true →
      s.busy = false → Took s ((s.popInput.accept w).takeReset .board)
  /-- a host request (10_state.md R26) -/
  | request (w : Request) (rest : List Input) {t : State} : s.inbox = .request w :: rest →
      s.porDone = true → s.busy = false →
      exec (decodeRequest w) (s.popInput.accept w) = .next t → Took s t
  /-- a wire frame of the opcode table -/
  | frame (k : Cs) (bits : Bits) (i : Instr) (rest : List Input) {t : State} :
      s.inbox = .frame k bits :: rest → s.porDone = true → s.busy = false →
      decodeFrame (s.variant k) bits = .ok i →
      exec i (s.popInput.selectFrame k) = .next t → Took s t

/-- A step is one of the ways of `Took`. -/
theorem step_took {s t : State} (h : step s = .next t) : Took s t := by
  unfold step State.fetch at h
  cases hi : s.inbox with
  | nil =>
    rw [hi] at h
    cases hp : s.porDone
    · simp only [hp] at h; cases h; exact .powerUp hp
    · simp only [hp] at h; cases h; exact .wait hp
  | cons i rest =>
    rw [hi] at h
    cases i with
    | rst kind => cases h; exact .rst kind rest hi
    | foreignDrive => cases h
    | request w =>
      cases hp : s.porDone
      · simp [Input.unconditional, hp] at h; cases h; exact .powerUp hp
      · cases hb : s.busy
        · simp only [Input.unconditional, hp, hb] at h; exact .request w rest hi hp hb h
        · simp [Input.unconditional, hp, hb] at h; cases h; exact .wait hp
    | cutRequest w =>
      cases hp : s.porDone
      · simp [Input.unconditional, hp] at h; cases h; exact .powerUp hp
      · cases hb : s.busy
        · simp [Input.unconditional, hp, hb, State.takeInput] at h; cases h
          exact .cut w rest hi hp hb
        · simp [Input.unconditional, hp, hb] at h; cases h; exact .wait hp
    | idle =>
      cases hp : s.porDone
      · simp [Input.unconditional, hp] at h; cases h; exact .powerUp hp
      · cases hb : s.busy
        · simp [Input.unconditional, hp, hb, State.takeInput] at h; cases h
          exact .idle rest hi hp hb
        · simp [Input.unconditional, hp, hb] at h; cases h; exact .wait hp
    | frame k bits =>
      cases hp : s.porDone
      · simp [Input.unconditional, hp] at h; cases h; exact .powerUp hp
      · cases hb : s.busy
        · simp only [Input.unconditional, hp, hb, State.takeInput, State.takeFrame,
            State.popInput_variant, Bool.false_eq_true, if_false, Bool.not_true] at h
          cases hd : decodeFrame (s.variant k) bits with
          | ok j => rw [hd] at h; exact .frame k bits j rest hi hp hb hd h
          | error e => rw [hd] at h; cases h
        · simp [Input.unconditional, hp, hb] at h; cases h; exact .wait hp

end Sys2Proof.Machine
end

