-- ==== Sys2Proof/Laws/Writes.lean ====
section
/-! SUPPORT. What the RAM reads as after payload bits are written to it. -/

namespace Sys2Proof.Machine

/-- Reading after payload bits are written: the whole nibbles, then the partial one, then the rest
(20_memory.md R46, R47). -/
theorem Ram.read_writeBits (m : Ram) (a : Nat) (d : Bits) (h : m.wf = true) (x : Nat) :
    (m.writeBits a d).read x =
      if a ≤ x ∧ x < a + d.length / 4 then some (fieldLSB 4 ((d.drop (4 * (x - a))).take 4))
      else if x = a + d.length / 4 ∧ d.length % 4 ≠ 0 then none
      else m.read x := by
  induction m, a, d using Ram.writeBits.induct with
  | case1 m a b0 b1 b2 b3 rest ih =>
    rw [Ram.writeBits, ih (Ram.write_wf _ _ _ h)]
    have hl : (b0 :: b1 :: b2 :: b3 :: rest).length / 4 = rest.length / 4 + 1 := by
      simp only [List.length_cons]; omega
    have hm : (b0 :: b1 :: b2 :: b3 :: rest).length % 4 = rest.length % 4 := by
      simp only [List.length_cons]; omega
    rw [hl, hm]
    by_cases hx : x = a
    · subst hx
      rw [Ram.read_write_self, if_neg (by omega), if_neg (by omega), if_pos (by omega)]
      simp
    · rw [Ram.read_write_ne _ _ _ _ hx]
      by_cases h1 : a + 1 ≤ x ∧ x < a + 1 + rest.length / 4
      · rw [if_pos h1, if_pos (by omega), show 4 * (x - a) = 4 * (x - (a + 1)) + 4 by omega]
        simp
      · rw [if_neg h1, show a + 1 + rest.length / 4 = a + (rest.length / 4 + 1) by omega]
        exact (if_neg (by omega)).symm
  | case2 m a => simp [Ram.writeBits]
  | case3 d m a h1 h2 =>
    rw [Ram.writeBits]
    · have hl : d.length / 4 = 0 ∧ d.length % 4 ≠ 0 := by
        match d, h1, h2 with
        | [_], _, _ => simp
        | [_, _], _, _ => simp
        | [_, _, _], _, _ => simp
        | [], _, h2 => exact absurd rfl h2
        | b0 :: b1 :: b2 :: b3 :: e, h1, _ => exact absurd rfl (h1 b0 b1 b2 b3 e)
      rw [hl.1]
      by_cases hx : x = a
      · subst hx; simp [Ram.read_forget_self _ _ h, hl.2]
      · rw [Ram.read_forget_ne _ _ _ hx]; simp [hx]
    · exact h1
    · exact h2

/-- Nibble `j` of a payload on the wire is bits `4j` to `4j+3` of its value (20_memory.md R44). -/
theorem nibble_bitsLSB {n : Nat} (d : BitVec n) (w j : Nat) (h : 4 * j + 4 ≤ w) :
    fieldLSB 4 (((bitsLSB d w).drop (4 * j)).take 4) = d.extractLsb' (4 * j) 4 := by
  have hb : ((bitsLSB d w).drop (4 * j)).take 4 = bitsLSB (d.extractLsb' (4 * j) 4) 4 := by
    apply List.ext_getElem?
    intro i
    rw [List.getElem?_take, List.getElem?_drop, bitsLSB_getElem?, bitsLSB_getElem?]
    by_cases hi : i < 4
    · simp [hi, show 4 * j + i < w by omega]
    · simp [hi]
  rw [hb, fieldLSB_bitsLSB]

/-- `MemWrite` of `w` payload bits (20_memory.md R46). -/
theorem Ram.memWrite_holds {n b : Nat} (m : Ram) (top a w : Nat) (d : BitVec n) (e : BitVec b)
    (hde : ∀ i, i < w → d.getLsbD i = e.getLsbD i) (h : m.wf = true) (hw : 1 ≤ w) :
    Ram.holds m (m.memWrite top a (bitsLSB d w)) top a w e := by
  intro x
  rw [bitsLSB_congr d e w hde]
  unfold Ram.memWrite
  simp only [bitsLSB_length]
  by_cases hc : top + 1 < a + (w + 3) / 4
  · rw [if_pos hc, if_pos (by split <;> omega)]; simp
  · rw [if_neg hc, if_neg (by split <;> omega), Ram.read_writeBits _ _ _ h]
    simp only [bitsLSB_length]
    by_cases h2 : a ≤ x ∧ x < a + w / 4
    · rw [if_pos h2, if_pos h2, nibble_bitsLSB _ _ _ (by omega)]
    · rw [if_neg h2, if_neg h2]

end Sys2Proof.Machine
end

