-- ==== Sys2Proof/Tests/Slice0.lean ====
section
/-! SUPPORT. Tests against the vectors of 95_test_vectors.md, the words of the encodings of
30_encoding.md, and a witness for the hypotheses of every statement. -/

namespace Sys2Proof.Tests

open Sys2Proof.Machine

/-! ### The test configuration (95_test_vectors.md section 0) -/

/-- `TCFG`; the font entries it leaves open are 0 here, and a clock period is a unit. -/
def tcfg : Config where
  unitOver := 0
  periodOver := 0
  suOver := 0
  wrOver := 0
  hdOver := 0
  porOver := 0
  strap0 := .A
  strap1 := .B
  indAddr := #v[0x4C, 0x4D, 0x4E, 0x4F, 0x51]
  digAddr := [(0x10, 0x11), (0x12, 0x13)]
  digNib := #v[(0xF, 0x5), (0x6, 0x0), (0xB, 0x6), (0xF, 0x2), (0x6, 0x3), (0xD, 0x3), (0xD, 0x7),
    (0xE, 0x0), (0xF, 0x7), (0xF, 0x3)]
  fontDigits := .replicate 10 0
  fontSymbols := [0, 0, 0, 0]
  fontLetters := .replicate 25 0
  toneAIs60 := false

/-- Past the power-up delay, nothing done yet (its `Wait` left out of the trace). -/
def ready : State := { State.powerOn tcfg with dly := 0, porDone := true }

/-- `ready` with these inputs to come. -/
def offered (inputs : List Input) : State := { ready with inbox := inputs }

/-- The state a step ends in; the test fails on any other outcome, which no test expects. -/
def after : Host.Outcome State Fault Refusal → Option State
  | .next t => some t
  | _ => none

/-- The state after one request from `s`. -/
def run (s : State) (w : Request) : Option State := after (step { s with inbox := [.request w] })

/-- The state after one wire frame on line `k` from `s`. -/
def send (s : State) (k : Cs) (bits : Bits) : Option State :=
  after (step { s with inbox := [.frame k bits] })

/-- The `len` bits of a frame written as a number, first bit sent on the left. -/
def wire (len n : Nat) : Bits := (List.range len).map fun i => n.testBit (len - 1 - i)

/-- Controller `k` with lifecycle `l` and clock source `c`. -/
def living (l : Life) (c : Bool) : State :=
  { ready with
    ctl0 := { Ctl.powerUp with life := l, clkCfg := c }
    ctl1 := { Ctl.powerUp with life := l, clkCfg := c } }

/-- The lifecycle and the clock source of controller 0. -/
def ghost (t : State) : Life × Bool := (t.ctl0.life, t.ctl0.clkCfg)

/-- Controller 0 selected in the middle of a frame, as inside an operation. -/
def selected : State :=
  { ready with cs0 := false, ctl0 := { Ctl.powerUp with openBits := some [] } }

/-- A controller 0 of which nothing is known. -/
def lostOne : State := { ready with ctl0 := Ctl.afterBadReset }

/-! ### Well-formedness -/

/-- A code with a row of its own is refused in the row of the unnamed ones. -/
theorem test_wf_named_code_is_not_unnamed :
    (Instr.cmdUnnamed 0x00).wf = false ∧
    (Instr.cmdUnnamed 0x01).wf = false ∧
    (Instr.cmdUnnamed 0x02).wf = false ∧
    (Instr.cmdUnnamed 0x03).wf = false ∧
    (Instr.cmdUnnamed 0x04).wf = false ∧
    (Instr.cmdUnnamed 0x05).wf = false ∧
    (Instr.cmdUnnamed 0x08).wf = false ∧
    (Instr.cmdUnnamed 0x18).wf = false ∧
    (Instr.cmdUnnamed 0x40).wf = false ∧
    (Instr.cmdUnnamed 0x60).wf = false ∧
    (Instr.cmdUnnamed 0x80).wf = false ∧
    (Instr.cmdUnnamed 0x88).wf = false := by decide

/-- 0x06 and 0xFF have no row of their own (95_test_vectors.md 2.3). -/
theorem test_wf_unnamed_code :
    (Instr.cmdUnnamed 0x06).wf = true ∧ (Instr.cmdUnnamed 0xFF).wf = true := by decide

/-! ### Decoding -/

/-- Words of 95_test_vectors.md section 2, one a row, junk in ignored fields in the second. -/
theorem test_decode_requests :
    decodeRequest 0x00200ABCD = .sendbits 0xABCD 4 ∧
    decodeRequest 0x17FFFAB01 = .sendcmd .c0 0x01 ∧
    decodeRequest 0x2081CDA00 = .wrdata .c0 0x1C 0xDA00 16 ∧
    decodeRequest 0x302800016 = .revbits 0x0016 5 ∧
    decodeRequest 0x480010009 = .resolveDigit .c1 1 9 ∧
    decodeRequest 0x580040001 = .resolveInd .c1 4 true ∧
    decodeRequest 0x60000000E = .glyph 14 ∧
    decodeRequest 0x7FFFFFFFF = .unassigned7 ∧
    decodeRequest 0x880000000 = .init .c1 ∧
    decodeRequest 0x90000FFFE = .allset .c0 false ∧
    decodeRequest 0xA80000007 = .renderDigit .c1 0 7 ∧
    decodeRequest 0xB0006000E = .renderChar .c0 6 14 ∧
    decodeRequest 0xC80000001 = .setInd .c1 0 true ∧
    decodeRequest 0xD80000000 = .pwrOn .c1 ∧
    decodeRequest 0xE00000000 = .pwrOff .c0 ∧
    decodeRequest 0xF00000000 = .unassignedF := by decide

/-- `op` = 0010, `cs` = 1, reserved 000, `width` = 00100, `addr` = 1001100, `dat` = 4
(30_encoding.md R66). -/
theorem test_decode_request_bit_by_bit :
    decodeRequest 0b0010_1_000_00100_1001100_0000000000000100 = .wrdata .c1 0x4C 0x0004 4 :=
  by decide

/-- The command frames, written out bit by bit (95_test_vectors.md 2.3, opcode table). -/
theorem test_decode_commands :
    decodeFrame .A (wire 12 0b100000000001) = .ok .sysDis ∧
    decodeFrame .B (wire 12 0b100000000011) = .ok .sysEn ∧
    decodeFrame .A (wire 12 0b100000000101) = .ok .lcdOff ∧
    decodeFrame .B (wire 12 0b100000000111) = .ok .lcdOn ∧
    decodeFrame .A (wire 12 0b100000001001) = .ok .timerDis ∧
    decodeFrame .B (wire 12 0b100000001011) = .ok .wdtDis ∧
    decodeFrame .A (wire 12 0b100000010001) = .ok .toneOff ∧
    decodeFrame .B (wire 12 0b100000110001) = .ok .rcSel ∧
    decodeFrame .A (wire 12 0b100010000001) = .ok .tone4k40 ∧
    decodeFrame .B (wire 12 0b100011000001) = .ok .tone4k60 ∧
    decodeFrame .A (wire 12 0b100100000001) = .ok .irqDis ∧
    decodeFrame .B (wire 12 0b100100010001) = .ok .irqEn ∧
    decodeFrame .A (wire 12 0b100111111111) = .ok (.cmdUnnamed 0xFF) := by decide

/-- Data frames of variant A written out: `101`, the address 010011, then the low bits of 0xD2C5, bit 0
first (30_encoding.md R62). -/
theorem test_decode_data_A :
    decodeFrame .A (wire 13 0b101_010011_1010) = .ok (.dataAW4 0x13 0x5) ∧
    decodeFrame .A (wire 14 0b101_010011_10100) = .ok (.dataAW5 0x13 0x5) ∧
    decodeFrame .A (wire 15 0b101_010011_101000) = .ok (.dataAW6 0x13 0x5) ∧
    decodeFrame .A (wire 16 0b101_010011_1010001) = .ok (.dataAW7 0x13 0x45) ∧
    decodeFrame .A (wire 17 0b101_010011_10100011) = .ok (.dataAW8 0x13 0xC5) ∧
    decodeFrame .A (wire 18 0b101_010011_101000110) = .ok (.dataAW9 0x13 0xC5) ∧
    decodeFrame .A (wire 19 0b101_010011_1010001101) = .ok (.dataAW10 0x13 0x2C5) ∧
    decodeFrame .A (wire 20 0b101_010011_10100011010) = .ok (.dataAW11 0x13 0x2C5) ∧
    decodeFrame .A (wire 21 0b101_010011_101000110100) = .ok (.dataAW12 0x13 0x2C5) ∧
    decodeFrame .A (wire 22 0b101_010011_1010001101001) = .ok (.dataAW13 0x13 0x12C5) ∧
    decodeFrame .A (wire 23 0b101_010011_10100011010010) = .ok (.dataAW14 0x13 0x12C5) ∧
    decodeFrame .A (wire 24 0b101_010011_101000110100101) = .ok (.dataAW15 0x13 0x52C5) ∧
    decodeFrame .A (wire 25 0b101_010011_1010001101001011) = .ok (.dataAW16 0x13 0xD2C5) :=
  by decide

/-- Data frames of variant B written out: `101`, the address 1010011, then the low bits of 0xD2C5, bit 0
first (30_encoding.md R62). -/
theorem test_decode_data_B :
    decodeFrame .B (wire 14 0b101_1010011_1010) = .ok (.dataBW4 0x53 0x5) ∧
    decodeFrame .B (wire 15 0b101_1010011_10100) = .ok (.dataBW5 0x53 0x5) ∧
    decodeFrame .B (wire 16 0b101_1010011_101000) = .ok (.dataBW6 0x53 0x5) ∧
    decodeFrame .B (wire 17 0b101_1010011_1010001) = .ok (.dataBW7 0x53 0x45) ∧
    decodeFrame .B (wire 18 0b101_1010011_10100011) = .ok (.dataBW8 0x53 0xC5) ∧
    decodeFrame .B (wire 19 0b101_1010011_101000110) = .ok (.dataBW9 0x53 0xC5) ∧
    decodeFrame .B (wire 20 0b101_1010011_1010001101) = .ok (.dataBW10 0x53 0x2C5) ∧
    decodeFrame .B (wire 21 0b101_1010011_10100011010) = .ok (.dataBW11 0x53 0x2C5) ∧
    decodeFrame .B (wire 22 0b101_1010011_101000110100) = .ok (.dataBW12 0x53 0x2C5) ∧
    decodeFrame .B (wire 23 0b101_1010011_1010001101001) = .ok (.dataBW13 0x53 0x12C5) ∧
    decodeFrame .B (wire 24 0b101_1010011_10100011010010) = .ok (.dataBW14 0x53 0x12C5) ∧
    decodeFrame .B (wire 25 0b101_1010011_101000110100101) = .ok (.dataBW15 0x53 0x52C5) ∧
    decodeFrame .B (wire 26 0b101_1010011_1010001101001011) = .ok (.dataBW16 0x53 0xD2C5) :=
  by decide

/-- Bits that are no row of the table are refused by name. -/
theorem test_decode_by_name :
    decodeFrame .A (wire 12 0b110000000011) = .error .modePrefix ∧
    decodeFrame .B [] = .error .modePrefix ∧
    decodeFrame .A (wire 11 0b10000000001) = .error .commandLength ∧
    decodeFrame .B (wire 12 0b100000000010) = .error .trailer ∧
    decodeFrame .A (wire 12 0b101_010000_110) = .error .dataLength ∧
    decodeFrame .B (wire 13 0b101_0010000_110) = .error .dataLength ∧
    decodeFrame .A (wire 26 0b101_010000_00000000000000000) = .error .dataLength := by decide

/-- The table's own numbering: match words of its rows, and a 26-bit frame of variant B. -/
theorem test_table_words :
    decodeTableWord 40 0x700000000 = some .unassigned7 ∧
    decodeTableWord 16 0x831 = some .rcSel ∧
    decodeTableWord 16 0b101_010000_1100 = some (.dataAW4 0x10 0x3) ∧
    decodeTableWord 32 0b101_0011100_0000000001011011 = some (.dataBW16 0x1C 0xDA00) ∧
    decodeTableWord 16 0x7FF = none := by decide

/-! ### Host requests -/

/-- Section 2.1: `SENDBITS 0x0005, 3` sends 101; a selected controller gathers them
(40_bit_transmitter.md R89). -/
theorem test_sendbits_wire :
    (run selected 0x001800005).map (fun t => (t.ctl0.openBits, t.data, t.rspErr)) =
      some (some [true, false, true], true, 0) := by decide

/-- Section 2.3: `SENDCMD 1, 0x01`. -/
theorem test_sendcmd_line_1 :
    (run ready 0x180000001).map (fun t => (t.ctl1.sink, t.ctl1.life, t.ctl0)) =
      some ([wire 12 0x803], .systemEnabled, Ctl.powerUp) := by decide

/-- Section 2.1: the event list of one bit, 6 units. -/
theorem test_sendbits_events :
    (run ready 0x00080FFFF).map (fun t => (t.tr, duration t.tr)) =
      some ([.wait 1, .set .data true, .wait 2, .set .wr false, .wait 2, .set .wr true, .wait 1], 6) :=
  by decide

/-- Section 1 E5. -/
theorem test_wrdata_worked_example :
    (run ready 0x2081CDA00).map (fun t => (t.ctl0.sink, t.ctl0.ram)) =
      some ([wire 25 0b101_011100_0000000001011011], [(0x1C, 0x0), (0x1D, 0x0), (0x1E, 0xA), (0x1F, 0xD)]) :=
  by decide

/-- Section 2.4: a partial nibble, `0x20 = F`, `0x21` unknown. -/
theorem test_wrdata_partial_nibble :
    (run ready 0x202A0001F).map (fun t => (t.ctl0.ram, t.ctl0.ram.read 0x21)) =
      some ([(0x20, 0xF)], none) := by decide

/-- Section 2.2. -/
theorem test_revbits_5 :
    (run ready 0x302800016).map (fun t => (t.rspData, t.rspErr)) = some (0x0D, 0) := by decide

/-- Section 2.2. -/
theorem test_revbits_17 :
    (run ready 0x308800001).map (fun t => (t.rspData, t.rspErr)) = some (0, 3) := by decide

/-- Section 2.5: `(0x12, 0x13, 0xF, 0x3)`. -/
theorem test_resolve_digit_B :
    (run ready 0x480010009).map State.rspData = some 0x090FC992 := by decide

/-- Section 2.5. -/
theorem test_resolve_digit_A_15 : (run ready 0x4000F0000).map State.rspErr = some 1 := by decide

/-- Section 2.6. -/
theorem test_resolve_ind_colon :
    (run ready 0x580040001).map State.rspData = some 0x01010051 := by decide

/-- Section 2.6. -/
theorem test_resolve_ind_variant_A : (run ready 0x500000001).map State.rspErr = some 1 := by decide

/-- Section 2.7. -/
theorem test_glyph_A : (run ready 0x60000000E).map State.rspData = some 0x5A4C := by decide

/-- Section 2.7. -/
theorem test_glyph_past_the_end : (run ready 0x600000028).map State.rspErr = some 2 := by decide

/-- Section 2.13. -/
theorem test_unassigned_7 :
    (run ready 0x7FFFFFFFF).map (fun t => (t.rspErr, t.tr)) = some (4, []) := by decide

/-- Section 2.13. -/
theorem test_unassigned_F :
    (run ready 0xF00000000).map (fun t => (t.rspErr, t.busy)) = some (4, false) := by decide

/-- Section 2.8. -/
theorem test_init_ghost : (run ready 0x800000000).map ghost = some (.displayOff, true) := by decide

/-- Section 2.8. -/
theorem test_init_frames :
    (run ready 0x880000000).map (fun t => t.ctl1.sink) =
      some [wire 12 0x831, wire 12 0x80B, wire 12 0x809, wire 12 0x803, wire 12 0x805] := by decide

/-- Section 2.9, the last two of the frames of `ALLSET 1, 1`. -/
theorem test_allset_last_two_addresses :
    (State.fill .c1 (allNibble true) 2 0x50 ready).ctl1.sink =
      [wire 14 0b101_1010000_1111, wire 14 0b101_1010001_1111] := by decide

/-- Section 2.10. -/
theorem test_render_digit_7 :
    (run ready 0xA80000007).map (fun t => (t.ctl1.sink, t.ctl1.ram)) =
      some ([wire 14 0b101_0010000_0111, wire 14 0b101_0010001_0000], [(0x10, 0xE), (0x11, 0x0)]) :=
  by decide

/-- Section 2.10. -/
theorem test_render_digit_10 : (run ready 0xA8000000A).map State.rspErr = some 1 := by decide

/-- Section 2.11. -/
theorem test_render_char_A :
    (run ready 0xB000E000E).map (fun t => t.ctl0.ram) =
      some [(0x3C, 0xC), (0x3D, 0x4), (0x3E, 0xA), (0x3F, 0x5)] := by decide

/-- Section 2.11: both wrong, the address wins. -/
theorem test_render_char_priority : (run ready 0xB000F0028).map State.rspErr = some 1 := by decide

/-- Section 2.12, the hazard vector. -/
theorem test_set_ind_whole_nibble :
    (run { ready with ctl1 := { Ctl.powerUp with ram := [(0x4C, 0xB)] } } 0xC80000001).map
      (fun t => t.ctl1.ram) = some [(0x4C, 0x4)] := by decide

/-- Section 2.12. -/
theorem test_set_ind_no_such : (run ready 0xC80050001).map State.rspErr = some 1 := by decide

/-- Section 2.8. -/
theorem test_pwr_on_from_display_off :
    (run (living .displayOff true) 0xD00000000).map (fun t => (t.ctl0.sink, t.ctl0.life)) =
      some ([wire 12 0x807], .displayOn) := by decide

/-- Section 2.8. -/
theorem test_pwr_on_before_init :
    (run ready 0xD00000000).map (fun t => t.ctl0.life) = some .unknown := by decide

/-- Section 2.8. -/
theorem test_pwr_off :
    (run (living .displayOn true) 0xE00000000).map (fun t => (t.ctl0.sink, t.ctl0.life)) =
      some ([wire 12 0x805], .displayOff) := by decide

/-- Section 2.8. -/
theorem test_pwr_off_at_reset :
    (run ready 0xE00000000).map (fun t => t.ctl0.life) = some .uninitialized := by decide

/-! ### Wire frames -/

/-- 10_state.md R35. -/
theorem test_sys_dis :
    (send (living .displayOn true) .c0 (wire 12 0x801)).map ghost =
      some (.unknown, true) := by decide

/-- 10_state.md R35. -/
theorem test_sys_en :
    (send ready .c0 (wire 12 0x803)).map ghost = some (.systemEnabled, false) := by decide

/-- 10_state.md R35. -/
theorem test_lcd_off :
    (send (living .systemEnabled false) .c0 (wire 12 0x805)).map ghost =
      some (.displayOff, false) := by decide

/-- 10_state.md R35. -/
theorem test_lcd_on :
    (send (living .displayOff true) .c0 (wire 12 0x807)).map ghost =
      some (.displayOn, true) := by decide

/-- 10_state.md R35. -/
theorem test_timer_dis :
    (send (living .displayOff true) .c0 (wire 12 0x809)).map ghost =
      some (.displayOff, true) := by decide

/-- 10_state.md R35. -/
theorem test_wdt_dis :
    (send (living .displayOff true) .c0 (wire 12 0x80B)).map ghost =
      some (.displayOff, true) := by decide

/-- 10_state.md R35. -/
theorem test_tone_off :
    (send (living .displayOff true) .c0 (wire 12 0x811)).map ghost =
      some (.displayOff, true) := by decide

/-- 10_state.md R35. -/
theorem test_rc_sel :
    (send ready .c0 (wire 12 0x831)).map ghost = some (.uninitialized, true) := by decide

/-- 10_state.md R35. -/
theorem test_tone4k_40 :
    (send (living .displayOn true) .c0 (wire 12 0x881)).map ghost =
      some (.displayOn, true) := by decide

/-- 10_state.md R35. -/
theorem test_tone4k_60 :
    (send (living .displayOn true) .c0 (wire 12 0x8C1)).map ghost =
      some (.displayOn, true) := by decide

/-- 10_state.md R35. -/
theorem test_irq_dis :
    (send (living .displayOn true) .c0 (wire 12 0x901)).map ghost =
      some (.displayOn, true) := by decide

/-- 10_state.md R35. -/
theorem test_irq_en :
    (send (living .displayOn true) .c0 (wire 12 0x911)).map ghost =
      some (.displayOn, true) := by decide

/-- 10_state.md R35. -/
theorem test_cmd_unnamed :
    (send (living .displayOn true) .c0 (wire 12 0x80D)).map ghost =
      some (.unknown, true) := by decide

/-- Section 2.4: the top address. -/
theorem test_data_A_W4 :
    (send ready .c0 (wire 13 0b101_111111_1001)).map (fun t => t.ctl0.ram) =
      some [(0x3F, 0x9)] := by decide

/-- Section 2.4: a partial nibble past the top, nothing is known any more. -/
theorem test_data_A_W5 :
    (send { ready with ctl0 := { Ctl.powerUp with ram := [(0, 1)] } } .c0 (wire 14 0b101_111111_11111)).map (fun t => t.ctl0.ram) =
      some [] := by decide

/-- Section 2.4. -/
theorem test_data_A_W16 :
    (send ready .c0 (wire 25 0b101_011100_0011001001011010)).map (fun t => t.ctl0.ram) =
      some [(0x1C, 0xC), (0x1D, 0x4), (0x1E, 0xA), (0x1F, 0x5)] := by decide

/-- Section 2.4. -/
theorem test_data_B_W4 :
    (send ready .c1 (wire 14 0b101_1001100_0010)).map (fun t => t.ctl1.ram) =
      some [(0x4C, 0x4)] := by decide

/-- Section 2.4. -/
theorem test_data_B_W16 :
    (send ready .c1 (wire 26 0b101_0011100_0000000001011011)).map (fun t => (t.ctl1.ram, t.ctl0)) =
      some ([(0x1C, 0x0), (0x1D, 0x0), (0x1E, 0xA), (0x1F, 0xD)], Ctl.powerUp) := by decide

/-- 41_frame_encoder.md R110, 30_encoding.md R65: the CORE sends no other prefix. -/
theorem test_other_prefix_is_not_sent :
    step (offered [.frame .c0 (wire 12 0b110000000011)]) = .refused (.noSuchFrame .modePrefix) :=
  rfl

/-- 10_state.md R34, 93_implementation_defined.md U3. -/
theorem test_ghost_ignores_the_trailer :
    (Ctl.powerUp.received .A (wire 12 0b100000000010)).life = .systemEnabled := by decide

/-! ### Reset and handshake -/

/-- Section 2.15: nothing is accepted before the power-up delay. -/
theorem test_power_up :
    (run (State.powerOn tcfg) 0x700000000).map (fun t => (t.tr, t.rspValid, t.inbox)) =
      some ([.wait 1000], false, [.request 0x700000000]) := by decide

/-- Section 2.15: a reset in the middle of an operation. -/
theorem test_reset_in_a_frame :
    (after (step (offered [.cutRequest 0x800000000]))).map
      (fun t => (t.cs0, t.wr, t.data, t.porDone, t.ctl0.life, t.ctl1.life)) =
      some (true, true, false, false, .unknown, .unknown) := by decide

/-! ### Witnesses -/

theorem witness_DecodeOfEncodeIsTheInstruction :
    ((Instr.cmdUnnamed 0xFF).wf = true ∧ (Instr.cmdUnnamed 0xFF).fits .A = true) ∧
    ((Instr.dataBW16 0x51 0xFFFF).wf = true ∧ (Instr.dataBW16 0x51 0xFFFF).fits .B = true) ∧
    ((Instr.wrdata .c1 0x7F 0xFFFF 31).wf = true ∧ (Instr.wrdata .c1 0x7F 0xFFFF 31).fits .A = true) :=
  by decide

theorem witness_FrameHasOneMeaning :
    decodeFrame .A (wire 13 0b101_111111_1001) = .ok (.dataAW4 0x3F 0x9) := by decide

theorem witness_StepRunsTheOfferedRequest :
    (offered [.request 0x600000000]).porDone = true ∧
    (offered [.request 0x600000000]).busy = false ∧
    (offered [.request 0x600000000]).inbox = .request 0x600000000 :: [] := by decide

theorem witness_StepRunsTheFrameOnItsLine :
    (offered [.frame .c1 (wire 12 0x803)]).porDone = true ∧
    (offered [.frame .c1 (wire 12 0x803)]).busy = false ∧
    (offered [.frame .c1 (wire 12 0x803)]).inbox = .frame .c1 (wire 12 0x803) :: [] ∧
    decodeFrame (ready.variant .c1) (wire 12 0x803) = .ok .sysEn := by decide

theorem witness_BitsThatAreNoFrameAreNotSent :
    (offered [.frame .c0 [false]]).porDone = true ∧
    (offered [.frame .c0 [false]]).busy = false ∧
    (offered [.frame .c0 [false]]).inbox = .frame .c0 [false] :: [] ∧
    decodeFrame (ready.variant .c0) [false] = .error .modePrefix ∧
    decodeFrame (ready.variant .c0) (wire 12 0b100000000010) = .error .trailer ∧
    decodeFrame (ready.variant .c0) (wire 12 0b101_010000_110) = .error .dataLength := by decide

theorem witness_NothingIsAcceptedBeforeThePowerUpDelay :
    (State.powerOn tcfg).porDone = false ∧
    (∀ kind rest, (State.powerOn tcfg).inbox ≠ .rst kind :: rest) ∧
    ∀ rest, (State.powerOn tcfg).inbox ≠ .foreignDrive :: rest := ⟨rfl, nofun, nofun⟩

theorem witness_ResponsePulseLastsOneStep :
    (ready.porDone = true ∧ ready.inbox = []) ∧
    ((offered [.idle]).porDone = true ∧ (offered [.idle]).busy = false) ∧
    (offered [.idle]).inbox = .idle :: [] := by decide

theorem witness_ForeignMasterStopsTheMachine :
    (offered [.foreignDrive]).inbox = .foreignDrive :: [] := by decide

theorem witness_ResetInputLoadsTheResetValues :
    (offered [.rst .board]).inbox = .rst .board :: [] ∧
    (offered [.rst .coreOnly]).inbox = .rst .coreOnly :: [] ∧
    (offered [.cutRequest 0x800000000]).porDone = true ∧
    (offered [.cutRequest 0x800000000]).busy = false ∧
    (offered [.cutRequest 0x800000000]).inbox = .cutRequest 0x800000000 :: [] := by decide

theorem witness_SendbitsSendsItsBitsMsbFirst :
    (ready.wr = true ∧ selected.wr = true ∧ selected.csPin .c0 = false) ∧
    (1 ≤ (1 : BitVec 5).toNat ∧ (16 : BitVec 5).toNat ≤ 16) ∧
    ((0 : BitVec 5).toNat = 0 ∧ 16 < (17 : BitVec 5).toNat) := by decide

theorem witness_RevbitsAnswersTheMirrorImage :
    (1 ≤ (1 : BitVec 5).toNat ∧ (16 : BitVec 5).toNat ≤ 16) ∧
    ((0 : BitVec 5).toNat = 0 ∧ 16 < (17 : BitVec 5).toNat) := by decide

theorem witness_ReversalIsAnInvolution :
    1 ≤ 16 ∧ 16 ≤ 16 ∧ rev (rev 0xABC 12) 12 = 0xABC := by decide

theorem witness_SendcmdSendsOneCommandFrame : ready.quiet = true := by decide

theorem witness_WrdataSendsOneDataFrame :
    (ready.quiet = true ∧ (ready.ctl .c0).ram.wf = true ∧ (ready.ctl .c1).ram.wf = true) ∧
    (0x3F : BitVec 7).toNat ≤ (ready.variant .c0).top ∧
    (0x51 : BitVec 7).toNat ≤ (ready.variant .c1).top ∧
    (4 ≤ (4 : BitVec 5).toNat ∧ (16 : BitVec 5).toNat ≤ 16) := by decide

theorem witness_WrdataRejectsBeforeAnyEvent :
    (ready.variant .c0).top < (0x40 : BitVec 7).toNat ∧
    (ready.variant .c1).top < (0x52 : BitVec 7).toNat ∧
    (0x3F : BitVec 7).toNat ≤ (ready.variant .c0).top ∧
    ((3 : BitVec 5).toNat < 4 ∧ 16 < (17 : BitVec 5).toNat) := by decide

theorem witness_OneWideWriteIsFourNarrowOnes :
    ready.quiet = true ∧ 0x3C + 3 ≤ (ready.variant .c0).top := by decide

theorem witness_ResolveDigitAnswersTheMap :
    (ready.variant .c0 = .A ∧ (14 : BitVec 7).toNat ≤ 14 ∧ 14 < (15 : BitVec 7).toNat) ∧
    (ready.variant .c1 = .B ∧ ready.cfg.digAddr[(1 : BitVec 7).toNat]? = some (0x12, 0x13)) ∧
    ready.cfg.digNib.toList[(9 : BitVec 16).toNat]? = some (0xF, 0x3) ∧
    (ready.cfg.digAddr.length ≤ (2 : BitVec 7).toNat ∧ 9 < (10 : BitVec 16).toNat) := by decide

theorem witness_DigitSlotsRiseByFour :
    14 ≤ 14 ∧ 14 < (15 : BitVec 7).toNat ∧ digitA 15 = none := by decide

theorem witness_ResolveIndAnswersTheMap :
    (ready.variant .c1 = .B ∧ ready.cfg.indAddr.toList[(4 : BitVec 7).toNat]? = some 0x51) ∧
    (ready.variant .c0 = .A ∧ 4 < (5 : BitVec 7).toNat) := by decide

theorem witness_GlyphReadsTheFont :
    (fontRom ready.cfg)[(14 : BitVec 16).toNat]? = some 0x5A4C ∧
    (fontRom ready.cfg)[(39 : BitVec 16).toNat]? = some 0 ∧
    36 + ready.cfg.fontSymbols.length ≤ (40 : BitVec 16).toNat := by decide

theorem witness_InitSendsFiveCommandsInOrder :
    ready.quiet = true ∧ (lostOne.ctl .c0).life = .unknown ∧ lostOne.quiet = true := by decide

theorem witness_AllsetWritesEveryNibble :
    ready.quiet = true ∧ ready.variant .c0 = .A ∧ ready.variant .c1 = .B := by decide

theorem witness_AllsetTwiceIsTheSameOnTheBus :
    (ready.quiet = true ∧ lostOne.quiet = true) ∧
    (lostOne.cfg = ready.cfg ∧ lostOne.variant .c0 = ready.variant .c0) := by decide

theorem witness_RenderDigitWritesTwoNibbles :
    (ready.quiet = true ∧ ready.variant .c1 = .B ∧ ready.variant .c0 = .A) ∧
    ready.cfg.digAddr[(0 : BitVec 7).toNat]? = some (0x10, 0x11) ∧
    ready.cfg.digNib.toList[(7 : BitVec 16).toNat]? = some (0xE, 0x0) ∧
    (ready.cfg.digAddr.length ≤ (2 : BitVec 7).toNat ∧ 9 < (10 : BitVec 16).toNat) := by decide

theorem witness_RenderCharWritesTheGlyph :
    (ready.quiet = true ∧ ready.variant .c0 = .A ∧ ready.variant .c1 = .B) ∧
    ((14 : BitVec 7).toNat ≤ 14 ∧ 14 < (15 : BitVec 7).toNat) ∧
    (fontRom ready.cfg)[(14 : BitVec 16).toNat]? = some 0x5A4C ∧
    (fontRom ready.cfg).length ≤ (40 : BitVec 16).toNat := by decide

theorem witness_SetIndWritesTheWholeNibble :
    (ready.quiet = true ∧ ready.variant .c1 = .B ∧ ready.variant .c0 = .A) ∧
    (ready.cfg.indAddr.toList[(0 : BitVec 7).toNat]? = some 0x4C ∧ 4 < (5 : BitVec 7).toNat) :=
  by decide

theorem witness_PowerOnAndOffSendOneCommand :
    (ready.quiet = true ∧ (living .displayOff true).quiet = true) ∧
    (living .displayOff true).ctl0.clkCfg = true := by decide

theorem witness_InitThenPowerOnShowsTheDisplay :
    ready.quiet = true ∧ (ready.ctl .c0).life ≠ .unknown := by decide

theorem witness_ExpansionsAreTheSameOnTheBus :
    (ready.quiet = true ∧ ready.variant .c0 = .A ∧ ready.variant .c1 = .B) ∧
    ((fontRom ready.cfg)[(14 : BitVec 16).toNat]? = some 0x5A4C ∧ (14 : BitVec 7).toNat ≤ 14) ∧
    ready.cfg.digAddr[(1 : BitVec 7).toNat]? = some (0x12, 0x13) ∧
    ready.cfg.digNib.toList[(9 : BitVec 16).toNat]? = some (0xF, 0x3) ∧
    ready.cfg.indAddr.toList[(4 : BitVec 7).toNat]? = some 0x51 := by decide

theorem witness_LifecycleFramesTakeEffect :
    (living .displayOff true).quiet = true ∧ (Instr.cmdUnnamed 0x06).wf = true := by decide

theorem witness_OtherCommandFramesChangeNoGhostState :
    (living .displayOn true).quiet = true := by decide

theorem witness_DataFramesOfVariantAWriteTheirNibbles :
    ready.quiet = true ∧ (ready.ctl ready.feCs).ram.wf = true ∧ ready.variant ready.feCs = .A :=
  by decide

theorem witness_DataFramesOfVariantBWriteTheirNibbles :
    { ready with feCs := .c1 }.quiet = true ∧
    ({ ready with feCs := .c1 }.ctl .c1).ram.wf = true ∧
    { ready with feCs := .c1 }.variant .c1 = .B := by decide

theorem witness_ErrorsLeaveNoTrace :
    ∃ t, exec (decodeRequest 0x700000000) ready = .next t ∧ t.rspErr ≠ 0 := ⟨_, rfl, by decide⟩

theorem witness_EachOperationRaisesItsErrors :
    (∃ t, exec (.wrdata .c0 0x40 0 17) ready = .next t ∧ t.rspErr = 1) ∧
    (∃ t, exec (.wrdata .c0 0x3F 0 17) ready = .next t ∧ t.rspErr = 3) ∧
    (∃ t, exec (.glyph 39) ready = .next t ∧ t.rspErr = 0) :=
  ⟨⟨_, rfl, by decide⟩, ⟨_, rfl, by decide⟩, ⟨_, rfl, by decide⟩⟩

/-- `ready` meets the invariant between operations. -/
theorem ready_inv : ready.Inv := by unfold State.Inv; decide

/-- So it does with any inputs to come. -/
theorem offered_inv (inputs : List Input) : (offered inputs).Inv := ready_inv

theorem witness_StepKeepsTheBusAtRest :
    (offered [.request 0x700000000]).Inv ∧ ∃ t, step (offered [.request 0x700000000]) = .next t :=
  ⟨ready_inv, _, rfl⟩

theorem witness_TraceTellsPinsAndFrames :
    ((offered [.request 0x700000000]).Inv ∧ (offered [.request 0x700000000]).Probed) ∧
    ∃ t, step (offered [.request 0x700000000]) = .next t := ⟨⟨ready_inv, rfl⟩, _, rfl⟩

theorem witness_StepKeepsTheTimingContract :
    ((offered [.request 0x700000000]).Inv ∧ (offered [.request 0x700000000]).Timely) ∧
    ∃ t, step (offered [.request 0x700000000]) = .next t :=
  ⟨⟨ready_inv, by unfold State.Timely; decide⟩, _, rfl⟩

theorem witness_GhostStateIsTheFramesReceived :
    (offered [.request 0x700000000]).Inv ∧
    ready.ctl .c0 = Ctl.powerUp.replay (ready.variant .c0) (ready.ctl .c0).sink ∧
    lostOne.Inv ∧
    lostOne.ctl .c0 = Ctl.afterBadReset.replay (lostOne.variant .c0) (lostOne.ctl .c0).sink ∧
    ∃ t, step (offered [.request 0x700000000]) = .next t :=
  ⟨ready_inv, rfl, by unfold State.Inv; decide, rfl, _, rfl⟩

theorem witness_OnlyTheAddressedControllerIsTouched :
    ready.quiet = true ∧ ∃ t, exec (.sendcmd .c1 0x01) ready = .next t := ⟨rfl, _, rfl⟩

theorem witness_InstructionsKeepConfigurationAndLatches :
    ready.quiet = true ∧ ∃ t, exec (.init .c1) ready = .next t := ⟨rfl, _, rfl⟩

theorem witness_OnlyResetChangesTheVariant :
    (ready.Inv ∧ (∃ t, step ready = .next t)) ∧
    (∀ kind, ready.inbox.head? ≠ some (.rst kind)) ∧
    ∀ w, ready.inbox.head? ≠ some (.cutRequest w) := ⟨⟨ready_inv, _, rfl⟩, nofun, nofun⟩

theorem witness_UnknownLifecycleStaysUntilReset :
    (lostOne.Inv ∧ (lostOne.ctl .c0).life = .unknown ∧ (∃ t, step lostOne = .next t)) ∧
    (∀ kind, lostOne.inbox.head? ≠ some (.rst kind)) ∧
    ∀ w, lostOne.inbox.head? ≠ some (.cutRequest w) :=
  ⟨⟨by unfold State.Inv; decide, rfl, _, rfl⟩, nofun, nofun⟩

theorem witness_NoHiddenStateBetweenOperations :
    (ready.quiet = true ∧ lostOne.quiet = true ∧ lostOne.cfg = ready.cfg) ∧
    (lostOne.variant0 = ready.variant0 ∧ lostOne.variant1 = ready.variant1) ∧
    (lostOne.feCs = ready.feCs ∧ .glyph 14 = decodeRequest 0x60000000E) ∧
    ((∃ t, exec (.glyph 14) ready = .next t) ∧ ∃ t, exec (.glyph 14) lostOne = .next t) :=
  ⟨⟨rfl, rfl, rfl⟩, ⟨rfl, rfl⟩, ⟨rfl, by decide⟩, ⟨_, rfl⟩, _, rfl⟩

theorem witness_DelaysDoNotChangeWhatIsReceived :
    ready.quiet = true ∧ ∃ t, exec (.sendcmd .c0 0x01) ready = .next t := ⟨rfl, _, rfl⟩

theorem witness_ReferenceScheduleOfSendbits :
    ready.wr = true ∧
    ((ready.cfg.dSU = 1 ∧ ready.cfg.dWR = 2 ∧ ready.cfg.dHD = 1 ∧ ready.cfg.dPOR = 1000)) ∧
    (1 ≤ (1 : BitVec 5).toNat ∧ (16 : BitVec 5).toNat ≤ 16) ∧
    15 < (16 : BitVec 5).toNat := by decide

theorem witness_ReferenceDurations :
    ready.quiet = true ∧
    (tcfg.dSU = 1 ∧ tcfg.dWR = 2 ∧ tcfg.dHD = 1 ∧ tcfg.dPOR = 1000) ∧
    (ready.cfg = tcfg ∧ ready.variant .c0 = .A ∧ ready.variant .c1 = .B) ∧
    (0x3F : BitVec 7).toNat ≤ (ready.variant .c0).top ∧
    (0x51 : BitVec 7).toNat ≤ (ready.variant .c1).top ∧
    (4 ≤ (4 : BitVec 5).toNat ∧ (16 : BitVec 5).toNat ≤ 16) ∧
    ((14 : BitVec 7).toNat ≤ 14 ∧ (39 : BitVec 16).toNat < 36 + ready.cfg.fontSymbols.length) ∧
    ((1 : BitVec 7).toNat < ready.cfg.digAddr.length ∧ (9 : BitVec 16).toNat ≤ 9) ∧
    (4 : BitVec 7).toNat ≤ 4 := by decide

theorem witness_OnlyFramesReachTheControllers :
    ((offered [.request 0x700000000]).Inv ∧ (offered [.request 0x700000000]).OnlyFrames) ∧
    ∃ t, step (offered [.request 0x700000000]) = .next t :=
  ⟨⟨ready_inv, fun k => by cases k <;> exact nofun⟩, _, rfl⟩

theorem witness_GhostFrameTakesAnyBits :
    (1 ≤ 1 ∧ Ctl.powerUp.ram.wf = true) ∧
    (¬ ((wire 11 0x400).length = 12 ∧ (wire 11 0x400).take 3 = [true, false, false])) ∧
    ¬ (4 + Variant.aw .B ≤ (wire 10 0b101_0000000).length ∧
      (wire 10 0b101_0000000).take 3 = [true, false, true]) ∧
    ¬ ((wire 10 0b101_0000000).length = 12) := by decide

end Sys2Proof.Tests
end

section
/-! Proofs of the statements of 10_state.md: what a step does when the CORE is ready or not, what an
effect does to one controller and to each group of registers, what two states that differ in what no
instruction reads have in common, and what a probe on the bus sees. -/

namespace Sys2Proof.Machine

/-! ### Which input a step takes -/

/-- With the power-up delay passed and the CORE not busy the next input is taken (10_state.md R26). -/
theorem State.fetch_of_ready {s : State} {i : Input} {rest : List Input} (hp : s.porDone = true)
    (hb : s.busy = false) (hi : s.inbox = i :: rest) :
    s.fetch = State.takeInput { s with inbox := rest } i := by
  simp [State.fetch, hi, hp, hb, State.popInput]

/-- Before the power-up delay has passed, it passes, unless an input comes that is looked at in any
case (10_state.md R28). -/
theorem State.fetch_of_not_porDone {s : State} (hp : s.porDone = false)
    (hi : ∀ i rest, s.inbox = i :: rest → i.unconditional = false) :
    s.fetch = .done (.next s.powerUp) := by
  unfold State.fetch
  cases h : s.inbox with
  | nil => simp [hp]
  | cons i rest => simp [hp, hi i rest h]

/-- Only a reset and a foreign master are looked at in any case. -/
theorem Input.unconditional_eq_false_iff (i : Input) :
    i.unconditional = false ↔ (∀ kind, i ≠ .rst kind) ∧ i ≠ .foreignDrive := by
  cases i <;> simp [Input.unconditional]

/-! ### What an effect does to a controller -/

/-- A frame on line `k` is received by the controller on line `k` and by no other. -/
theorem State.afterFrame_ctl (s : State) (k : Cs) (bits : Bits) (j : Cs) :
    (s.afterFrame k bits).ctl j =
      if k = j then (s.ctl j).received (s.variant j) bits else s.ctl j := by
  cases k <;> cases j <;> rfl

/-- Bits reach no controller while the bus is at rest (40_bit_transmitter.md R88). -/
theorem State.afterBits_ctl (s : State) (bits : Bits) (j : Cs) (h : s.quiet = true) :
    (s.afterBits bits).ctl j = s.ctl j := by
  obtain ⟨h0, h1, -, -, -⟩ := s.quiet_iff.1 h
  cases j <;> simp [State.afterBits, State.ctl, h0, h1]

section

variable {v : Variant} {k : Cs} {s t : State}

/-- What every frame received keeps of a controller, an effect keeps. -/
theorem Effect.ctl_induction (h : Effect v k s t) (hs : s.quiet = true) (j : Cs) {P : Ctl → Prop}
    (h0 : P (s.ctl j)) (hf : ∀ c f, P c → P (c.received (s.variant j) f)) : P (t.ctl j) := by
  induction h with
  | start => exact h0
  | @frame t bits _ he ih =>
    rw [State.afterFrame_ctl, he.variant j]
    split
    · exact hf _ _ ih
    · exact ih
  | bits bits he ih => rwa [State.afterBits_ctl _ _ _ (he.quiet hs)]
  | _ => assumption

/-- An effect writes no configuration, `VARIANT`, latch, `por_done` or input (10_state.md R23, R24). -/
theorem Effect.sameFixed (h : Effect v k s t) : s.sameFixed t := by
  induction h with
  | start => exact ⟨rfl, rfl, rfl, rfl, rfl, rfl, rfl, rfl, rfl, rfl⟩
  | _ => assumption

/-- An effect never raises `busy`. -/
theorem Effect.busy_eq_false (h : Effect v k s t) (hs : s.busy = false) : t.busy = false := by
  induction h with
  | start => exact hs
  | ok | raise => rfl
  | _ => assumption

/-- An effect leaves `dly` run down. -/
theorem Effect.dly_eq_zero (h : Effect v k s t) (hs : s.dly = 0) : t.dly = 0 := by
  induction h with
  | start => exact hs
  | frame => rfl
  | bits bits _ ih => simp [State.afterBits, ih]
  | _ => assumption

/-- The codes of the errors (60_exceptions.md R190). -/
theorem Err.code_le_four (e : Err) : e.code.toNat ≤ 4 := by cases e <;> decide

/-- An effect leaves one of the codes the CORE produces in `rsp_err`. -/
theorem Effect.rspErr_le_four (h : Effect v k s t) (hs : s.rspErr.toNat ≤ 4) :
    t.rspErr.toNat ≤ 4 := by
  induction h with
  | start => exact hs
  | ok => exact Nat.zero_le 4
  | raise e => exact e.code_le_four
  | _ => assumption

end

/-! ### What a reset does -/

/-- Reset leaves a controller just powered up, or one of which nothing is known
(70_reset_and_hazards.md R221). -/
theorem State.takeReset_ctl (s : State) (kind : ResetKind) (j : Cs) :
    (s.takeReset kind).ctl j = Ctl.powerUp ∨ (s.takeReset kind).ctl j = Ctl.afterBadReset := by
  have h : (s.takeReset kind).ctl j =
      if (s.busy || kind == .coreOnly) = true then Ctl.afterBadReset else Ctl.powerUp := by
    cases j <;> rfl
  rw [h]
  split
  · exact .inr rfl
  · exact .inl rfl

/-- Reset leaves no frame in progress, no frame received and nothing known of the RAM. -/
theorem State.takeReset_ctl_empty (s : State) (kind : ResetKind) (j : Cs) :
    ((s.takeReset kind).ctl j).openBits = none ∧ ((s.takeReset kind).ctl j).sink = [] ∧
      ((s.takeReset kind).ctl j).ram = [] := by
  rcases s.takeReset_ctl kind j with h | h <;> rw [h] <;> exact ⟨rfl, rfl, rfl⟩

end Sys2Proof.Machine
end
section

namespace Sys2Proof.Machine

/-! ### The coarse shape of a step -/

/-- What taking an input in leaves alone: everything but the operand latches, `busy`, `rsp_valid`,
`fe_cs` and the inputs to come. -/
structure State.TakenIn (s u : State) : Prop where
  cfg : u.cfg = s.cfg
  variant : ∀ j, u.variant j = s.variant j
  bus : s.sameBus u
  porDone : u.porDone = s.porDone
  dly : u.dly = s.dly
  rspErr : u.rspErr = s.rspErr

/-- Two states that are the same on the bus are at rest together. -/
theorem State.sameBus.quiet {s u : State} (h : s.sameBus u) (hs : s.quiet = true) :
    u.quiet = true := by
  obtain ⟨-, h0, h1, hw, -, hc0, hc1⟩ := h
  rw [State.quiet_iff] at *
  rwa [h0, h1, hw, hc0, hc1]

/-- Two states that are the same on the bus have the same controllers. -/
theorem State.sameBus.ctl {s u : State} (h : s.sameBus u) (j : Cs) : u.ctl j = s.ctl j := by
  obtain ⟨-, -, -, -, -, hc0, hc1⟩ := h
  cases j
  · exact hc0
  · exact hc1

/-! Each way of taking an input in. -/

theorem State.takenIn_tick (s : State) : s.TakenIn s.tick :=
  ⟨rfl, s.tick_variant, ⟨rfl, rfl, rfl, rfl, rfl, rfl, rfl⟩, rfl, rfl, rfl⟩

theorem State.takenIn_popInput_tick (s : State) : s.TakenIn s.popInput.tick :=
  ⟨rfl, fun j => by simp, ⟨rfl, rfl, rfl, rfl, rfl, rfl, rfl⟩, rfl, rfl, rfl⟩

theorem State.takenIn_accept (s : State) (w : Request) : s.TakenIn (s.popInput.accept w) :=
  ⟨rfl, fun j => by simp, ⟨rfl, rfl, rfl, rfl, rfl, rfl, rfl⟩, rfl, rfl, rfl⟩

theorem State.takenIn_selectFrame (s : State) (k : Cs) : s.TakenIn (s.popInput.selectFrame k) :=
  ⟨rfl, fun j => by simp, ⟨rfl, rfl, rfl, rfl, rfl, rfl, rfl⟩, rfl, rfl, rfl⟩

/-- The next input is a reset, or an operation cut by one (70_reset_and_hazards.md R220, R221). -/
def State.resetOffered (s : State) : Prop :=
  (∃ kind, s.inbox.head? = some (.rst kind)) ∨ ∃ w, s.inbox.head? = some (.cutRequest w)

/-- What a step from a bus at rest comes to: the power-up delay, an effect after an input has been
taken in (the empty effect when time only passes), or a reset. -/
inductive Stepped (s : State) : State → Prop
  | powerUp : s.porDone = false → Stepped s s.powerUp
  | effect {u t : State} (v : Variant) (k : Cs) : s.porDone = true → s.TakenIn u →
      Effect v k u t → Stepped s t
  | reset {u : State} (kind : ResetKind) : u.cfg = s.cfg → s.resetOffered →
      Stepped s (u.takeReset kind)

/-- An instruction that answers `t` from a bus at rest has `t` as an effect. -/
theorem effect_of_exec {i : Instr} {s t : State} (hs : s.quiet = true) (h : exec i s = .next t) :
    ∃ v, Effect v (i.line s.feCs) s t := by
  obtain ⟨t', ht', he⟩ := exec_effect i s hs
  obtain rfl := Host.Outcome.next.inj (h.symm.trans ht')
  exact ⟨_, he⟩

/-- A step that runs an instruction is an effect. -/
theorem Stepped.of_exec {i : Instr} {s u t : State} (hs : s.quiet = true) (hp : s.porDone = true)
    (hu : s.TakenIn u) (h : exec i u = .next t) : Stepped s t := by
  obtain ⟨v, he⟩ := effect_of_exec (hu.bus.quiet hs) h
  exact .effect v _ hp hu he

/-- Every step from a bus at rest has that shape. -/
theorem step_stepped {s t : State} (hs : s.quiet = true) (h : step s = .next t) : Stepped s t := by
  cases step_took h with
  | powerUp hp => exact .powerUp hp
  | wait hp => exact .effect .A .c0 hp s.takenIn_tick .start
  | idle rest _ hp _ => exact .effect .A .c0 hp s.takenIn_popInput_tick .start
  | rst kind rest hi => exact .reset kind rfl (.inl ⟨kind, by rw [hi]; rfl⟩)
  | cut w rest hi _ _ => exact .reset .board rfl (.inr ⟨w, by rw [hi]; rfl⟩)
  | request w rest _ hp _ he => exact .of_exec hs hp (s.takenIn_accept w) he
  | frame k bits i rest _ hp _ _ he => exact .of_exec hs hp (s.takenIn_selectFrame k) he

/-- What a step does to a controller: a reset makes it new or unknown, and anything else keeps its
variant and what every frame received keeps. -/
theorem step_ctl_induction {s t : State} (hs : s.quiet = true) (h : step s = .next t) (j : Cs)
    {P : Ctl → Prop} (h0 : P (s.ctl j)) (hf : ∀ c f, P c → P (c.received (s.variant j) f)) :
    (t.variant j = s.variant j ∧ P (t.ctl j)) ∨
      (s.resetOffered ∧ ∃ u kind, t = State.takeReset u kind) := by
  cases step_stepped hs h with
  | powerUp => exact .inl ⟨s.powerUp_variant j, by rwa [State.powerUp_ctl]⟩
  | effect v k _ hu he =>
    refine .inl ⟨(he.variant j).trans (hu.variant j), ?_⟩
    refine he.ctl_induction (hu.bus.quiet hs) j ?_ ?_
    · rwa [hu.bus.ctl]
    · rwa [hu.variant]
  | reset kind _ hr => exact .inr ⟨hr, _, kind, rfl⟩

/-! ### Two states that differ in what no instruction reads -/

/-- Two states at rest that agree in all that an instruction reads: `VARIANT`, the selected line, and
the configuration but for its delays. -/
structure State.Alike (s s' : State) : Prop where
  quiet : s.quiet = true
  quiet' : s'.quiet = true
  cfg : ∃ su wd hd, s'.cfg = { s.cfg with suOver := su, wrOver := wd, hdOver := hd }
  variant0 : s'.variant0 = s.variant0
  variant1 : s'.variant1 = s.variant1
  feCs : s'.feCs = s.feCs

/-- Two runs of the same bus operations, register loads and responses, from `s` and from `s'`; the
flag says whether a response has been given. -/
inductive Twin (k : Cs) (s s' : State) : Bool → State → State → Prop
  | start : Twin k s s' false s s'
  | frame {b t t'} (bits : Bits) : Twin k s s' b t t' →
      Twin k s s' b (t.afterFrame k bits) (t'.afterFrame k bits)
  | bits {b t t'} (bits : Bits) : Twin k s s' b t t' →
      Twin k s s' b (t.afterBits bits) (t'.afterBits bits)
  | loadBt {b t t'} (r : BitVec 16) (i : BitVec 5) : Twin k s s' b t t' →
      Twin k s s' b (t.loadBt r i) (t'.loadBt r i)
  | loadFe {b t t'} (r : BitVec 16) (a a' : BitVec 7) : Twin k s s' b t t' →
      Twin k s s' b (t.loadFe r a) (t'.loadFe r a')
  | setSi {b t t'} (i : Nat) : Twin k s s' b t t' → Twin k s s' b (t.setSi i) (t'.setSi i)
  | frameEnd {b t t'} : Twin k s s' b t t' → Twin k s s' b t.frameEnd t'.frameEnd
  | ok {b t t'} (d : BitVec 32) : Twin k s s' b t t' → Twin k s s' true (t.ok d) (t'.ok d)
  | raise {b t t'} (e : Err) : Twin k s s' b t t' → Twin k s s' true (t.raise e) (t'.raise e)

/-- States that are alike have the same variant on each line. -/
theorem State.Alike.variant {s s' : State} (h : s.Alike s') (j : Cs) :
    s'.variant j = s.variant j := by
  cases j
  · exact h.variant0
  · exact h.variant1

/-- A state is alike to itself. -/
theorem State.Alike.refl {s : State} (hs : s.quiet = true) : s.Alike s :=
  ⟨hs, hs, ⟨s.cfg.suOver, s.cfg.wrOver, s.cfg.hdOver, rfl⟩, rfl, rfl, rfl⟩

section

variable {k : Cs} {s s' t t' : State} {b : Bool}

/-- The two runs stay alike. -/
theorem Twin.alike (h : Twin k s s' b t t') (ha : s.Alike s') : t.Alike t' := by
  induction h with
  | start => exact ha
  | frame bits _ ih =>
    exact ⟨State.afterFrame_quiet _ _ _ ih.quiet, State.afterFrame_quiet _ _ _ ih.quiet', ih.cfg,
      ih.variant0, ih.variant1, rfl⟩
  | bits bits _ ih =>
    exact ⟨State.afterBits_quiet _ _ ih.quiet, State.afterBits_quiet _ _ ih.quiet', ih.cfg,
      ih.variant0, ih.variant1, ih.feCs⟩
  | loadBt _ _ _ ih | loadFe _ _ _ _ ih | setSi _ _ ih | frameEnd _ ih | ok _ _ ih
  | raise _ _ ih => exact ⟨ih.quiet, ih.quiet', ih.cfg, ih.variant0, ih.variant1, ih.feCs⟩

/-! What the parts of an instruction do, two runs do alike. -/

theorem Twin.commandFrame (h : Twin k s s' b t t') (ha : s.Alike s') (cmd : BitVec 8) :
    Twin k s s' b (t.commandFrame k cmd) (t'.commandFrame k cmd) := by
  rw [State.commandFrame_eq _ _ _ (h.alike ha).quiet, State.commandFrame_eq _ _ _ (h.alike ha).quiet']
  exact .setSi _ (.loadBt _ _ (.frame _ h))

theorem Twin.dataFrame (h : Twin k s s' b t t') (ha : s.Alike s') (aw : Nat) (a : BitVec 7)
    (p : BitVec 16) (w : Nat) (haw : 1 ≤ aw ∧ aw ≤ 16) (hw : 1 ≤ w ∧ w ≤ 16) :
    Twin k s s' b (t.dataFrame k aw a p w) (t'.dataFrame k aw a p w) := by
  rw [State.dataFrame_eq _ _ _ _ _ _ (h.alike ha).quiet haw hw,
    State.dataFrame_eq _ _ _ _ _ _ (h.alike ha).quiet' haw hw]
  exact .setSi _ (.loadBt _ _ (.loadFe _ _ _ (.frame _ h)))

theorem Twin.writeData (h : Twin k s s' b t t') (ha : s.Alike s') (a : BitVec 7) (p : BitVec 16)
    (w : Nat) (hw : 1 ≤ w ∧ w ≤ 16) :
    Twin k s s' b (t.writeData k a p w) (t'.writeData k a p w) := by
  rw [State.writeData, State.writeData, (h.alike ha).variant k]
  exact h.dataFrame ha _ a p w (Variant.aw_bounds _) hw

theorem Twin.fill (h : Twin k s s' b t t') (ha : s.Alike s') (nib : Nibble) (n a : Nat) :
    Twin k s s' b (State.fill k nib n a t) (State.fill k nib n a t') := by
  induction n generalizing a t t' with
  | zero => exact h
  | succ n ih => exact ih (h.writeData ha _ _ 4 (by omega)) (a + 1)

theorem Twin.commands (h : Twin k s s' b t t') (ha : s.Alike s') (codes : List (BitVec 8)) :
    Twin k s s' b (t.commands k codes) (t'.commands k codes) := by
  induction codes generalizing t t' with
  | nil => exact h
  | cons c codes ih => exact ih (h.commandFrame ha c)

theorem Twin.sendBits (ha : s.Alike s') (value : BitVec 16) (n : Nat) (hn : 1 ≤ n ∧ n ≤ 16) :
    Twin k s s' false (s.sendBits value n) (s'.sendBits value n) := by
  rw [State.sendBits_eq _ _ _ (s.quiet_iff.1 ha.quiet).2.2.1 hn.1 hn.2,
    State.sendBits_eq _ _ _ (s'.quiet_iff.1 ha.quiet').2.2.1 hn.1 hn.2]
  exact .loadBt _ _ (.bits _ .start)

theorem Twin.runCommand (ha : s.Alike s') (code : BitVec 8) :
    Twin s.feCs s s' false (s.runCommand code) (s'.runCommand code) := by
  rw [State.runCommand, State.runCommand, ha.feCs]
  exact .frameEnd (Twin.commandFrame .start ha code)

theorem Twin.runData {aw w : Nat} (ha : s.Alike s') (a : BitVec aw) (d : BitVec w)
    (haw : 1 ≤ aw ∧ aw ≤ 16) (hw : 1 ≤ w ∧ w ≤ 16) :
    Twin s.feCs s s' false (s.runData a d) (s'.runData a d) := by
  rw [State.runData, State.runData, ha.feCs]
  exact .frameEnd (Twin.dataFrame .start ha aw _ _ w haw hw)

end

/-- The instruction is a host request, which gets a response (30_encoding.md R67). -/
def isRequest (i : Instr) : Bool :=
  match encode i with
  | .request _ => true
  | .frame _ => false

/-- Every request word asks for a request. -/
theorem isRequest_decodeRequest (w : Request) : isRequest (decodeRequest w) = true := by
  unfold decodeRequest
  split <;> rfl

/-- The lookups read no delay, so they answer the same in two states that are alike. -/
theorem State.Alike.lookups {s s' : State} (h : s.Alike s') :
    digitPair s'.cfg = digitPair s.cfg ∧ indicator s'.cfg = indicator s.cfg ∧
      resolveDigitResult s'.cfg = resolveDigitResult s.cfg ∧ glyphOf s'.cfg = glyphOf s.cfg := by
  obtain ⟨su, wd, hd, hc⟩ := h.cfg
  rw [hc]
  exact ⟨rfl, rfl, rfl, rfl⟩

/-- Every instruction does the same from two states that are alike, and a request gives the same
response. -/
theorem exec_twin {s s' : State} (ha : s.Alike s') (i : Instr) :
    ∃ t t', exec i s = .next t ∧ exec i s' = .next t' ∧
      Twin (i.line s.feCs) s s' (isRequest i) t t' := by
  obtain ⟨hpair, hind, hres, hglyph⟩ := ha.lookups
  cases i with
  | sendbits value n =>
    refine ⟨_, _, rfl, rfl, ?_⟩
    by_cases hn : transmitWidthOk n = true
    · rw [if_pos hn, if_pos hn]
      simp only [transmitWidthOk, Bool.and_eq_true, decide_eq_true_eq] at hn
      exact .ok _ (.sendBits ha value _ hn)
    · rw [if_neg hn, if_neg hn]
      exact .raise _ .start
  | sendcmd k cmd => exact ⟨_, _, rfl, rfl, .ok _ (Twin.commandFrame .start ha cmd)⟩
  | wrdata k a p n =>
    refine ⟨_, _, rfl, rfl, ?_⟩
    rw [ha.variant k]
    by_cases hr : (s.variant k).top < a.toNat
    · rw [if_pos hr, if_pos hr]
      exact .raise _ .start
    · rw [if_neg hr, if_neg hr]
      by_cases hn : dataWidthOk n = true
      · rw [if_pos hn, if_pos hn]
        simp only [dataWidthOk, Bool.and_eq_true, decide_eq_true_eq] at hn
        exact .ok _ (Twin.writeData .start ha a p _ (by omega))
      · rw [if_neg hn, if_neg hn]
        exact .raise _ .start
  | revbits p n =>
    refine ⟨_, _, rfl, rfl, ?_⟩
    by_cases hn : transmitWidthOk n = true
    · rw [if_pos hn, if_pos hn]
      exact .ok _ (.loadFe _ _ _ .start)
    · rw [if_neg hn, if_neg hn]
      exact .raise _ .start
  | resolveDigit k p x =>
    refine ⟨_, _, rfl, rfl, ?_⟩
    rw [hres, ha.variant k]
    cases resolveDigitResult s.cfg (s.variant k) p x with
    | none => exact .raise _ .start
    | some r => exact .ok _ .start
  | resolveInd k n on =>
    refine ⟨_, _, rfl, rfl, ?_⟩
    rw [hind, ha.variant k]
    cases indicator s.cfg (s.variant k) n on with
    | none => exact .raise _ .start
    | some r => exact .ok _ .start
  | glyph x =>
    refine ⟨_, _, rfl, rfl, ?_⟩
    rw [hglyph]
    cases glyphOf s.cfg x with
    | none => exact .raise _ .start
    | some r => exact .ok _ .start
  | unassigned7 | unassignedF => exact ⟨_, _, rfl, rfl, .raise _ .start⟩
  | init k => exact ⟨_, _, rfl, rfl, .ok _ (Twin.commands .start ha initCodes)⟩
  | allset k on =>
    refine ⟨_, _, rfl, rfl, ?_⟩
    rw [ha.variant k]
    exact .ok _ (Twin.fill .start ha _ _ _)
  | renderDigit k p x =>
    refine ⟨_, _, rfl, rfl, ?_⟩
    rw [hpair, ha.variant k]
    cases digitPair s.cfg (s.variant k) p x with
    | none => exact .raise _ .start
    | some r =>
      exact .ok _ (Twin.writeData (Twin.writeData .start ha _ _ 4 (by omega)) ha _ _ 4 (by omega))
  | renderChar k p x =>
    refine ⟨_, _, rfl, rfl, ?_⟩
    rw [hglyph, ha.variant k]
    cases digitSlot (s.variant k) p with
    | none => exact .raise _ .start
    | some a =>
      cases glyphOf s.cfg x with
      | none => exact .raise _ .start
      | some g => exact .ok _ (Twin.writeData .start ha _ _ 16 (by omega))
  | setInd k n on =>
    refine ⟨_, _, rfl, rfl, ?_⟩
    rw [hind, ha.variant k]
    cases indicator s.cfg (s.variant k) n on with
    | none => exact .raise _ .start
    | some r => exact .ok _ (Twin.writeData .start ha _ _ 4 (by omega))
  | pwrOn k | pwrOff k => exact ⟨_, _, rfl, rfl, .ok _ (Twin.commandFrame .start ha _)⟩
  | sysDis | sysEn | lcdOff | lcdOn | timerDis | wdtDis | toneOff | rcSel | tone4k40 | tone4k60
  | irqDis | irqEn | cmdUnnamed => exact ⟨_, _, rfl, rfl, .runCommand ha _⟩
  | dataAW4 | dataAW5 | dataAW6 | dataAW7 | dataAW8 | dataAW9 | dataAW10 | dataAW11 | dataAW12
  | dataAW13 | dataAW14 | dataAW15 | dataAW16 | dataBW4 | dataBW5 | dataBW6 | dataBW7 | dataBW8
  | dataBW9 | dataBW10 | dataBW11 | dataBW12 | dataBW13 | dataBW14 | dataBW15 | dataBW16 =>
    exact ⟨_, _, rfl, rfl, .runData ha _ _ (by omega) (by omega)⟩

section

variable {k : Cs} {s s' t t' : State} {b : Bool}

/-- The two runs give the same response, once they have given one, and are then not busy. -/
theorem Twin.response (h : Twin k s s' b t t') (hb : b = true) :
    t'.rspErr = t.rspErr ∧ t'.rspData = t.rspData ∧ t.busy = false := by
  induction h with
  | start => cases hb
  | ok | raise => exact ⟨rfl, rfl, rfl⟩
  | frame _ _ ih | bits _ _ ih | loadBt _ _ _ ih | loadFe _ _ _ _ ih | setSi _ _ ih
  | frameEnd _ ih => exact ih hb

/-- Neither run changes its configuration. -/
theorem Twin.cfg (h : Twin k s s' b t t') : t.cfg = s.cfg ∧ t'.cfg = s'.cfg := by
  induction h with
  | start => exact ⟨rfl, rfl⟩
  | _ => assumption

/-- With the same configuration the two runs append the same events. -/
theorem Twin.events (h : Twin k s s' b t t') (hc : s'.cfg = s.cfg) :
    ∃ evs, t.tr = s.tr ++ evs ∧ t'.tr = s'.tr ++ evs := by
  induction h with
  | start => exact ⟨[], by simp, by simp⟩
  | @frame b t t' bits h ih =>
    obtain ⟨evs, he, he'⟩ := ih
    obtain ⟨ht, ht'⟩ := h.cfg
    exact ⟨evs ++ frameEvents s.cfg k bits, by simp [State.afterFrame, he, ht],
      by simp [State.afterFrame, he', ht', hc]⟩
  | @bits b t t' bits h ih =>
    obtain ⟨evs, he, he'⟩ := ih
    obtain ⟨ht, ht'⟩ := h.cfg
    exact ⟨evs ++ bitsEvents s.cfg bits, by simp [State.afterBits, he, ht],
      by simp [State.afterBits, he', ht', hc]⟩
  | _ => assumption

/-- Two states that a host and the controllers cannot tell apart: the controllers, the pins, the
response, and `VARIANT`. -/
structure State.SeenAlike (s s' : State) : Prop where
  ctl0 : s'.ctl0 = s.ctl0
  ctl1 : s'.ctl1 = s.ctl1
  data : s'.data = s.data
  cs0 : s'.cs0 = s.cs0
  cs1 : s'.cs1 = s.cs1
  wr : s'.wr = s.wr
  rspErr : s'.rspErr = s.rspErr
  rspData : s'.rspData = s.rspData
  variant0 : s'.variant0 = s.variant0
  variant1 : s'.variant1 = s.variant1

/-- What cannot be told apart before the two runs cannot be after them. -/
theorem Twin.seenAlike (h : Twin k s s' b t t') (hs : s.SeenAlike s') : t.SeenAlike t' := by
  induction h with
  | start => exact hs
  | frame bits _ ih =>
    exact { ih with
      ctl0 := by simp [State.afterFrame, ih.ctl0, ih.variant0]
      ctl1 := by simp [State.afterFrame, ih.ctl1, ih.variant1]
      data := by simp [State.afterFrame, ih.data] }
  | bits bits _ ih =>
    exact { ih with
      ctl0 := by simp [State.afterBits, ih.ctl0, ih.cs0]
      ctl1 := by simp [State.afterBits, ih.ctl1, ih.cs1]
      data := by simp [State.afterBits, ih.data] }
  | ok _ _ ih | raise _ _ ih => exact { ih with rspErr := rfl, rspData := rfl }
  | loadBt _ _ _ ih | loadFe _ _ _ _ ih | setSi _ _ ih | frameEnd _ ih => exact { ih with }

end

/-- No step leaves an operation in progress. -/
theorem step_not_busy {s t : State} (hs : s.quiet = true) (hb : s.busy = false)
    (h : step s = .next t) : t.busy = false := by
  cases step_took h with
  | powerUp | wait | idle => exact hb
  | rst | cut => rfl
  | request w rest _ _ _ he =>
    obtain ⟨t₁, t₂, h₁, -, htwin⟩ :=
      exec_twin (.refl ((s.takenIn_accept w).bus.quiet hs)) (decodeRequest w)
    obtain rfl := Host.Outcome.next.inj (he.symm.trans h₁)
    obtain ⟨-, -, hbusy⟩ := htwin.response (isRequest_decodeRequest w)
    exact hbusy
  | frame k bits i rest _ _ _ _ he =>
    obtain ⟨v, heff⟩ := effect_of_exec ((s.takenIn_selectFrame k).bus.quiet hs) he
    exact heff.busy_eq_false hb

end Sys2Proof.Machine
end
section

namespace Sys2Proof.Machine

/-! ### What a probe on the bus sees -/

/-- What a probe should have seen of a state: its pins, frames in progress and sinks, and no clash. -/
def State.view (s : State) : Probe where
  cs0 := s.cs0
  cs1 := s.cs1
  wr := s.wr
  data := s.data
  open0 := s.ctl0.openBits
  open1 := s.ctl1.openBits
  seen0 := s.ctl0.sink
  seen1 := s.ctl1.sink
  clash := false

/-- A state is told by its trace when the probe has seen what the state shows. -/
theorem State.probed_iff (s : State) : s.Probed ↔ probeOf s.tr = s.view := Iff.rfl

/-- The probe goes on from where it was. -/
theorem probeOf_append (xs ys : List Event) :
    probeOf (xs ++ ys) = ys.foldl Probe.see (probeOf xs) :=
  List.foldl_append

/-- A probe sees a bit slot (40_bit_transmitter.md R82): one more bit in each open frame. -/
theorem Probe.see_slotEvents (c : Config) (p : Probe) (b : Bool) :
    (slotEvents c b).foldl Probe.see p =
      { p with
        data := b
        wr := true
        open0 := if p.cs0 then p.open0 else p.open0.map (· ++ [b])
        open1 := if p.cs1 then p.open1 else p.open1.map (· ++ [b]) } := rfl

/-- A probe sees a run of bits, the strobe at rest before and after it. -/
theorem Probe.see_bitsEvents (c : Config) (bits : Bits) (p : Probe) (hw : p.wr = true) :
    (bitsEvents c bits).foldl Probe.see p =
      { p with
        data := bits.getLastD p.data
        open0 := if p.cs0 then p.open0 else p.open0.map (· ++ bits)
        open1 := if p.cs1 then p.open1 else p.open1.map (· ++ bits) } := by
  induction bits generalizing p with
  | nil => simp
  | cons b bits ih =>
    rw [bitsEvents_cons, List.foldl_append, Probe.see_slotEvents, ih _ rfl]
    cases h0 : p.cs0 <;> cases h1 : p.cs1 <;> 
      simp [hw, Function.comp_def, List.getLast?_cons]

/-- What a probe sees of a run of bits is what the state shows after it. -/
theorem State.view_afterBits (s : State) (bits : Bits) (h : s.quiet = true) :
    (bitsEvents s.cfg bits).foldl Probe.see s.view = (s.afterBits bits).view := by
  obtain ⟨h0, h1, hw, -, -⟩ := s.quiet_iff.1 h
  rw [Probe.see_bitsEvents _ _ _ hw]
  simp [State.view, State.afterBits, h0, h1]

/-- What a probe sees of a frame is what the state shows after it. -/
theorem State.view_afterFrame (s : State) (k : Cs) (bits : Bits) (h : s.quiet = true) :
    (frameEvents s.cfg k bits).foldl Probe.see s.view = (s.afterFrame k bits).view := by
  obtain ⟨h0, h1, hw, ho0, ho1⟩ := s.quiet_iff.1 h
  rw [frameEvents, List.foldl_append, List.foldl_append]
  cases k <;>
    simp [openEvents, closeEvents, Probe.see, Probe.see_bitsEvents, State.view, State.afterFrame, hw,
      h0, h1, ho0, ho1, Ctl.received_sink, Ctl.received_openBits]

/-- The trace still tells pins and frames after events of which a probe sees what the state shows. -/
theorem State.Probed.of_append {s t : State} {evs : List Event} (h : s.Probed)
    (htr : t.tr = s.tr ++ evs) (hv : evs.foldl Probe.see s.view = t.view) : t.Probed := by
  rw [State.probed_iff] at *
  rw [htr, probeOf_append, h, hv]

/-- An effect keeps the trace telling pins and frames. -/
theorem Effect.probed {v : Variant} {k : Cs} {s t : State} (h : Effect v k s t)
    (hs : s.quiet = true) (hp : s.Probed) : t.Probed := by
  induction h with
  | start => exact hp
  | frame bits _ he ih => exact ih.of_append rfl (State.view_afterFrame _ _ _ (he.quiet hs))
  | bits bits he ih => exact ih.of_append rfl (State.view_afterBits _ _ (he.quiet hs))
  | _ => assumption

/-- The same bus and the same trace tell the same. -/
theorem State.sameBus.probed {s u : State} (h : s.sameBus u) (hp : s.Probed) : u.Probed := by
  obtain ⟨htr, h0, h1, hw, hd, hc0, hc1⟩ := h
  unfold State.Probed at *
  rwa [htr, h0, h1, hw, hd, hc0, hc1]

/-- The empty trace of a reset tells the reset state (10_state.md R37). -/
theorem State.takeReset_probed (s : State) (kind : ResetKind) : (s.takeReset kind).Probed := by
  rw [State.probed_iff, State.view]
  obtain ⟨ho0, hs0, -⟩ := s.takeReset_ctl_empty kind .c0
  obtain ⟨ho1, hs1, -⟩ := s.takeReset_ctl_empty kind .c1
  change (s.takeReset kind).ctl0.openBits = none at ho0
  change (s.takeReset kind).ctl0.sink = [] at hs0
  change (s.takeReset kind).ctl1.openBits = none at ho1
  change (s.takeReset kind).ctl1.sink = [] at hs1
  rw [ho0, hs0, ho1, hs1]
  rfl

/-! ### The invariant between operations -/

/-- The RAM of a controller in form, as a property of the controller alone. -/
theorem State.ramOk_iff (s : State) (k : Cs) : s.ramOk k = true ↔
    (s.ctl k).ram.wf = true ∧ (s.ctl k).ram.below (s.variant k).top = true := by
  simp [State.ramOk]

/-- Every step keeps the RAMs in form and in range (20_memory.md R41). -/
theorem step_ramOk {s t : State} (hs : s.quiet = true) (h : step s = .next t) (k : Cs)
    (hr : s.ramOk k = true) : t.ramOk k = true := by
  rw [State.ramOk_iff] at hr
  have hind := step_ctl_induction hs h k
    (P := fun c => c.ram.wf = true ∧ c.ram.below (s.variant k).top = true) hr
    fun c f ⟨hwf, hbelow⟩ => Ctl.received_ram c (s.variant k) f hwf hbelow
  rw [State.ramOk_iff]
  rcases hind with ⟨hv, ht⟩ | ⟨-, u, kind, rfl⟩
  · rwa [hv]
  · obtain ⟨-, -, hram⟩ := u.takeReset_ctl_empty kind k
    rw [hram]
    exact ⟨rfl, rfl⟩

/-- Every step leaves the bus at rest (10_state.md R38). -/
theorem step_quiet {s t : State} (hs : s.quiet = true) (h : step s = .next t) :
    t.quiet = true := by
  cases step_stepped hs h with
  | powerUp => exact hs
  | effect v k _ hu he => exact he.quiet (hu.bus.quiet hs)
  | @reset u kind =>
    obtain ⟨ho0, -, -⟩ := u.takeReset_ctl_empty kind .c0
    obtain ⟨ho1, -, -⟩ := u.takeReset_ctl_empty kind .c1
    exact (State.quiet_iff _).2 ⟨rfl, rfl, rfl, ho0, ho1⟩

/-- Every step leaves `dly` run down once the power-up delay has passed (10_state.md R25, R28). -/
theorem step_dly {s t : State} (hs : s.quiet = true) (hd : s.porDone = true → s.dly = 0)
    (h : step s = .next t) : t.porDone = true → t.dly = 0 := by
  cases step_stepped hs h with
  | powerUp => exact fun _ => rfl
  | effect v k hp hu he => exact fun _ => he.dly_eq_zero (hu.dly.trans (hd hp))
  | reset => exact nofun

/-- Every step leaves a code the CORE produces in `rsp_err` (60_exceptions.md R190). -/
theorem step_rspErr {s t : State} (hs : s.quiet = true) (he : s.rspErr.toNat ≤ 4)
    (h : step s = .next t) : t.rspErr.toNat ≤ 4 := by
  cases step_stepped hs h with
  | powerUp => exact he
  | effect v k _ hu heff => exact heff.rspErr_le_four (by rwa [hu.rspErr])
  | reset => exact Nat.zero_le 4

end Sys2Proof.Machine
end

section

open Sys2Proof Sys2Proof.Machine

namespace Sys2Proof.Proofs

/-! ### The statements of tier 3 -/

/-- Settles O44: each part of the invariant is kept by a step, by the shape of a step (`Stepped`) and
of an instruction (`Effect`). -/
theorem stepKeepsTheBusAtRest : Obligations.StepKeepsTheBusAtRest := by
  intro s t ⟨hq, hb, hr0, hr1, hd, he⟩ h
  exact ⟨step_quiet hq h, step_not_busy hq hb h, step_ramOk hq h .c0 hr0, step_ramOk hq h .c1 hr1,
    step_dly hq hd h, step_rspErr hq he h⟩

/-- Settles O45: the probe sees of each frame and each run of bits what the state shows after it. -/
theorem traceTellsPinsAndFrames : Obligations.TraceTellsPinsAndFrames := by
  intro s t ⟨hq, _⟩ hp h
  cases step_stepped hq h with
  | powerUp => exact hp.of_append rfl rfl
  | effect v k _ hu he => exact he.probed (hu.bus.quiet hq) (hu.bus.probed hp)
  | @reset u kind => exact u.takeReset_probed kind

/-- One frame more is replayed last (10_state.md R34). -/
theorem replay_received (base c : Ctl) (v : Variant) (f : Bits)
    (h : c = base.replay v c.sink) :
    c.received v f = base.replay v (c.received v f).sink := by
  calc c.received v f = (base.replay v c.sink).received v f := by rw [← h]
    _ = base.replay v (c.sink ++ [f]) := by simp [Ctl.replay]
    _ = base.replay v (c.received v f).sink := by rw [Ctl.received_sink]

/-- A step keeps a controller the replay of its sink from `base`, or is a reset. -/
theorem step_replay {s t : State} (hq : s.quiet = true) (h : step s = .next t) (k : Cs) (base : Ctl)
    (hr : s.ctl k = base.replay (s.variant k) (s.ctl k).sink) :
    t.ctl k = base.replay (t.variant k) (t.ctl k).sink ∨
      ∃ u kind, t = State.takeReset u kind := by
  rcases step_ctl_induction hq h k hr (replay_received base · _ ·) with ⟨hv, ht⟩ | ⟨-, hreset⟩
  · exact .inl (by rw [hv]; exact ht)
  · exact .inr hreset

/-- After a reset a controller is the replay of no frame (70_reset_and_hazards.md R221). -/
theorem takeReset_replay (u : State) (kind : ResetKind) (k : Cs) :
    let t := u.takeReset kind
    t.ctl k = Ctl.powerUp.replay (t.variant k) (t.ctl k).sink ∨
      t.ctl k = Ctl.afterBadReset.replay (t.variant k) (t.ctl k).sink := by
  rcases u.takeReset_ctl kind k with h | h
  · exact .inl (by rw [h]; rfl)
  · exact .inr (by rw [h]; rfl)

/-- Settles O47: each frame received is one more step of the replay, and a reset leaves one of the two
bases. -/
theorem ghostStateIsTheFramesReceived : Obligations.GhostStateIsTheFramesReceived := by
  intro s t k ⟨hq, _⟩ hr h
  have hreset : (∃ u kind, t = State.takeReset u kind) → _ :=
    fun ⟨u, kind, ht⟩ => ht ▸ takeReset_replay u kind k
  rcases hr with hr | hr
  · exact (step_replay hq h k _ hr).elim .inl hreset
  · exact (step_replay hq h k _ hr).elim .inr hreset

/-! ### The statements of tier 2 -/

/-- Settles O49, by the fixed registers of an effect. -/
theorem instructionsKeepConfigurationAndLatches :
    Obligations.InstructionsKeepConfigurationAndLatches := by
  intro i s t hq h
  obtain ⟨v, he⟩ := effect_of_exec hq h
  have htq := he.quiet hq
  obtain ⟨hs0, hs1, hsw, -, -⟩ := s.quiet_iff.1 hq
  obtain ⟨ht0, ht1, htw, -, -⟩ := t.quiet_iff.1 htq
  exact ⟨he.sameFixed, htq, htw.trans hsw.symm, ht0.trans hs0.symm, ht1.trans hs1.symm⟩

/-- Settles O50, by the fixed registers of an effect; a reset loads `VARIANT` and keeps the
configuration. -/
theorem onlyResetChangesTheVariant : Obligations.OnlyResetChangesTheVariant := by
  intro s t ⟨hq, _⟩ h
  cases step_stepped hq h with
  | powerUp => exact ⟨rfl, fun _ _ => ⟨rfl, rfl⟩⟩
  | effect v k _ hu he =>
    obtain ⟨hcfg, -⟩ := he.sameFixed
    exact ⟨hcfg.trans hu.cfg, fun _ _ =>
      ⟨(he.variant .c0).trans (hu.variant .c0), (he.variant .c1).trans (hu.variant .c1)⟩⟩
  | reset kind hc hr =>
    refine ⟨hc, fun hrst hcut => ?_⟩
    rcases hr with ⟨kind, hk⟩ | ⟨w, hw⟩
    · exact absurd hk (hrst kind)
    · exact absurd hw (hcut w)

/-- Settles O51: no frame ends an unknown lifecycle. -/
theorem unknownLifecycleStaysUntilReset : Obligations.UnknownLifecycleStaysUntilReset := by
  intro s t k ⟨hq, _⟩ hl hrst hcut h
  have hind := step_ctl_induction (P := fun c => c.life = .unknown) hq h k hl
    fun c f hc => Ctl.received_unknown c _ f hc
  rcases hind with ⟨-, ht⟩ | ⟨⟨kind, hk⟩ | ⟨w, hw⟩, -⟩
  · exact ht
  · exact absurd hk (hrst kind)
  · exact absurd hw (hcut w)

/-- Two outcomes of one instruction are the outcomes of twin runs. -/
theorem twin_of_exec {i : Instr} {s s' t t' : State} (ha : s.Alike s') (h : exec i s = .next t)
    (h' : exec i s' = .next t') : Twin (i.line s.feCs) s s' (isRequest i) t t' := by
  obtain ⟨u, u', hu, hu', htwin⟩ := exec_twin ha i
  obtain rfl := Host.Outcome.next.inj (h.symm.trans hu)
  obtain rfl := Host.Outcome.next.inj (h'.symm.trans hu')
  exact htwin

/-- Settles O52: the two runs are twins, which append the same events and give the same response. -/
theorem noHiddenStateBetweenOperations : Obligations.NoHiddenStateBetweenOperations := by
  intro i s s' t t' hq hq' hc hv0 hv1 hk h h'
  have ha : s.Alike s' := ⟨hq, hq', ⟨_, _, _, hc⟩, hv0, hv1, hk⟩
  have htwin := twin_of_exec ha h h'
  refine ⟨htwin.events hc, ?_⟩
  rintro ⟨w, rfl⟩
  obtain ⟨herr, hdata, -⟩ := htwin.response (isRequest_decodeRequest w)
  exact ⟨herr, hdata⟩

/-- Settles O53: the run with other delays is a twin of the run with the given ones. -/
theorem delaysDoNotChangeWhatIsReceived : Obligations.DelaysDoNotChangeWhatIsReceived := by
  intro i s t su wd hd hq h
  obtain ⟨u, t', hu, ht', htwin⟩ :=
    exec_twin (s' := { s with cfg := { s.cfg with suOver := su, wrOver := wd, hdOver := hd } })
      ⟨hq, hq, ⟨su, wd, hd, rfl⟩, rfl, rfl, rfl⟩ i
  obtain rfl := Host.Outcome.next.inj (h.symm.trans hu)
  have hsame := htwin.seenAlike ⟨rfl, rfl, rfl, rfl, rfl, rfl, rfl, rfl, rfl, rfl⟩
  exact ⟨t', ht', hsame.ctl0, hsame.ctl1, hsame.data, hsame.cs0, hsame.cs1, hsame.wr, hsame.rspErr,
    hsame.rspData⟩

/-- What a command does to the lifecycle, the clock source and the RAM does not depend on the frames
received. -/
theorem command_with_sink (c : Ctl) (sink : List Bits) (code : BitVec 8) :
    Ctl.command { c with sink := sink } code = { c.command code with sink := sink } := by
  unfold Ctl.command
  split <;> rfl

/-- Twelve bits that start `100` act as their code, whatever the trailer (10_state.md R34). -/
theorem received_command_any_trailer (c : Ctl) (v : Variant) (code : BitVec 8) (trailer : Bool) :
    let f := prefixCmd ++ bitsMSB code 8 ++ [trailer]
    c.received v f = { c.command code with sink := c.sink ++ [f] } := by
  intro f
  have hlen : f.length = 12 := by simp [f, prefixCmd]
  have hcode : (f.drop 3).take 8 = bitsMSB code 8 := by simp [f, prefixCmd]
  rw [Ctl.received, Ctl.frame, if_pos ⟨hlen, rfl⟩, hcode, fieldMSB_bitsMSB, command_with_sink]

/-- Bits that are neither a command nor a data frame lose the controller (10_state.md R34). -/
theorem received_other (c : Ctl) (v : Variant) (f : Bits)
    (hcmd : ¬ (f.length = 12 ∧ f.take 3 = prefixCmd))
    (hdata : ¬ (3 + v.aw + 1 ≤ f.length ∧ f.take 3 = prefixData)) :
    c.received v f = Ctl.lost { c with sink := c.sink ++ [f] } := by
  rw [Ctl.received, Ctl.frame, if_neg hcmd, if_neg hdata]

/-- Settles O57: one arm of `GhostFrame` each (10_state.md R34). -/
theorem ghostFrameTakesAnyBits : Obligations.GhostFrameTakesAnyBits := by
  intro c v
  refine ⟨fun code trailer => ?_, fun w a p hw hwf => ?_, fun f hcmd hdata => ?_⟩
  · have hrec := received_command_any_trailer c v code trailer
    obtain ⟨hram, -, -⟩ := Ctl.command_frame c code
    simp only [prefixCmd] at hrec
    simp only [hrec, hram, and_self]
  · have hrec := Ctl.received_data c v a w p hw
    rw [Nat.mod_eq_of_lt a.isLt] at hrec
    simp only [dataBits, prefixData] at hrec
    simp only [hrec]
    exact ⟨⟨rfl, rfl⟩, Ram.memWrite_holds _ _ _ _ _ _ (fun _ _ => rfl) hwf hw⟩
  · rw [show 4 + v.aw = 3 + v.aw + 1 by omega] at hdata
    rw [received_other c v f hcmd hdata]
    exact ⟨rfl, Ram.read_allUnknown⟩

/-! ### The statements of tier 1 -/

/-- Settles O7. -/
theorem stepRunsTheOfferedRequest : Obligations.StepRunsTheOfferedRequest := by
  intro s w rest hp hb hi
  rw [step, State.fetch_of_ready hp hb hi]
  rfl

/-- Settles O10. -/
theorem nothingIsAcceptedBeforeThePowerUpDelay :
    Obligations.NothingIsAcceptedBeforeThePowerUpDelay := by
  intro s hp hrst hforeign
  have hi : ∀ i rest, s.inbox = i :: rest → i.unconditional = false := fun i rest h =>
    (Input.unconditional_eq_false_iff i).2
      ⟨fun kind he => hrst kind rest (he ▸ h), fun he => hforeign rest (he ▸ h)⟩
  refine ⟨by simp [State.reqReady, hp], Nat.le_add_left 1000 _, ?_⟩
  rw [step, State.fetch_of_not_porDone hp hi]
  rfl

/-- Settles O11. -/
theorem responsePulseLastsOneStep : Obligations.ResponsePulseLastsOneStep := by
  refine ⟨fun s hp hi => ?_, fun s rest hp hb hi => ?_⟩
  · simp [step, State.fetch, hi, hp, State.tick]
  · rw [step, State.fetch_of_ready hp hb hi]
    rfl

/-- Settles O13. -/
theorem resetValues : Obligations.ResetValues := by
  refine ⟨rfl, rfl, rfl, rfl, rfl, rfl, rfl, rfl, rfl, rfl, rfl, rfl, rfl, rfl, rfl, rfl, rfl, rfl,
    rfl, rfl, rfl, rfl, rfl, fun k => ?_⟩
  cases k <;> exact ⟨rfl, rfl, rfl, rfl, Ram.read_nil⟩

/-- Settles O43. -/
theorem resetStateIsInForm : Obligations.ResetStateIsInForm := by
  have hctl : ∀ k, State.reset.ctl k = Ctl.powerUp := fun k => by cases k <;> rfl
  refine ⟨⟨rfl, rfl, rfl, rfl, nofun, Nat.zero_le 4⟩, rfl, ⟨rfl, rfl, by decide⟩, ?_, ?_⟩
  · intro k f hf
    rw [hctl k] at hf
    cases hf
  · intro k
    rw [hctl k]
    rfl

end Sys2Proof.Proofs
end

section
/-! Proofs of the statements of 20_memory.md: payload bits cut into nibbles, what a valid WRDATA
leaves in the RAM of its line, and a run of 4-bit writes at successive addresses. -/

namespace Sys2Proof.Machine

/-! ### Payload bits in nibbles -/

/-- The low `m` bits go over the wire first, then the bits above them (20_memory.md R44). -/
theorem bitsLSB_add {w : Nat} (v : BitVec w) (m n : Nat) :
    bitsLSB v (m + n) = bitsLSB v m ++ bitsLSB (v >>> m) n := by
  apply List.ext_getElem?
  intro i
  rw [List.getElem?_append, bitsLSB_length]
  simp only [bitsLSB_getElem?]
  by_cases hi : i < m
  · simp [hi, Nat.lt_add_right n hi]
  · simp [hi, show i < m + n ↔ i - m < n by omega, show m + (i - m) = i by omega]

/-- Whole nibbles are written before what comes after them, at the addresses below it. -/
theorem Ram.writeBits_append (m : Ram) (a : Nat) (xs ys : Bits) (h : xs.length % 4 = 0) :
    m.writeBits a (xs ++ ys) = (m.writeBits a xs).writeBits (a + xs.length / 4) ys := by
  induction m, a, xs using Ram.writeBits.induct with
  | case1 m a b0 b1 b2 b3 rest ih =>
    simp only [List.length_cons] at h
    have hlen : (b0 :: b1 :: b2 :: b3 :: rest).length / 4 = 1 + rest.length / 4 := by
      simp only [List.length_cons]; omega
    rw [hlen, ← Nat.add_assoc]
    exact ih (by omega)
  | case2 m a => rfl
  | case3 d m a h1 h2 =>
    match d, h1, h2 with
    | [], _, h2 => exact absurd rfl h2
    | [_], _, _ | [_, _], _, _ | [_, _, _], _, _ => simp at h
    | b0 :: b1 :: b2 :: b3 :: e, h1, _ => exact absurd rfl (h1 b0 b1 b2 b3 e)

/-- Payload bits leave the addresses below their own alone. -/
theorem Ram.read_writeBits_of_lt (m : Ram) (a : Nat) (d : Bits) {x : Nat} (hx : x < a) :
    (m.writeBits a d).read x = m.read x := by
  induction m, a, d using Ram.writeBits.induct with
  | case1 m a b0 b1 b2 b3 rest ih =>
    rw [Ram.writeBits, ih (by omega), Ram.read_write_ne _ _ _ _ (by omega)]
  | case2 m a => rfl
  | case3 d m a h1 h2 =>
    rw [Ram.writeBits]
    · exact Ram.read_forget_ne _ _ _ (by omega)
    · exact h1
    · exact h2

/-- Nibble `j` of the payload bits is read at address `a + j`, whatever form the RAM had
(20_memory.md R44). -/
theorem Ram.read_writeBits_nibble (m : Ram) (a : Nat) (d : Bits) (j : Nat)
    (hj : 4 * j + 4 ≤ d.length) :
    (m.writeBits a d).read (a + j) = some (fieldLSB 4 ((d.drop (4 * j)).take 4)) := by
  induction m, a, d using Ram.writeBits.induct generalizing j with
  | case1 m a b0 b1 b2 b3 rest ih =>
    rw [Ram.writeBits]
    cases j with
    | zero =>
      rw [Nat.add_zero a, Ram.read_writeBits_of_lt _ _ _ (by omega), Ram.read_write_self]
      rfl
    | succ j =>
      simp only [List.length_cons] at hj
      rw [show a + (j + 1) = a + 1 + j by omega, ih j (by omega)]
      rfl
  | case2 m a => simp at hj
  | case3 d m a h1 h2 =>
    match d, h1, hj with
    | b0 :: b1 :: b2 :: b3 :: e, h1, _ => exact absurd rfl (h1 b0 b1 b2 b3 e)

/-- `MemWrite` of a span that ends at or below the top writes the payload bits (20_memory.md R46). -/
theorem Ram.memWrite_of_le_top (m : Ram) (top a : Nat) (d : Bits) (ha : a ≤ top)
    (hd : a + (d.length + 3) / 4 ≤ top + 1) : m.memWrite top a d = m.writeBits a d := by
  unfold Ram.memWrite
  exact if_neg (by split <;> omega)

/-! ### A write -/

/-- WRDATA with valid operands is one data frame and the answer 0 (41_frame_encoder.md R107, R108). -/
theorem exec_wrdata_of_valid {k : Cs} {a : BitVec 7} {p : BitVec 16} {w : BitVec 5} {s : State}
    (ha : a.toNat ≤ (s.variant k).top) (hw : 4 ≤ w.toNat ∧ w.toNat ≤ 16) :
    exec (.wrdata k a p w) s = .next ((s.writeData k a p w.toNat).ok 0) := by
  have hok : dataWidthOk w = true := by simp [dataWidthOk, hw]
  simp [exec, execWrdata, hok, Nat.not_lt.2 ha]

/-- A write is received by the controller on its line as one data frame. -/
theorem State.writeData_ctl (s : State) (k : Cs) (a : BitVec 7) (p : BitVec 16) (w : Nat)
    (hs : s.quiet = true) (hw : 1 ≤ w ∧ w ≤ 16) :
    (s.writeData k a p w).ctl k =
      (s.ctl k).received (s.variant k) (dataBits (s.variant k).aw a w p) := by
  rw [State.writeData, State.dataFrame_eq _ _ _ _ _ _ hs (Variant.aw_bounds _) hw]
  simp [State.afterFrame_ctl]

/-- A valid address fits the address field and the operand. -/
theorem Variant.top_lt (v : Variant) : v.top < 2 ^ v.aw ∧ v.top < 2 ^ 7 := by cases v <;> decide

/-- A write whose span is valid leaves its payload bits in the RAM, the bus at rest and the variant
(20_memory.md R46). -/
theorem exec_wrdata_writeBits {k : Cs} {a : Nat} {p : BitVec 16} {w : BitVec 5} {s : State}
    (hs : s.quiet = true) (hw : 4 ≤ w.toNat ∧ w.toNat ≤ 16)
    (ha : a + (w.toNat + 3) / 4 ≤ (s.variant k).top + 1) :
    ∃ t, exec (.wrdata k (BitVec.ofNat 7 a) p w) s = .next t ∧ t.quiet = true ∧
      t.variant k = s.variant k ∧
      (t.ctl k).ram = (s.ctl k).ram.writeBits a (bitsLSB p w.toNat) := by
  obtain ⟨haw, h7⟩ := Variant.top_lt (s.variant k)
  have hle : a ≤ (s.variant k).top := by omega
  have hnat : (BitVec.ofNat 7 a).toNat = a := by rw [BitVec.toNat_ofNat]; omega
  have hexec := exec_wrdata_of_valid (a := BitVec.ofNat 7 a) (p := p) (hnat.symm ▸ hle) hw
  obtain ⟨v, heff⟩ := effect_of_exec hs hexec
  refine ⟨_, hexec, heff.quiet hs, heff.variant k, ?_⟩
  rw [State.ok_ctl, State.writeData_ctl _ _ _ _ _ hs (by omega),
    Ctl.received_data _ _ _ _ _ (by omega), hnat, Nat.mod_eq_of_lt (by omega)]
  exact Ram.memWrite_of_le_top _ _ _ _ hle (by rwa [bitsLSB_length])

/-! ### A run of 4-bit writes -/

/-- `n` writes of 4 bits on line `k`, the nibbles of `p` from the low one on, at the addresses from
`a` on. -/
def narrowWrites (k : Cs) : Nat → Nat → BitVec 16 → List Instr
  | 0, _, _ => []
  | n + 1, a, p => .wrdata k (BitVec.ofNat 7 a) p 4 :: narrowWrites k n (a + 1) (p >>> 4)

/-- A run of 4-bit writes leaves in the RAM what one write of all the bits leaves
(20_memory.md R43, R44). -/
theorem execAll_narrowWrites (k : Cs) (n a : Nat) (p : BitVec 16) (s : State)
    (hs : s.quiet = true) (ha : a + n ≤ (s.variant k).top + 1) :
    ∃ u, execAll (narrowWrites k n a p) s = some u ∧
      (u.ctl k).ram = (s.ctl k).ram.writeBits a (bitsLSB p (4 * n)) := by
  induction n generalizing a p s with
  | zero => exact ⟨s, rfl, rfl⟩
  | succ n ih =>
    obtain ⟨t, ht, htq, htv, htr⟩ :=
      exec_wrdata_writeBits (k := k) (a := a) (p := p) (w := 4) hs (by decide)
        (show a + 1 ≤ (s.variant k).top + 1 by omega)
    obtain ⟨u, hu, hur⟩ := ih (a + 1) (p >>> 4) t htq (by rw [htv]; omega)
    refine ⟨u, by rw [narrowWrites, execAll, ht]; exact hu, ?_⟩
    calc (u.ctl k).ram
        = ((s.ctl k).ram.writeBits a (bitsLSB p 4)).writeBits (a + 1)
            (bitsLSB (p >>> 4) (4 * n)) := by rw [hur, htr]; rfl
      _ = (s.ctl k).ram.writeBits a (bitsLSB p 4 ++ bitsLSB (p >>> 4) (4 * n)) := by
          rw [Ram.writeBits_append _ _ _ _ (by simp), bitsLSB_length]
      _ = (s.ctl k).ram.writeBits a (bitsLSB p (4 * (n + 1))) := by
          rw [← bitsLSB_add, show 4 + 4 * n = 4 * (n + 1) by omega]

end Sys2Proof.Machine
end

section

open Sys2Proof Sys2Proof.Machine

namespace Sys2Proof.Proofs

/-- Settles O21: both ways write the same sixteen payload bits from the same address on. -/
theorem oneWideWriteIsFourNarrowOnes : Obligations.OneWideWriteIsFourNarrowOnes := by
  intro k a p s hs ha
  obtain ⟨t, ht, -, -, htr⟩ :=
    exec_wrdata_writeBits (k := k) (a := a) (p := p) (w := 16) hs (by decide)
      (show a + 4 ≤ (s.variant k).top + 1 by omega)
  obtain ⟨u, hu, hur⟩ := execAll_narrowWrites k 4 a p s hs (by omega)
  simp only [narrowWrites, ← BitVec.shiftRight_add] at hu
  refine ⟨t, u, ht, hu, htr.trans hur.symm, fun j hj => ?_⟩
  have h16 : 4 * j + 4 ≤ 16 := by omega
  rw [htr, Ram.read_writeBits_nibble _ _ _ _ (by rwa [bitsLSB_length])]
  exact congrArg some (nibble_bitsLSB p 16 j h16)

end Sys2Proof.Proofs
end

section
/-! Proofs of the statements of 30_encoding.md: the fields of a request word, what a command code and
a data field are written as and read as, data frames as instructions of their own, and runs of host
requests that are on the bus what one operation is. -/

namespace Sys2Proof

/-! ### The request word (30_encoding.md R66) -/

/-- A field above the low part of a word is a field of the high part. -/
theorem extractLsb'_append_of_le {m n l o : Nat} {x : BitVec m} {y : BitVec n} {f : BitVec o}
    (h : n ≤ l) (hx : x.extractLsb' (l - n) o = f) : (x ++ y).extractLsb' l o = f :=
  (BitVec.extractLsb'_append_eq_of_le h).trans hx

section

variable (op : BitVec 4) (cs : BitVec 1) (rsv : BitVec 3) (width : BitVec 5) (addr : BitVec 7)
  (dat : BitVec 16)

/-- Each field of a request word is what was written there, whatever the reserved bits. -/
@[simp] theorem requestFields_append :
    let w := op ++ cs ++ rsv ++ width ++ addr ++ dat
    reqOp w = op ∧ reqCs w = cs ∧ reqWidth w = width ∧ reqAddr w = addr ∧ reqDat w = dat := by
  refine ⟨?_, ?_, ?_, ?_, BitVec.extractLsb'_append_eq_right⟩
  · iterate 4 refine extractLsb'_append_of_le (by decide) ?_
    exact BitVec.extractLsb'_append_eq_left
  · iterate 4 refine extractLsb'_append_of_le (by decide) ?_
    exact BitVec.extractLsb'_append_eq_right
  · iterate 2 refine extractLsb'_append_of_le (by decide) ?_
    exact BitVec.extractLsb'_append_eq_right
  · exact extractLsb'_append_of_le (by decide) BitVec.extractLsb'_append_eq_right

/-- The same for the word the encoder makes of the fields. -/
@[simp] theorem requestFields_mkRequest :
    let w := mkRequest op cs width addr dat
    reqOp w = op ∧ reqCs w = cs ∧ reqWidth w = width ∧ reqAddr w = addr ∧ reqDat w = dat :=
  requestFields_append op cs 0#3 width addr dat

end

/-- The line of a `cs` bit, read back. -/
theorem Cs.ofBit_toBit (k : Cs) : Cs.ofBit k.toBit = k := by cases k <;> rfl

/-- An on/off operand, read back. -/
theorem onDat_getElem_zero (on : Bool) : (onDat on)[0] = on := by cases on <;> rfl

/-! ### Bits of a frame -/

/-- Every bit list is the bits of a value. -/
theorem exists_bitsMSB_eq (bits : Bits) :
    ∃ v : BitVec bits.length, bitsMSB v bits.length = bits := by
  induction bits with
  | nil => exact ⟨0#0, rfl⟩
  | cons b bits ih =>
    obtain ⟨v, hv⟩ := ih
    have hlow : bitsMSB (v.cons b) bits.length = bitsMSB v bits.length :=
      bitsMSB_congr _ _ _ fun i hi => by rw [BitVec.getLsbD_cons, if_neg (by omega)]
    refine ⟨v.cons b, ?_⟩
    calc bitsMSB (v.cons b) (bits.length + 1)
        = (v.cons b).getLsbD bits.length :: bitsMSB (v.cons b) bits.length := rfl
      _ = b :: bits := by rw [hlow, hv, BitVec.getLsbD_cons, if_pos rfl]

/-- A field read most significant bit first holds the bits it was read from. -/
theorem bitsMSB_fieldMSB {w : Nat} {bits : Bits} (h : bits.length = w) :
    bitsMSB (fieldMSB w bits) w = bits := by
  subst h
  obtain ⟨v, hv⟩ := exists_bitsMSB_eq bits
  calc bitsMSB (fieldMSB bits.length bits) bits.length
      = bitsMSB (fieldMSB bits.length (bitsMSB v bits.length)) bits.length := by rw [hv]
    _ = bits := by rw [fieldMSB_bitsMSB, hv]

/-- A field read least significant bit first holds the bits it was read from. -/
theorem bitsLSB_fieldLSB {w : Nat} {bits : Bits} (h : bits.length = w) :
    bitsLSB (fieldLSB w bits) w = bits := by
  rw [bitsLSB, fieldLSB, bitsMSB_fieldMSB (by rwa [List.length_reverse]), List.reverse_reverse]

/-- Bit `i` of a list sent most significant bit first is bit `n-1-i` of the value. -/
theorem bitsMSB_getElem? {w : Nat} (v : BitVec w) {n i : Nat} (hi : i < n) :
    (bitsMSB v n)[i]? = some (v.getLsbD (n - 1 - i)) := by
  have h := bitsLSB_getElem? v n (n - 1 - i)
  rw [bitsLSB, List.getElem?_reverse (by rw [bitsMSB_length]; omega), bitsMSB_length] at h
  rwa [show n - 1 - (n - 1 - i) = i by omega, if_pos (by omega)] at h

/-! ### Command frames (30_encoding.md R60) -/

/-- The row of a named code is well formed, is no data frame, and is encoded as the code's frame. -/
theorem commandOf_row_of_named : ∀ code ∈ namedCodes,
    encode (commandOf code) = .frame (commandBits code) ∧ (commandOf code).wf = true ∧
      (commandOf code).frameVariant = none := by
  decide

/-- A code without a name is none of the numbers that have one (45_controller_commands.md R183). -/
theorem toNat_ne_of_unnamed {code : BitVec 8} (h : code ∉ namedCodes) :
    ∀ n ∈ namedCodes.map BitVec.toNat, code.toNat ≠ n := by
  simpa [namedCodes, ← BitVec.toNat_inj] using h

/-- A code without a name has the row of the unnamed codes. -/
theorem commandOf_of_unnamed {code : BitVec 8} (h : code ∉ namedCodes) :
    commandOf code = .cmdUnnamed code := by
  have hne := toNat_ne_of_unnamed h
  unfold commandOf
  split
  case h_13 => rfl
  all_goals
    rename_i hcode
    exact absurd hcode (hne _ (by decide))

/-- The row of the unnamed codes is well formed for the codes without a name. -/
theorem cmdUnnamed_wf_iff (code : BitVec 8) :
    (Instr.cmdUnnamed code).wf = true ↔ code ∉ namedCodes := by
  simp [Instr.wf]

/-- The row of any code is well formed, is no data frame, and is encoded as the code's frame. -/
theorem commandOf_row (code : BitVec 8) :
    encode (commandOf code) = .frame (commandBits code) ∧ (commandOf code).wf = true ∧
      (commandOf code).frameVariant = none := by
  by_cases h : code ∈ namedCodes
  · exact commandOf_row_of_named code h
  · rw [commandOf_of_unnamed h]
    exact ⟨rfl, (cmdUnnamed_wf_iff code).2 h, rfl⟩

/-- A command frame is read as the row of its code. -/
theorem decodeFrame_commandBits (v : Variant) (code : BitVec 8) :
    decodeFrame v (commandBits code) = .ok (commandOf code) := by
  change decodeCommand (bitsMSB code 8 ++ [true]) = _
  simp [decodeCommand, fieldMSB_bitsMSB]

/-- What is read as a command is the bits of its code and the trailer. -/
theorem decodeCommand_eq_ok {rest : Bits} {i : Instr} (h : decodeCommand rest = .ok i) :
    ∃ code : BitVec 8, i = commandOf code ∧ rest = bitsMSB code 8 ++ [true] := by
  unfold decodeCommand at h
  split at h
  · rename_i hlen
    split at h
    · rename_i htrailer
      refine ⟨_, (Except.ok.inj h).symm, ?_⟩
      rw [bitsMSB_fieldMSB (by rw [List.length_take]; omega), ← htrailer, List.take_append_drop]
    · cases h
  · cases h

/-! ### Data frames (30_encoding.md R62) -/

/-- What follows the leading `101` is the frame of its own address and payload fields. -/
theorem dataBits_fields {aw w : Nat} {rest : Bits} (h : (rest.drop aw).length = w) (hw : 1 ≤ w) :
    dataBits aw (fieldMSB aw (rest.take aw)) w (fieldLSB w (rest.drop aw)) = prefixData ++ rest := by
  have ha : (rest.take aw).length = aw := by
    rw [List.length_drop] at h; rw [List.length_take]; omega
  rw [dataBits, bitsMSB_fieldMSB ha, bitsLSB_fieldLSB h, List.append_assoc, List.take_append_drop]

/-- What is read as a data frame of variant A is that row's own frame. -/
theorem decodeDataA_eq_ok {rest : Bits} {i : Instr} (h : decodeDataA rest = .ok i) :
    encode i = .frame (prefixData ++ rest) ∧ i.wf = true ∧ i.frameVariant = some .A := by
  simp only [decodeDataA] at h
  split at h
  case h_14 => cases h
  all_goals
    rename_i hlen
    cases h
    exact ⟨congrArg Code.frame (dataBits_fields hlen (by decide)), rfl, rfl⟩

/-- What is read as a data frame of variant B is that row's own frame. -/
theorem decodeDataB_eq_ok {rest : Bits} {i : Instr} (h : decodeDataB rest = .ok i) :
    encode i = .frame (prefixData ++ rest) ∧ i.wf = true ∧ i.frameVariant = some .B := by
  simp only [decodeDataB] at h
  split at h
  case h_14 => cases h
  all_goals
    rename_i hlen
    cases h
    exact ⟨congrArg Code.frame (dataBits_fields hlen (by decide)), rfl, rfl⟩

/-- A data frame with six address bits is a frame for variant A. -/
theorem decodeFrame_dataBits_A {w : Nat} (a : BitVec 6) (d : BitVec w) :
    decodeFrame .A (dataBits 6 a w d) = decodeDataA (bitsMSB a 6 ++ bitsLSB d w) := rfl

/-- A data frame with seven address bits is a frame for variant B. -/
theorem decodeFrame_dataBits_B {w : Nat} (a : BitVec 7) (d : BitVec w) :
    decodeFrame .B (dataBits 7 a w d) = decodeDataB (bitsMSB a 7 ++ bitsLSB d w) := rfl

end Sys2Proof

namespace Sys2Proof.Machine

/-! ### Data frames as instructions of their own -/

/-- A frame on a bus at rest is one frame sent and nothing else. -/
theorem State.afterFrame_sentFrames (s : State) (k : Cs) (bits : Bits) :
    s.sentFrames (s.afterFrame k bits) k [bits] := by
  refine ⟨by simp [State.afterFrame], ?_, ?_, ?_, rfl, rfl, rfl, by simp [State.afterFrame]⟩
  · rw [State.afterFrame_ctl, if_pos rfl, Ctl.received_sink]
  · rw [State.afterFrame_ctl, if_pos rfl, Ctl.received_openBits]
  · rw [State.afterFrame_ctl, if_neg (by cases k <;> decide)]

/-- Bits that start `101` and are long enough for a payload on either variant move no lifecycle
(10_state.md R34). -/
theorem Ctl.received_sameLife {c : Ctl} {f : Bits} (v : Variant) (hp : f.take 3 = prefixData)
    (hlen : 11 ≤ f.length) : c.sameLife (c.received v f) := by
  have hne : ¬ (f.length = 12 ∧ f.take 3 = prefixCmd) := by
    rw [hp]; rintro ⟨-, h⟩; exact absurd h (by decide)
  have haw : v.aw ≤ 7 := by cases v <;> decide
  rw [Ctl.received, Ctl.frame, if_neg hne, if_pos ⟨by omega, hp⟩]
  exact ⟨rfl, rfl⟩

/-- Widening the operands to those of the Frame Encoder changes no bit that is sent. -/
theorem dataBits_setWidth {aw w : Nat} (a : BitVec aw) (d : BitVec w) (haw : aw ≤ 7)
    (hw : w ≤ 16) : dataBits aw (a.setWidth 7) w (d.setWidth 16) = dataBits aw a w d := by
  rw [dataBits, dataBits, bitsLSB, bitsLSB, bitsMSB_setWidth _ _ _ haw, bitsMSB_setWidth _ _ _ hw]

/-- A data frame as an instruction of its own is one frame on the selected line, the datapath and
sequencer registers aside. -/
theorem State.runData_eq (s : State) (hs : s.quiet = true) {aw w : Nat} (a : BitVec aw)
    (d : BitVec w) (haw : 1 ≤ aw ∧ aw ≤ 7) (hw : 1 ≤ w ∧ w ≤ 16) :
    ∃ r, s.runData a d =
      ((((s.afterFrame s.feCs (dataBits aw a w d)).loadFe r (a.setWidth 7)).loadBt r 0).setSi
        2).frameEnd := by
  refine ⟨rev (d.setWidth 16) w, ?_⟩
  rw [State.runData, State.dataFrame_eq _ _ _ _ _ _ hs (by omega) hw,
    dataBits_setWidth a d haw.2 hw.2]

/-- A data frame with the address width of `v`, as an instruction of its own: one frame on the
selected line, which moves no lifecycle and no response, and a `MemWrite` on a controller of variant
`v` (30_encoding.md R62, 20_memory.md R46). -/
theorem State.runData_writes (s : State) (hs : s.quiet = true)
    (hwf : (s.ctl s.feCs).ram.wf = true) (v : Variant) {w : Nat} (hw : 4 ≤ w ∧ w ≤ 16)
    (a : BitVec v.aw) (d : BitVec w) :
    let t := s.runData a d
    s.tookData t s.feCs v.aw a w d ∧ s.sameResponse t ∧ (s.variant s.feCs = v →
      Ram.holds (s.ctl s.feCs).ram (t.ctl s.feCs).ram v.top a.toNat w (d.setWidth 16)) := by
  intro t
  have haw : 6 ≤ v.aw ∧ v.aw ≤ 7 := by cases v <;> decide
  obtain ⟨r, hr⟩ := s.runData_eq hs a d (by omega) (by omega)
  have hctl : t.ctl s.feCs =
      (s.ctl s.feCs).received (s.variant s.feCs) (dataBits v.aw a w d) := by
    simp [t, hr, State.afterFrame_ctl]
  refine ⟨⟨?_, ?_, (Effect.runData hs a d hw).sameFixed⟩, ?_, fun hv => ?_⟩
  · simp only [t, hr]
    exact s.afterFrame_sentFrames s.feCs _
  · rw [hctl]
    exact Ctl.received_sameLife _ rfl (by rw [dataBits_length]; omega)
  · simp only [t, hr]
    exact ⟨rfl, rfl, rfl, rfl⟩
  · have hbits : ∀ i, i < w → d.getLsbD i = (d.setWidth 16).getLsbD i := fun i hi => by
      simp; omega
    rw [hctl, hv, Ctl.received_data _ _ _ _ _ (by omega), Nat.mod_eq_of_lt a.isLt]
    exact Ram.memWrite_holds _ _ _ _ _ _ hbits hwf (by omega)

/-! ### Runs that are the same on the bus (30_encoding.md R74) -/

/-- A write changes no variant. -/
theorem State.writeData_variant (s : State) (hs : s.quiet = true) (k : Cs) (a : BitVec 7)
    (p : BitVec 16) {w : BitVec 5} (hw : 4 ≤ w.toNat ∧ w.toNat ≤ 16) :
    (s.writeData k a p w.toNat).variant k = s.variant k :=
  (Effect.writeData .start hs a p w.toNat hw).variant k

/-- Two states with the bus at rest and the same trace, pins and controllers, which go on alike: they
have the same configuration and variants. -/
structure State.BusAlike (s t : State) : Prop where
  quiet : s.quiet = true
  bus : s.sameBus t
  cfg : t.cfg = s.cfg
  variant0 : t.variant0 = s.variant0
  variant1 : t.variant1 = s.variant1

/-- A state at rest is alike to itself. -/
theorem State.BusAlike.refl {s : State} (hs : s.quiet = true) : s.BusAlike s :=
  ⟨hs, ⟨rfl, rfl, rfl, rfl, rfl, rfl, rfl⟩, rfl, rfl, rfl⟩

section

variable {s t : State} (h : s.BusAlike t)
include h

/-- Both are at rest. -/
theorem State.BusAlike.quiet' : t.quiet = true := h.bus.quiet h.quiet

/-- Both have the same variant on each line. -/
theorem State.BusAlike.variant (k : Cs) : t.variant k = s.variant k := by
  cases k
  · exact h.variant0
  · exact h.variant1

/-- The same frame on both leaves them alike. -/
theorem State.BusAlike.afterFrame (k : Cs) (bits : Bits) :
    (s.afterFrame k bits).BusAlike (t.afterFrame k bits) := by
  obtain ⟨htr, h0, h1, hw, hd, hc0, hc1⟩ := h.bus
  refine ⟨s.afterFrame_quiet k bits h.quiet, ⟨?_, h0, h1, hw, ?_, ?_, ?_⟩, h.cfg, h.variant0,
    h.variant1⟩
  · simp only [State.afterFrame, htr, h.cfg]
  · simp only [State.afterFrame, hd]
  · simp only [State.afterFrame, hc0, h.variant0]
  · simp only [State.afterFrame, hc1, h.variant1]

/-- The same command frame on both leaves them alike. -/
theorem State.BusAlike.commandFrame (k : Cs) (code : BitVec 8) :
    (s.commandFrame k code).BusAlike (t.commandFrame k code) := by
  rw [State.commandFrame_eq _ _ _ h.quiet, State.commandFrame_eq _ _ _ h.quiet']
  exact { h.afterFrame k (commandBits code) with }

/-- The same write on both leaves them alike. -/
theorem State.BusAlike.writeData (k : Cs) (a : BitVec 7) (p : BitVec 16) {w : Nat}
    (hw : 1 ≤ w ∧ w ≤ 16) : (s.writeData k a p w).BusAlike (t.writeData k a p w) := by
  rw [State.writeData, State.writeData, h.variant k,
    State.dataFrame_eq _ _ _ _ _ _ h.quiet (Variant.aw_bounds _) hw,
    State.dataFrame_eq _ _ _ _ _ _ h.quiet' (Variant.aw_bounds _) hw]
  exact { h.afterFrame k (dataBits (s.variant k).aw a w p) with }

/-- A valid WRDATA on the one side and its data frame on the other leave them alike. -/
theorem State.BusAlike.wrdata_cons (k : Cs) {a : BitVec 7} (p : BitVec 16) {w : BitVec 5}
    (ha : a.toNat ≤ (t.variant k).top) (hw : 4 ≤ w.toNat ∧ w.toNat ≤ 16) (is : List Instr) :
    ∃ u, execAll (.wrdata k a p w :: is) s = execAll is u ∧
      u.BusAlike (t.writeData k a p w.toNat) := by
  rw [h.variant k] at ha
  refine ⟨(s.writeData k a p w.toNat).ok 0, ?_, { h.writeData k a p (by omega) with }⟩
  rw [execAll, exec_wrdata_of_valid ha hw]

/-- So do a run of SENDCMD and a run of command frames. -/
theorem State.BusAlike.execAll_sendcmds (k : Cs) (codes : List (BitVec 8)) :
    ∃ u, execAll (codes.map (.sendcmd k)) s = some u ∧ u.BusAlike (t.commands k codes) := by
  induction codes generalizing s t with
  | nil => exact ⟨s, rfl, h⟩
  | cons code codes ih =>
    have hok : ((s.commandFrame k code).ok 0).BusAlike (t.commandFrame k code) :=
      { h.commandFrame k code with }
    exact ih hok

/-- So do a run of 4-bit WRDATA at successive valid addresses and the filling of them. -/
theorem State.BusAlike.execAll_fill (k : Cs) (nib : Nibble) (n a : Nat)
    (ha : a + n ≤ (t.variant k).top + 1) :
    ∃ u, execAll ((List.range' a n).map fun x => .wrdata k (BitVec.ofNat 7 x) (nib.setWidth 16) 4) s
        = some u ∧ u.BusAlike (State.fill k nib n a t) := by
  induction n generalizing a s t with
  | zero => exact ⟨s, rfl, h⟩
  | succ n ih =>
    have htop : (BitVec.ofNat 7 a).toNat ≤ (t.variant k).top := by
      rw [BitVec.toNat_ofNat]; omega
    obtain ⟨u, hu, hut⟩ := h.wrdata_cons k (nib.setWidth 16) (w := 4) htop (by decide) _
    have hv := t.writeData_variant h.quiet' k (BitVec.ofNat 7 a) (nib.setWidth 16) (w := 4)
      (by decide)
    rw [List.range'_succ, List.map_cons, hu]
    exact ih hut (a + 1) (by rw [hv]; omega)

end

/-- A digit slot of variant A is a valid address (42_address_element_map.md R121, R122). -/
theorem digitSlot_A_of_le {position : BitVec 7} (h : position.toNat ≤ 14) :
    digitSlot .A position = some (0x04 + 4 * position) ∧
      (0x04 + 4 * position : BitVec 7).toNat ≤ Variant.top .A := by
  refine ⟨if_pos h, ?_⟩
  simp only [Variant.top]
  bv_omega

/-- An address of the configuration's tables for variant B is a valid address. -/
theorem toNat_ofNat_fin_le_top (a : Fin 82) : (BitVec.ofNat 7 a.val).toNat ≤ Variant.top .B := by
  simp only [Variant.top, BitVec.toNat_ofNat]
  omega

end Sys2Proof.Machine
end

section

open Sys2Proof Sys2Proof.Machine

namespace Sys2Proof.Proofs

/-! ### The statement of tier 3 -/

/-- Settles O1: a request word gives back its fields, a command frame its code, a data frame its
address and payload. -/
theorem decodeOfEncodeIsTheInstruction : Obligations.DecodeOfEncodeIsTheInstruction := by
  intro i v hwf hfit
  cases i with
  | sendbits | sendcmd | wrdata | revbits | resolveDigit | resolveInd | glyph | unassigned7 | init
  | allset | renderDigit | renderChar | setInd | pwrOn | pwrOff | unassignedF =>
    simp [encode, decode, decodeRequest, Cs.ofBit_toBit, onDat_getElem_zero]
  | sysDis | sysEn | lcdOff | lcdOn | timerDis | wdtDis | toneOff | rcSel | tone4k40 | tone4k60
  | irqDis | irqEn => exact decodeFrame_commandBits v _
  | cmdUnnamed code =>
    have hrow := commandOf_of_unnamed ((cmdUnnamed_wf_iff code).1 hwf)
    exact (decodeFrame_commandBits v code).trans (congrArg Except.ok hrow)
  | dataAW4 | dataAW5 | dataAW6 | dataAW7 | dataAW8 | dataAW9 | dataAW10 | dataAW11 | dataAW12
  | dataAW13 | dataAW14 | dataAW15 | dataAW16 =>
    obtain rfl : Variant.A = v := by simpa [Instr.fits, Instr.frameVariant] using hfit
    simp [encode, decode, decodeFrame_dataBits_A, decodeDataA, fieldMSB_bitsMSB, fieldLSB_bitsLSB]
  | dataBW4 | dataBW5 | dataBW6 | dataBW7 | dataBW8 | dataBW9 | dataBW10 | dataBW11 | dataBW12
  | dataBW13 | dataBW14 | dataBW15 | dataBW16 =>
    obtain rfl : Variant.B = v := by simpa [Instr.fits, Instr.frameVariant] using hfit
    simp [encode, decode, decodeFrame_dataBits_B, decodeDataB, fieldMSB_bitsMSB, fieldLSB_bitsLSB]

/-! ### The statements of tier 2 -/

/-- Settles O2: the first three bits say which reader has read the bits, and each reads its own rows'
frames only. -/
theorem frameHasOneMeaning : Obligations.FrameHasOneMeaning := by
  intro v bits i h
  unfold decodeFrame at h
  split at h
  · obtain ⟨code, rfl, rfl⟩ := decodeCommand_eq_ok h
    obtain ⟨hcode, hwf, hv⟩ := commandOf_row code
    exact ⟨hcode, hwf, by rw [Instr.fits, hv]⟩
  · cases v with
    | A =>
      obtain ⟨hcode, hwf, hv⟩ := decodeDataA_eq_ok h
      exact ⟨hcode, hwf, by rw [Instr.fits, hv]; rfl⟩
    | B =>
      obtain ⟨hcode, hwf, hv⟩ := decodeDataB_eq_ok h
      exact ⟨hcode, hwf, by rw [Instr.fits, hv]; rfl⟩
  · cases h

/-- Settles O3: each field of the word is read back (`requestFields_append`), and nothing else is
looked at. -/
theorem requestFieldsAreReadAndTheRestIgnored :
    Obligations.RequestFieldsAreReadAndTheRestIgnored := by
  intro cs rsv width addr dat word
  simp [word, decodeRequest]

/-- Settles O6. -/
theorem dataFrameLayout : Obligations.DataFrameLayout := by
  intro v address w payload f
  refine ⟨dataBits_length _ _ _ _, rfl, fun i hi => ?_, fun j hj => ?_, rfl, rfl⟩
  · have hbit := bitsMSB_getElem? address hi
    simpa [f, dataBits, prefixData, List.getElem?_append, hi, Nat.add_comm 3 i] using hbit
  · have hlen : (prefixData ++ bitsMSB address v.aw).length = 3 + v.aw := by
      rw [List.length_append, bitsMSB_length]; rfl
    calc f[3 + v.aw + j]? = (bitsLSB payload w)[j]? := by
          refine (List.getElem?_append_right (by omega)).trans ?_
          rw [hlen, Nat.add_sub_cancel_left]
      _ = some (payload.getLsbD j) := by rw [bitsLSB_getElem?, if_pos hj]

/-- Settles O35: request by request, the expansion stays alike to the operation's own frames
(`State.BusAlike`). -/
theorem expansionsAreTheSameOnTheBus : Obligations.ExpansionsAreTheSameOnTheBus := by
  intro k s hs
  have h := State.BusAlike.refl hs
  refine ⟨?_, ?_, ?_, fun on => ?_, fun position index p hv hpos hp => ?_,
    fun position value al ah nl nh hv haddr hnib => ?_, fun name on a hv ha => ?_⟩
  · obtain ⟨u, hu, hut⟩ := h.execAll_sendcmds k initCodes
    exact ⟨_, u, rfl, hu, hut.bus⟩
  · obtain ⟨u, hu, hut⟩ := h.execAll_sendcmds k [0x03]
    exact ⟨_, u, rfl, hu, hut.bus⟩
  · obtain ⟨u, hu, hut⟩ := h.execAll_sendcmds k [0x02]
    exact ⟨_, u, rfl, hu, hut.bus⟩
  · have hnib : (allNibble on).setWidth 16 = if on then (0xF : BitVec 16) else 0x0 := by
      cases on <;> rfl
    obtain ⟨u, hu, hut⟩ := h.execAll_fill k (allNibble on) ((s.variant k).top + 1) 0 (by omega)
    rw [hnib, ← List.range_eq_range'] at hu
    exact ⟨_, u, rfl, hu, hut.bus⟩
  · obtain ⟨hslot, htop⟩ := digitSlot_A_of_le hpos
    have hexec : exec (.renderChar k position index) s =
        .next ((s.writeData k (0x04 + 4 * position) p 16).ok 0) := by
      simp only [exec, execRenderChar, hv, hslot, glyphOf, hp]
    obtain ⟨u, hu, hut⟩ := h.wrdata_cons k p (w := 16) (hv ▸ htop) (by decide) []
    exact ⟨_, u, hexec, hu, hut.bus⟩
  · have hexec : exec (.renderDigit k position value) s =
        .next (((s.writeData k (BitVec.ofNat 7 al.val) (nl.setWidth 16) 4).writeData k
          (BitVec.ofNat 7 ah.val) (nh.setWidth 16) 4).ok 0) := by
      simp only [exec, execRenderDigit, hv, digitPair, digitB, haddr, hnib]
    have hv' := s.writeData_variant hs k (BitVec.ofNat 7 al.val) (nl.setWidth 16) (w := 4)
      (by decide)
    obtain ⟨u₁, hu₁, hut₁⟩ := h.wrdata_cons k (nl.setWidth 16) (w := 4)
      (hv ▸ toNat_ofNat_fin_le_top al) (by decide)
      [.wrdata k (BitVec.ofNat 7 ah.val) (nh.setWidth 16) 4]
    obtain ⟨u, hu, hut⟩ := hut₁.wrdata_cons k (nh.setWidth 16) (w := 4)
      (by rw [hv', hv]; exact toNat_ofNat_fin_le_top ah) (by decide) []
    exact ⟨_, u, hexec, hu₁.trans hu, hut.bus⟩
  · have hnib : (indNibble on).setWidth 16 = if on then (0b0100 : BitVec 16) else 0b0000 := by
      cases on <;> rfl
    have hexec : exec (.setInd k name on) s = .next ((s.writeData k (BitVec.ofNat 7 a.val)
        (if on then 0b0100 else 0b0000) 4).ok 0) := by
      simp only [exec, execSetInd, hv, indicator, indB, ha, hnib]
    obtain ⟨u, hu, hut⟩ := h.wrdata_cons k _ (w := 4) (hv ▸ toNat_ofNat_fin_le_top a) (by decide) []
    exact ⟨_, u, hexec, hu, hut.bus⟩

/-- Settles O38: `State.runData_writes` at each payload width, with the address width of A. -/
theorem dataFramesOfVariantAWriteTheirNibbles :
    Obligations.DataFramesOfVariantAWriteTheirNibbles := by
  intro s hs hwf k
  and_intros
  all_goals exact fun a d => ⟨_, rfl, s.runData_writes hs hwf .A (by decide) a d⟩

/-- Settles O39: `State.runData_writes` at each payload width, with the address width of B. -/
theorem dataFramesOfVariantBWriteTheirNibbles :
    Obligations.DataFramesOfVariantBWriteTheirNibbles := by
  intro s hs hwf k
  and_intros
  all_goals exact fun a d => ⟨_, rfl, s.runData_writes hs hwf .B (by decide) a d⟩

/-! ### The statements of tier 1 -/

/-- Settles O4. -/
theorem writtenOutWordsDecode : Obligations.WrittenOutWordsDecode := by
  unfold Obligations.WrittenOutWordsDecode
  decide

/-- Settles O5. -/
theorem commandFrameLayout : Obligations.CommandFrameLayout := by
  intro cmd
  obtain ⟨hencode, -, -⟩ := commandOf_row cmd
  refine ⟨commandBits_length cmd, rfl, fun i hi => ?_, rfl, ?_, hencode⟩
  · have hbit := bitsMSB_getElem? cmd hi
    simpa [commandBits, prefixCmd, List.getElem?_append, hi, Nat.add_comm 3 i] using hbit
  · have hprefix : natOfMSB prefixCmd = 4 ∧ natOfMSB [true] = 1 := by decide
    rw [commandBits, natOfMSB_append, natOfMSB_append, natOfMSB_bitsMSB, Nat.mod_eq_of_lt cmd.isLt,
      bitsMSB_length, hprefix.1, hprefix.2, List.length_singleton]
    omega

/-- Settles O9. -/
theorem bitsThatAreNoFrameAreNotSent : Obligations.BitsThatAreNoFrameAreNotSent := by
  intro s k bits e rest hp hb hi he
  have hv : State.variant { s with inbox := rest } k = s.variant k := by cases k <;> rfl
  rw [step, State.fetch_of_ready hp hb hi, State.takeInput, State.takeFrame, hv, he]

end Sys2Proof.Proofs
end

section
/-! Proofs of the statements of 40_bit_transmitter.md: the timing contract of the bus over the whole
trace, what a SENDBITS does to the state, and the clock edges of its bit slots. -/

namespace Sys2Proof.Machine

/-! ### The timing contract (40_bit_transmitter.md R84) -/

/-- Every bound has been met so far, `WR` is high, and it has been so for at least the hold time. -/
def Monitor.Timely (m : Monitor) : Prop := m.ok = true ∧ m.wr = true ∧ 1 ≤ m.sinceRise

/-- A state keeps the contract when the monitor of its trace does. -/
theorem State.timely_iff (s : State) : s.Timely ↔ (monitorOf s.tr).Timely := Iff.rfl

/-- The monitor goes on from where it was. -/
theorem monitorOf_append (xs ys : List Event) :
    monitorOf (xs ++ ys) = ys.foldl Monitor.see (monitorOf xs) :=
  List.foldl_append

/-- The events `evs` meet every bound, wherever they come in a trace that met them, and end with `WR`
high for at least the hold time. -/
def KeepsTiming (evs : List Event) : Prop :=
  ∀ m : Monitor, m.Timely → (evs.foldl Monitor.see m).Timely

/-- Event lists that keep the contract keep it one after the other. -/
theorem KeepsTiming.append {xs ys : List Event} (hx : KeepsTiming xs) (hy : KeepsTiming ys) :
    KeepsTiming (xs ++ ys) := by
  intro m hm
  rw [List.foldl_append]
  exact hy _ (hx m hm)

/-- Time that passes with `WR` high breaks no bound. -/
theorem keepsTiming_wait (n : Nat) : KeepsTiming [.wait n] :=
  fun _ ⟨hok, hwr, hrise⟩ => ⟨hok, hwr, hrise.trans (Nat.le_add_right _ n)⟩

/-- No bound is on a chip-select. -/
theorem keepsTiming_setCs (k : Cs) (b : Bool) : KeepsTiming [.set (.cs k) b] := fun _ hm => hm

/-- The least delays of R6 meet the bounds of R84 in every slot: the hold of one slot and the setup of
the next are 2 units from the rise of `WR` to `DATA`, a write delay more is 4 to its fall; two write
delays are 4 units from `DATA` to the rise, one is 2 from the fall. -/
theorem keepsTiming_slotEvents (c : Config) (b : Bool) : KeepsTiming (slotEvents c b) := by
  intro m ⟨hok, hwr, hrise⟩
  have hsu : 1 ≤ c.dSU := Nat.le_add_left 1 _
  have hwd : 2 ≤ c.dWR := Nat.le_add_left 2 _
  have hhd : 1 ≤ c.dHD := Nat.le_add_left 1 _
  have hdata : 2 ≤ m.sinceRise + c.dSU := by omega
  have hfall : 4 ≤ m.sinceRise + c.dSU + c.dWR := by omega
  have hup : 4 ≤ c.dWR + c.dWR := by omega
  refine ⟨?_, rfl, ?_⟩
  · simp [slotEvents, Monitor.see, hok, hwr, hdata, hfall, hup, hwd]
  · simpa [slotEvents, Monitor.see] using hhd

/-- A run of bits keeps the contract, slot by slot. -/
theorem keepsTiming_bitsEvents (c : Config) (bits : Bits) : KeepsTiming (bitsEvents c bits) := by
  induction bits with
  | nil => exact fun _ hm => hm
  | cons b bits ih => exact (keepsTiming_slotEvents c b).append ih

/-- An edge of a chip-select between two waits keeps the contract (41_frame_encoder.md R104, R105). -/
theorem keepsTiming_bracket (n : Nat) (k : Cs) (b : Bool) :
    KeepsTiming [.wait n, .set (.cs k) b, .wait n] :=
  (keepsTiming_wait n).append ((keepsTiming_setCs k b).append (keepsTiming_wait n))

/-- A frame keeps the contract. -/
theorem keepsTiming_frameEvents (c : Config) (k : Cs) (bits : Bits) :
    KeepsTiming (frameEvents c k bits) :=
  ((keepsTiming_bracket c.dSU k false).append (keepsTiming_bitsEvents c bits)).append
    (keepsTiming_bracket c.dSU k true)

/-- A trace that met the contract meets it after events that keep it. -/
theorem State.Timely.of_append {s t : State} {evs : List Event} (h : s.Timely)
    (htr : t.tr = s.tr ++ evs) (he : KeepsTiming evs) : t.Timely := by
  rw [State.timely_iff] at *
  rw [htr, monitorOf_append]
  exact he _ h

/-- An effect keeps the contract. -/
theorem Effect.timely {v : Variant} {k : Cs} {s t : State} (h : Effect v k s t) (hs : s.Timely) :
    t.Timely := by
  induction h with
  | start => exact hs
  | frame bits _ _ ih => exact ih.of_append rfl (keepsTiming_frameEvents _ _ _)
  | bits bits _ ih => exact ih.of_append rfl (keepsTiming_bitsEvents _ _)
  | _ => assumption

/-! ### What SENDBITS does -/

/-- A SENDBITS with a width in 1..16 is the run of its bits, with `sh` at the value and `cnt` run down
(40_bit_transmitter.md R80, R86). -/
theorem exec_sendbits_of_valid {value : BitVec 16} {n : BitVec 5} {s : State} (hw : s.wr = true)
    (hn : 1 ≤ n.toNat ∧ n.toNat ≤ 16) :
    exec (.sendbits value n) s =
      .next (((s.afterBits (bitsMSB value n.toNat)).loadBt value 0).ok 0) := by
  have hok : transmitWidthOk n = true := by simp [transmitWidthOk, hn]
  rw [exec, execSendbits, if_pos hok, State.sendBits_eq _ _ _ hw hn.1 hn.2]

/-- A SENDBITS with any other width is rejected (40_bit_transmitter.md R90). -/
theorem exec_sendbits_of_invalid {value : BitVec 16} {n : BitVec 5} {s : State}
    (hn : n.toNat = 0 ∨ 16 < n.toNat) :
    exec (.sendbits value n) s = .next (s.raise .invalidWidth) := by
  have hbad : ¬ transmitWidthOk n = true := by simp [transmitWidthOk]; omega
  rw [exec, execSendbits, if_neg hbad]

/-- The last of the bits sent is bit 0 (40_bit_transmitter.md R80). -/
theorem getLastD_bitsMSB {w : Nat} (v : BitVec w) {n : Nat} (hn : 1 ≤ n) (d : Bool) :
    (bitsMSB v n).getLastD d = v.getLsbD 0 := by
  have hlast := bitsMSB_getElem? v (n := n) (i := n - 1) (by omega)
  rw [Nat.sub_self] at hlast
  rw [List.getLastD_eq_getLast?, List.getLast?_eq_getElem?, bitsMSB_length, hlast]
  rfl

/-- A run of bits is gathered by the selected controllers and by no other (40_bit_transmitter.md R88,
R89). -/
theorem State.afterBits_ctl_eq (s : State) (bits : Bits) (j : Cs) :
    (s.afterBits bits).ctl j = if s.csPin j then s.ctl j else (s.ctl j).gathered bits := by
  cases j <;> rfl

/-! ### The reference schedule (40_bit_transmitter.md R85) -/

/-- The events of the first `n` bits, seven a slot. -/
theorem take_bitsEvents (c : Config) (bits : Bits) (n : Nat) :
    (bitsEvents c bits).take (7 * n) = bitsEvents c (bits.take n) := by
  induction bits generalizing n with
  | nil => simp
  | cons b bits ih =>
    cases n with
    | zero => rfl
    | succ n =>
      have hlen : (slotEvents c b).length = 7 := rfl
      rw [List.take_succ_cons, bitsEvents_cons, bitsEvents_cons, ← ih n, Nat.mul_succ, Nat.add_comm,
        ← hlen, List.take_length_add_append]

section

variable {c : Config} (h : referenceSchedule c)
include h

/-- The pin changes of a slot that starts at edge `u`, and of what follows it 6 units later. -/
theorem edges_slotEvents (u : Nat) (b : Bool) (evs : List Event) :
    edges u (slotEvents c b ++ evs) =
      (u + 1, .data, b) :: (u + 3, .wr, false) :: (u + 5, .wr, true) :: edges (u + 6) evs := by
  obtain ⟨hsu, hwr, hhd, -⟩ := h
  simp [slotEvents, edges, hsu, hwr, hhd]

/-- A bit takes 6 units. -/
theorem duration_bitsEvents (bits : Bits) : duration (bitsEvents c bits) = 6 * bits.length := by
  obtain ⟨hsu, hwr, hhd, -⟩ := h
  induction bits with
  | nil => rfl
  | cons b bits ih =>
    have hslot : duration (slotEvents c b) = 6 := by
      simp [duration, slotEvents, Event.units, hsu, hwr, hhd]
    rw [bitsEvents_cons, duration_append, hslot, ih, List.length_cons, Nat.mul_succ, Nat.add_comm]

/-- A bit has three pin changes. -/
theorem length_edges_bitsEvents (bits : Bits) (u : Nat) :
    (edges u (bitsEvents c bits)).length = 3 * bits.length := by
  induction bits generalizing u with
  | nil => rfl
  | cons b bits ih =>
    rw [bitsEvents_cons, edges_slotEvents h]
    simp only [List.length_cons, ih]
    omega

/-- The pin changes of bit number `j`. -/
theorem edges_bitsEvents_getElem? {bits : Bits} {j : Nat} {b : Bool} (hb : bits[j]? = some b)
    (u : Nat) :
    (edges u (bitsEvents c bits))[3 * j]? = some (u + 6 * j + 1, .data, b) ∧
      (edges u (bitsEvents c bits))[3 * j + 1]? = some (u + 6 * j + 3, .wr, false) ∧
      (edges u (bitsEvents c bits))[3 * j + 2]? = some (u + 6 * j + 5, .wr, true) := by
  induction bits generalizing j u with
  | nil => cases hb
  | cons a bits ih =>
    rw [bitsEvents_cons, edges_slotEvents h]
    cases j with
    | zero =>
      obtain rfl : a = b := by simpa using hb
      exact ⟨rfl, rfl, rfl⟩
    | succ j =>
      have hrest := ih (j := j) (by simpa using hb) (u + 6)
      rw [show u + 6 * (j + 1) = u + 6 + 6 * j by omega]
      exact hrest

end

end Sys2Proof.Machine
end

section

open Sys2Proof Sys2Proof.Machine

namespace Sys2Proof.Proofs

/-! ### The statement of tier 3 -/

/-- Settles O46: every frame and every run of bits keeps the contract, slot by slot; the power-up delay
is only time, and a reset starts a new trace. -/
theorem stepKeepsTheTimingContract : Obligations.StepKeepsTheTimingContract := by
  intro s t ⟨hq, _⟩ hs h
  cases step_stepped hq h with
  | powerUp => exact hs.of_append rfl (keepsTiming_wait _)
  | @effect u _ v k _ hu he =>
    obtain ⟨htr, -⟩ := hu.bus
    have htimely : u.Timely := by rwa [State.timely_iff, htr]
    exact he.timely htimely
  | reset =>
    have hstart : Monitor.start.Timely := ⟨rfl, rfl, by decide⟩
    exact hstart

/-! ### The statements of tier 2 -/

/-- Settles O15. -/
theorem sendbitsSendsItsBitsMsbFirst : Obligations.SendbitsSendsItsBitsMsbFirst := by
  intro value bitCount s hw n
  refine ⟨fun hn => ?_, exec_sendbits_of_invalid⟩
  refine ⟨_, exec_sendbits_of_valid hw hn, ⟨rfl, rfl, rfl, rfl⟩, rfl, hw, rfl, rfl,
    getLastD_bitsMSB value hn.1 s.data, fun k hk => ?_, fun k hk => ?_,
    ⟨rfl, rfl, rfl, rfl, rfl, rfl, rfl, rfl, rfl, rfl⟩, rfl, rfl, rfl⟩
  · rw [State.ok_ctl, State.loadBt_ctl, State.afterBits_ctl_eq, if_pos hk]
  · rw [State.ok_ctl, State.loadBt_ctl, State.afterBits_ctl_eq, if_neg (by simp [hk])]
    rfl

/-- Settles O54: the events are those of the bits sent, 6 units and three pin changes a bit. -/
theorem referenceScheduleOfSendbits : Obligations.ReferenceScheduleOfSendbits := by
  intro value bitCount s hw href h1 h16 n
  refine ⟨_, bitsEvents s.cfg (bitsMSB value n), exec_sendbits_of_valid hw ⟨h1, h16⟩, rfl,
    fun u j hj => ?_, fun u => ?_, ?_⟩
  · obtain ⟨hdata, hfall, hrise⟩ := edges_bitsEvents_getElem? href (bitsMSB_getElem? value hj) u
    refine ⟨hdata, hfall, hrise, ?_⟩
    rw [take_bitsEvents, duration_bitsEvents href, List.length_take, bitsMSB_length]
    omega
  · rw [length_edges_bitsEvents href, bitsMSB_length]
  · rw [duration_bitsEvents href, bitsMSB_length]

end Sys2Proof.Proofs
end

section
/-! Proofs of the statements of 41_frame_encoder.md: which frames reach the controllers, what
REVBITS, SENDCMD and WRDATA do to the state, and how long frames and the operations made of them
take. -/

namespace Sys2Proof

/-! ### Which line and which frames (30_encoding.md R65, R67) -/

/-- A data frame goes to the line the Frame Encoder has selected. -/
theorem Instr.line_of_frameVariant {i : Instr} {v : Variant} (h : i.frameVariant = some v)
    (feCs : Cs) : i.line feCs = feCs := by
  cases i with
  | dataAW4 | dataAW5 | dataAW6 | dataAW7 | dataAW8 | dataAW9 | dataAW10 | dataAW11 | dataAW12
  | dataAW13 | dataAW14 | dataAW15 | dataAW16 | dataBW4 | dataBW5 | dataBW6 | dataBW7 | dataBW8
  | dataBW9 | dataBW10 | dataBW11 | dataBW12 | dataBW13 | dataBW14 | dataBW15 | dataBW16 => rfl
  | _ => cases h

/-- A host request sends frames of the line's own variant. -/
theorem decodeRequest_fits (w : Request) (v : Variant) : (decodeRequest w).fits v = true := by
  unfold decodeRequest
  split <;> rfl

/-- The instruction a controller of variant `v` reads from a frame on line `k` fits the line it goes
to. -/
theorem fits_line_of_decodeFrame {s : Machine.State} {k : Cs} {bits : Bits} {i : Instr}
    (h : decodeFrame (s.variant k) bits = .ok i) : i.fits (s.variant (i.line k)) = true := by
  obtain ⟨-, -, hfit⟩ := Proofs.frameHasOneMeaning _ bits i h
  unfold Instr.fits at *
  cases hv : i.frameVariant with
  | none => rfl
  | some u => simpa [hv, Instr.line_of_frameVariant hv] using hfit

end Sys2Proof

namespace Sys2Proof.Machine

/-! ### Only frames reach the controllers (41_frame_encoder.md R110) -/

section

variable {k : Cs} {s t : State}

/-- An effect on one line leaves the controller on the other alone. -/
theorem Effect.ctl_of_ne {v : Variant} (h : Effect v k s t) (hs : s.quiet = true) {j : Cs}
    (hj : k ≠ j) : t.ctl j = s.ctl j := by
  induction h with
  | start => rfl
  | frame bits _ _ ih => rwa [State.afterFrame_ctl, if_neg hj]
  | bits bits he ih => rwa [State.afterBits_ctl _ _ _ (he.quiet hs)]
  | _ => assumption

/-- An effect of the line's own variant keeps the sinks to frames: on its line by
`Effect.sink_isFrame`, and the other line receives nothing. -/
theorem Effect.onlyFrames (h : Effect (s.variant k) k s t) (hs : s.quiet = true)
    (h0 : s.OnlyFrames) : t.OnlyFrames := by
  intro j
  rw [h.variant j]
  by_cases hj : k = j
  · subst hj
    exact h.sink_isFrame hs (h0 k)
  · rw [h.ctl_of_ne hs hj]
    exact h0 j

/-- So does every instruction that fits the line its frames go to. -/
theorem exec_onlyFrames {i : Instr} (hs : s.quiet = true)
    (hfit : i.fits (s.variant (i.line s.feCs)) = true) (h : exec i s = .next t)
    (h0 : s.OnlyFrames) : t.OnlyFrames := by
  obtain ⟨t', ht', he⟩ := exec_effect i s hs
  obtain rfl := Host.Outcome.next.inj (h.symm.trans ht')
  rw [sentAs_of_fits _ _ hfit] at he
  exact he.onlyFrames hs h0

/-- Taking an input in adds no frame. -/
theorem State.TakenIn.onlyFrames {u : State} (hu : s.TakenIn u) (h0 : s.OnlyFrames) :
    u.OnlyFrames := by
  intro j
  rw [hu.bus.ctl, hu.variant]
  exact h0 j

/-- After a reset no frame has been received. -/
theorem State.takeReset_onlyFrames (s : State) (kind : ResetKind) :
    (s.takeReset kind).OnlyFrames := by
  intro j f hf
  obtain ⟨-, hsink, -⟩ := s.takeReset_ctl_empty kind j
  rw [hsink] at hf
  cases hf

end

/-! ### The bit reversal and REVBITS (41_frame_encoder.md R101) -/

/-- Bit `j` of the reversal, at every `j`. -/
theorem rev_getLsbD_of_le (p : BitVec 16) {w : Nat} (hw : w ≤ 16) (j : Nat) :
    (rev p w).getLsbD j = (decide (j < w) && p.getLsbD (w - 1 - j)) := by
  by_cases hj : j < 16
  · exact rev_getLsbD p w j hj
  · rw [BitVec.getLsbD_of_ge _ _ (by omega), decide_eq_false (by omega), Bool.false_and]

/-- REVBITS with a width in 1..16 leaves the reversal in `acc` and answers it. -/
theorem exec_revbits_of_valid {p : BitVec 16} {w : BitVec 5} {s : State}
    (hw : 1 ≤ w.toNat ∧ w.toNat ≤ 16) :
    exec (.revbits p w) s =
      .next ((s.loadFe (rev p w.toNat) s.fa).ok ((rev p w.toNat).setWidth 32)) := by
  have hok : transmitWidthOk w = true := by simp [transmitWidthOk, hw]
  rw [exec, execRevbits, if_pos hok]
  rfl

/-- REVBITS with any other width is rejected. -/
theorem exec_revbits_of_invalid {p : BitVec 16} {w : BitVec 5} {s : State}
    (hw : w.toNat = 0 ∨ 16 < w.toNat) :
    exec (.revbits p w) s = .next (s.raise .invalidWidth) := by
  have hbad : ¬ transmitWidthOk w = true := by simp [transmitWidthOk]; omega
  rw [exec, execRevbits, if_neg hbad]

/-! ### What a command frame does (41_frame_encoder.md R106) -/

/-- The controller on the line executes the code and has the frame in its sink (10_state.md R34). -/
theorem State.commandFrame_ctl (s : State) (hs : s.quiet = true) (k : Cs) (cmd : BitVec 8) :
    (s.commandFrame k cmd).ctl k =
      { (s.ctl k).command cmd with sink := (s.ctl k).sink ++ [commandBits cmd] } := by
  rw [State.commandFrame_eq _ _ _ hs, State.setSi_ctl, State.loadBt_ctl, State.afterFrame_ctl,
    if_pos rfl, Ctl.received_command, Proofs.command_with_sink]

/-- Nothing else changes but the bus and the registers a frame uses. -/
theorem State.commandFrame_tookCommand (s : State) (hs : s.quiet = true) (k : Cs)
    (cmd : BitVec 8) : s.tookCommand (s.commandFrame k cmd) k cmd := by
  have hram : ((s.commandFrame k cmd).ctl k).ram = (s.ctl k).ram := by
    obtain ⟨hram, -, -⟩ := Ctl.command_frame (s.ctl k) cmd
    rw [s.commandFrame_ctl hs, hram]
  have hfixed := (Effect.commandFrame (v := .A) .start hs cmd).sameFixed (k := k)
  rw [State.commandFrame_eq _ _ _ hs] at hram hfixed ⊢
  exact ⟨s.afterFrame_sentFrames k _, hram, hfixed, rfl, rfl⟩

/-- `DATA` is left at the trailer (92_eei_decisions.md D7). -/
theorem State.commandFrame_data (s : State) (hs : s.quiet = true) (k : Cs) (cmd : BitVec 8) :
    (s.commandFrame k cmd).data = true := by
  rw [State.commandFrame_eq _ _ _ hs]
  rfl

/-! ### What a write does (41_frame_encoder.md R108) -/

/-- The last bit of a data frame is the payload's highest. -/
theorem getLastD_dataBits {m n : Nat} (aw : Nat) (a : BitVec m) {w : Nat} (d : BitVec n)
    (hw : 1 ≤ w) (b : Bool) : (dataBits aw a w d).getLastD b = d.getLsbD (w - 1) := by
  have hlast : (bitsLSB d w).getLast? = some (d.getLsbD (w - 1)) := by
    rw [List.getLast?_eq_getElem?, bitsLSB_length, bitsLSB_getElem?, if_pos (by omega)]
  rw [List.getLastD_eq_getLast?, dataBits, List.getLast?_append, hlast]
  rfl

section

variable (s : State) (hs : s.quiet = true) (k : Cs) (a : BitVec 7) (p : BitVec 16) {w : Nat}
  (hw : 4 ≤ w ∧ w ≤ 16)
include hs hw

/-- Nothing changes but the bus, the registers a frame uses, and the RAM of the controller on the
line. -/
theorem State.writeData_tookData :
    s.tookData (s.writeData k a p w) k (s.variant k).aw a w p := by
  have hlife : (s.ctl k).sameLife ((s.writeData k a p w).ctl k) := by
    rw [s.writeData_ctl k a p w hs (by omega), Ctl.received_data _ _ _ _ _ (by omega)]
    exact ⟨rfl, rfl⟩
  have hfixed := (Effect.writeData .start hs a p w hw).sameFixed (k := k)
  rw [State.writeData, State.dataFrame_eq _ _ _ _ _ _ hs (Variant.aw_bounds _) (by omega)]
    at hlife hfixed ⊢
  exact ⟨s.afterFrame_sentFrames k _, hlife, hfixed⟩

/-- `DATA` is left at the last payload bit (92_eei_decisions.md D7). -/
theorem State.writeData_data : (s.writeData k a p w).data = p.getLsbD (w - 1) := by
  rw [State.writeData, State.dataFrame_eq _ _ _ _ _ _ hs (Variant.aw_bounds _) (by omega)]
  exact getLastD_dataBits _ a p (by omega) s.data

/-- The RAM takes the payload's nibbles from a valid address on (20_memory.md R46). -/
theorem State.writeData_holds (hwf : (s.ctl k).ram.wf = true)
    (ha : a.toNat ≤ (s.variant k).top) :
    Ram.holds (s.ctl k).ram ((s.writeData k a p w).ctl k).ram (s.variant k).top a.toNat w p := by
  obtain ⟨haw, -⟩ := Variant.top_lt (s.variant k)
  rw [s.writeData_ctl k a p w hs (by omega), Ctl.received_data _ _ _ _ _ (by omega),
    Nat.mod_eq_of_lt (by omega)]
  exact Ram.memWrite_holds _ _ _ _ p p (fun _ _ => rfl) hwf (by omega)

end

/-- WRDATA judges the address first (41_frame_encoder.md R107). -/
theorem exec_wrdata_of_top_lt {k : Cs} {a : BitVec 7} {p : BitVec 16} {w : BitVec 5} {s : State}
    (ha : (s.variant k).top < a.toNat) :
    exec (.wrdata k a p w) s = .next (s.raise .invalidAddress) := by
  rw [exec, execWrdata, if_pos ha]

/-- Then the width. -/
theorem exec_wrdata_of_invalid_width {k : Cs} {a : BitVec 7} {p : BitVec 16} {w : BitVec 5}
    {s : State} (ha : a.toNat ≤ (s.variant k).top) (hw : w.toNat < 4 ∨ 16 < w.toNat) :
    exec (.wrdata k a p w) s = .next (s.raise .invalidWidth) := by
  have hbad : ¬ dataWidthOk w = true := by simp [dataWidthOk]; omega
  rw [exec, execWrdata, if_neg (by omega), if_neg hbad]

/-! ### How long frames and operations take (41_frame_encoder.md R109) -/

/-- The events from `s` to `t` take `n` units. -/
def State.Lasts (s t : State) (n : Nat) : Prop := ∃ evs, t.tr = s.tr ++ evs ∧ duration evs = n

/-- Durations add up. -/
theorem State.Lasts.trans {s t u : State} {m n : Nat} (hst : s.Lasts t m) (htu : t.Lasts u n) :
    s.Lasts u (m + n) := by
  obtain ⟨xs, hx, hm⟩ := hst
  obtain ⟨ys, hy, hn⟩ := htu
  exact ⟨xs ++ ys, by rw [hy, hx, List.append_assoc], by rw [duration_append, hm, hn]⟩

/-- The response appends no event, so an instruction takes the units up to it. -/
theorem State.Lasts.takes {i : Instr} {s t : State} {n : Nat} (hn : s.Lasts t n) {d : BitVec 32}
    (h : exec i s = .next (t.ok d)) :
    ∃ t evs, exec i s = .next t ∧ t.tr = s.tr ++ evs ∧ duration evs = n := by
  obtain ⟨evs, htr, hd⟩ := hn
  exact ⟨t.ok d, evs, h, htr, hd⟩

/-- A frame takes 2 units to open, 6 for each bit and 2 to close. -/
theorem duration_frameEvents {c : Config} (h : referenceSchedule c) (k : Cs) (bits : Bits) :
    duration (frameEvents c k bits) = 4 + 6 * bits.length := by
  have ⟨hsu, _⟩ := h
  have hopen : duration (openEvents c k) = 2 := by simp [duration, openEvents, Event.units, hsu]
  have hclose : duration (closeEvents c k) = 2 := by simp [duration, closeEvents, Event.units, hsu]
  rw [frameEvents, duration_append, duration_append, duration_bitsEvents h, hopen, hclose]
  omega

/-- The bus is at rest and every delay is at its minimum. -/
structure State.AtReference (s : State) : Prop where
  quiet : s.quiet = true
  schedule : referenceSchedule s.cfg

/-- An effect keeps that. -/
theorem Effect.atReference {v : Variant} {k : Cs} {s t : State} (h : Effect v k s t)
    (hs : s.AtReference) : t.AtReference := by
  obtain ⟨hcfg, -⟩ := h.sameFixed
  exact ⟨h.quiet hs.quiet, by rw [hcfg]; exact hs.schedule⟩

section

variable {s : State} (hs : s.AtReference) (k : Cs)
include hs

/-- A command frame of 12 bits. -/
theorem State.AtReference.commandFrame_lasts (cmd : BitVec 8) :
    s.Lasts (s.commandFrame k cmd) 76 := by
  refine ⟨frameEvents s.cfg k (commandBits cmd), ?_, ?_⟩
  · rw [State.commandFrame_eq _ _ _ hs.quiet]
    rfl
  · rw [duration_frameEvents hs.schedule, commandBits_length]

/-- A data frame of `3 + AW + w` bits. -/
theorem State.AtReference.writeData_lasts (a : BitVec 7) (p : BitVec 16) {w : Nat}
    (hw : 1 ≤ w ∧ w ≤ 16) :
    s.Lasts (s.writeData k a p w) (4 + 6 * (3 + (s.variant k).aw + w)) := by
  refine ⟨frameEvents s.cfg k (dataBits (s.variant k).aw a w p), ?_, ?_⟩
  · rw [State.writeData, State.dataFrame_eq _ _ _ _ _ _ hs.quiet (Variant.aw_bounds _) hw]
    rfl
  · rw [duration_frameEvents hs.schedule, dataBits_length]

/-- One command frame for each code. -/
theorem State.AtReference.commands_lasts (codes : List (BitVec 8)) :
    s.Lasts (s.commands k codes) (76 * codes.length) := by
  induction codes generalizing s with
  | nil => exact ⟨[], by simp [State.commands], rfl⟩
  | cons code codes ih =>
    have hframe : Effect .A k s (s.commandFrame k code) := Effect.commandFrame .start hs.quiet code
    rw [List.length_cons, Nat.mul_succ, Nat.add_comm]
    exact (hs.commandFrame_lasts k code).trans (ih (hframe.atReference hs))

/-- One 4-bit data frame for each address. -/
theorem State.AtReference.fill_lasts (nib : Nibble) (n a : Nat) :
    s.Lasts (State.fill k nib n a s) ((4 + 6 * (3 + (s.variant k).aw + 4)) * n) := by
  induction n generalizing s a with
  | zero => exact ⟨[], by simp [State.fill], rfl⟩
  | succ n ih =>
    have hframe := Effect.writeData (k := k) .start hs.quiet (BitVec.ofNat 7 a) (nib.setWidth 16) 4
      (by decide)
    have hrest := ih (hframe.atReference hs) (a + 1)
    rw [hframe.variant k] at hrest
    rw [Nat.mul_succ, Nat.add_comm (_ * n)]
    exact (hs.writeData_lasts k _ _ (by decide)).trans hrest

end

/-! ### The operations of the display driver with valid operands (44_display_driver.md) -/

/-- The font has 36 entries and the symbols (43_font_rom.md R140). -/
theorem fontRom_length (c : Config) : (fontRom c).length = 36 + c.fontSymbols.length := by
  simp +arith [fontRom]

/-- Every index below the font's length has a glyph (43_font_rom.md R143). -/
theorem exists_glyphOf {c : Config} {index : BitVec 16}
    (h : index.toNat < 36 + c.fontSymbols.length) : ∃ p, glyphOf c index = some p := by
  rw [← fontRom_length] at h
  exact ⟨_, List.getElem?_eq_getElem h⟩

/-- Every position of the table and every decimal digit have two addresses and two nibbles
(42_address_element_map.md R123). -/
theorem exists_digitPair {c : Config} {position : BitVec 7} {value : BitVec 16}
    (hp : position.toNat < c.digAddr.length) (hv : value.toNat ≤ 9) :
    ∃ al ah nl nh, digitPair c .B position value = some (al, ah, nl, nh) := by
  have hv' : value.toNat < c.digNib.toList.length := by rw [Vector.length_toList]; omega
  rw [digitPair, digitB, List.getElem?_eq_getElem hp, List.getElem?_eq_getElem hv']
  exact ⟨_, _, _, _, rfl⟩

/-- Every name up to 4 has an address and a nibble (42_address_element_map.md R126). -/
theorem exists_indicator {c : Config} {name : BitVec 7} (h : name.toNat ≤ 4) (on : Bool) :
    ∃ a nib, indicator c .B name on = some (a, nib) := by
  have h' : name.toNat < c.indAddr.toList.length := by rw [Vector.length_toList]; omega
  rw [indicator, indB, List.getElem?_eq_getElem h']
  exact ⟨_, _, rfl⟩

section

variable {k : Cs} {s : State}

/-- RENDER_CHAR with a slot and a glyph is one 16-bit write (44_display_driver.md R157). -/
theorem exec_renderChar_of_valid {position a : BitVec 7} {index p : BitVec 16}
    (ha : digitSlot (s.variant k) position = some a) (hp : glyphOf s.cfg index = some p) :
    exec (.renderChar k position index) s = .next ((s.writeData k a p 16).ok 0) := by
  simp only [exec, execRenderChar, ha, hp]

/-- RENDER_DIGIT with a pair of addresses and nibbles is two 4-bit writes, the low address first
(44_display_driver.md R155). -/
theorem exec_renderDigit_of_valid {position al ah : BitVec 7} {value : BitVec 16} {nl nh : Nibble}
    (h : digitPair s.cfg (s.variant k) position value = some (al, ah, nl, nh)) :
    exec (.renderDigit k position value) s =
      .next (((s.writeData k al (nl.setWidth 16) 4).writeData k ah (nh.setWidth 16) 4).ok 0) := by
  simp only [exec, execRenderDigit, h]

/-- SET_IND with an address and a nibble is one 4-bit write (44_display_driver.md R159). -/
theorem exec_setInd_of_valid {name a : BitVec 7} {on : Bool} {nib : Nibble}
    (h : indicator s.cfg (s.variant k) name on = some (a, nib)) :
    exec (.setInd k name on) s = .next ((s.writeData k a (nib.setWidth 16) 4).ok 0) := by
  simp only [exec, execSetInd, h]

end

end Sys2Proof.Machine
end

section

open Sys2Proof Sys2Proof.Machine

namespace Sys2Proof.Proofs

/-! ### The statement of tier 3 -/

/-- Settles O56: a request sends frames of its line's own variant, a wire frame is read by the
variant of the line it goes to, and a reset empties the sinks. -/
theorem onlyFramesReachTheControllers : Obligations.OnlyFramesReachTheControllers := by
  intro s t ⟨hq, _⟩ h0 h
  cases step_took h with
  | powerUp => exact fun j => by rw [State.powerUp_ctl, State.powerUp_variant]; exact h0 j
  | wait => exact s.takenIn_tick.onlyFrames h0
  | idle => exact s.takenIn_popInput_tick.onlyFrames h0
  | rst kind => exact State.takeReset_onlyFrames _ kind
  | cut w => exact State.takeReset_onlyFrames _ .board
  | request w _ _ _ _ he =>
    have hu := s.takenIn_accept w
    exact exec_onlyFrames (hu.bus.quiet hq) (decodeRequest_fits w _) he (hu.onlyFrames h0)
  | frame k bits i _ _ _ _ hd he =>
    have hu := s.takenIn_selectFrame k
    have hfit := fits_line_of_decodeFrame hd
    rw [← hu.variant] at hfit
    exact exec_onlyFrames (hu.bus.quiet hq) hfit he (hu.onlyFrames h0)

/-! ### The statements of tier 2 -/

/-- Settles O16. -/
theorem revbitsAnswersTheMirrorImage : Obligations.RevbitsAnswersTheMirrorImage := by
  intro payload bitWidth s w
  refine ⟨fun hw => ?_, exec_revbits_of_invalid⟩
  refine ⟨_, (rev payload w).setWidth 32, exec_revbits_of_valid hw, ⟨rfl, rfl, rfl, rfl⟩,
    fun j hj => ?_, ⟨rfl, rfl, rfl, rfl, rfl, rfl, rfl⟩,
    ⟨rfl, rfl, rfl, rfl, rfl, rfl, rfl, rfl, rfl, rfl⟩,
    rfl, rfl, rfl, rfl, rfl⟩
  rw [BitVec.getLsbD_setWidth, decide_eq_true hj, Bool.true_and, rev_getLsbD_of_le _ hw.2]

/-- Settles O17: bit `j` below the width goes to `w - 1 - j` and back. -/
theorem reversalIsAnInvolution : Obligations.ReversalIsAnInvolution := by
  intro v w _ hw
  apply BitVec.eq_of_getLsbD_eq
  intro j hj
  rw [rev_getLsbD_of_le _ hw, rev_getLsbD_of_le _ hw, BitVec.getLsbD_ofNat, Nat.testBit_mod_two_pow]
  by_cases hjw : j < w
  · have hback : w - 1 - (w - 1 - j) = j := by omega
    simp [hjw, hj, hback, show w - 1 - j < w by omega, BitVec.getLsbD]
  · simp [hjw]

/-- Settles O18. -/
theorem sendcmdSendsOneCommandFrame : Obligations.SendcmdSendsOneCommandFrame := by
  intro k cmd s hs
  have hctl := s.commandFrame_ctl hs k cmd
  refine ⟨(s.commandFrame k cmd).ok 0, rfl, ⟨rfl, rfl, rfl, rfl⟩,
    s.commandFrame_tookCommand hs k cmd, s.commandFrame_data hs k cmd, ?_, ?_⟩
  · rw [State.ok_ctl, hctl]
  · rw [State.ok_ctl, hctl]

/-- Settles O19. -/
theorem wrdataSendsOneDataFrame : Obligations.WrdataSendsOneDataFrame := by
  intro k address payload bitWidth s hs hwf ha h4 h16 w
  refine ⟨_, exec_wrdata_of_valid ha ⟨h4, h16⟩, ⟨rfl, rfl, rfl, rfl⟩,
    s.writeData_tookData hs k address payload ⟨h4, h16⟩,
    s.writeData_data hs k address payload ⟨h4, h16⟩, ?_⟩
  rw [State.ok_ctl]
  exact s.writeData_holds hs k address payload ⟨h4, h16⟩ hwf ha

/-- Settles O55: an operation takes the units of its frames, and a frame 4 units and 6 a bit. -/
theorem referenceDurations : Obligations.ReferenceDurations := by
  intro k s hq href takes
  have hs : s.AtReference := ⟨hq, href⟩
  refine ⟨duration_frameEvents href k, fun cmd => ?_, fun a p b ha h4 h16 => ?_, ?_, ?_, ?_,
    fun on => ?_, fun position index hv hpos hidx => ?_, fun position value hv hpos hval => ?_,
    fun name on hv hname => ?_⟩
  · exact (hs.commandFrame_lasts k cmd).takes rfl
  · exact (hs.writeData_lasts k a p (by omega)).takes (exec_wrdata_of_valid ha ⟨h4, h16⟩)
  · exact (hs.commands_lasts k initCodes).takes rfl
  · exact (hs.commandFrame_lasts k 0x03).takes rfl
  · exact (hs.commandFrame_lasts k 0x02).takes rfl
  · have hfill := hs.fill_lasts k (allNibble on) ((s.variant k).top + 1) 0
    have htotal : (4 + 6 * (3 + (s.variant k).aw + 4)) * ((s.variant k).top + 1) =
        if s.variant k = .A then 5248 else 7216 := by
      cases s.variant k <;> rfl
    rw [htotal] at hfill
    exact hfill.takes rfl
  · obtain ⟨p, hp⟩ := exists_glyphOf hidx
    obtain ⟨hslot, -⟩ := digitSlot_A_of_le hpos
    have hwrite := hs.writeData_lasts k (0x04 + 4 * position) p (w := 16) (by decide)
    rw [hv] at hwrite
    exact hwrite.takes (exec_renderChar_of_valid (hv ▸ hslot) hp)
  · obtain ⟨al, ah, nl, nh, hpair⟩ := exists_digitPair hpos hval
    have hfirst := Effect.writeData (k := k) .start hq al (nl.setWidth 16) 4 (by decide)
    have hlow := hs.writeData_lasts k al (nl.setWidth 16) (w := 4) (by decide)
    have hhigh := (hfirst.atReference hs).writeData_lasts k ah (nh.setWidth 16) (w := 4) (by decide)
    rw [hfirst.variant k, hv] at hhigh
    rw [hv] at hlow
    exact (hlow.trans hhigh).takes (exec_renderDigit_of_valid (hv ▸ hpair))
  · obtain ⟨a, nib, hind⟩ := exists_indicator hname on
    have hwrite := hs.writeData_lasts k a (nib.setWidth 16) (w := 4) (by decide)
    rw [hv] at hwrite
    exact hwrite.takes (exec_setInd_of_valid (hv ▸ hind))

/-! ### The statements of tier 1 -/

/-- Settles O8. -/
theorem stepRunsTheFrameOnItsLine : Obligations.StepRunsTheFrameOnItsLine := by
  intro s k bits i rest hp hb hi hd
  have hv : State.variant { s with inbox := rest } k = s.variant k := by cases k <;> rfl
  rw [step, State.fetch_of_ready hp hb hi, State.takeInput, State.takeFrame, hv, hd]
  rfl

/-- Settles O20. -/
theorem wrdataRejectsBeforeAnyEvent : Obligations.WrdataRejectsBeforeAnyEvent := by
  intro k address payload bitWidth s
  exact ⟨exec_wrdata_of_top_lt, exec_wrdata_of_invalid_width, rfl, rfl⟩

end Sys2Proof.Proofs
end

section
/-! Proofs of the statements of 42_address_element_map.md: what the lookups answer for operands in and
out of range. -/

namespace Sys2Proof.Machine

/-! ### The layout of a lookup's result (30_encoding.md R70) -/

/-- The number of two fields side by side. -/
theorem toNat_append_eq_add {m n : Nat} (x : BitVec m) (y : BitVec n) :
    (x ++ y).toNat = x.toNat * 2 ^ n + y.toNat := by
  rw [BitVec.toNat_append, ← Nat.shiftLeft_add_eq_or_of_lt y.isLt, Nat.shiftLeft_eq]

/-- The address in bits 6..0, the width 16 in bits 26..22. -/
theorem digitAResult_eq_ofNat (a : BitVec 7) :
    digitAResult a = BitVec.ofNat 32 (a.toNat + 16 * 2 ^ 22) := by
  apply BitVec.eq_of_toNat_eq
  simp only [digitAResult, toNat_append_eq_add, BitVec.toNat_ofNat]
  omega

/-- The two addresses, the two nibbles from bit 14 on, the width 4 and the two-part bit 27. -/
theorem digitBResult_eq_ofNat (al ah : BitVec 7) (nl nh : Nibble) :
    digitBResult al ah nl nh = BitVec.ofNat 32 (al.toNat + ah.toNat * 2 ^ 7 + nl.toNat * 2 ^ 14 +
      nh.toNat * 2 ^ 18 + 4 * 2 ^ 22 + 2 ^ 27) := by
  apply BitVec.eq_of_toNat_eq
  simp only [digitBResult, toNat_append_eq_add, BitVec.toNat_ofNat]
  omega

/-- The address in bits 6..0, the nibble from bit 14 on, the width 4. -/
theorem indResult_eq_ofNat (a : BitVec 7) (nib : Nibble) :
    indResult a nib = BitVec.ofNat 32 (a.toNat + nib.toNat * 2 ^ 14 + 4 * 2 ^ 22) := by
  apply BitVec.eq_of_toNat_eq
  simp only [indResult, toNat_append_eq_add, BitVec.toNat_ofNat]
  omega

/-- The nibble of an indicator is 4 on and 0 off (42_address_element_map.md R126). -/
theorem toNat_indNibble (on : Bool) : (indNibble on).toNat = if on then 4 else 0 := by
  cases on <;> rfl

/-- An address of the configuration's tables fits the seven bits of its field. -/
theorem toNat_ofNat_fin (a : Fin 82) : (BitVec.ofNat 7 a.val).toNat = a.val := by
  rw [BitVec.toNat_ofNat]
  omega

/-! ### The three maps (42_address_element_map.md R121, R123, R126) -/

/-- The address of a digit slot of variant A. -/
theorem toNat_digitA_address {position : BitVec 7} (h : position.toNat ≤ 14) :
    (0x04 + 4 * position : BitVec 7).toNat = 0x04 + 4 * position.toNat := by
  bv_omega

/-- Beyond position 14 variant A has no digit slot. -/
theorem digitA_of_lt {position : BitVec 7} (h : 14 < position.toNat) : digitA position = none :=
  if_neg (Nat.not_le.2 h)

/-- Beyond the table's positions or the decimal digits variant B has no digit. -/
theorem digitB_eq_none {c : Config} {position : BitVec 7} {value : BitVec 16}
    (h : c.digAddr.length ≤ position.toNat ∨ 9 < value.toNat) : digitB c position value = none := by
  unfold digitB
  rcases h with hpos | hval
  · rw [List.getElem?_eq_none hpos]
  · have hlen : c.digNib.toList.length ≤ value.toNat := by rw [Vector.length_toList]; omega
    rw [List.getElem?_eq_none hlen]
    cases c.digAddr[position.toNat]? <;> rfl

/-- Beyond name 4 there is no indicator. -/
theorem indB_eq_none {c : Config} {name : BitVec 7} (h : 4 < name.toNat) (on : Bool) :
    indB c name on = none := by
  have hlen : c.indAddr.toList.length ≤ name.toNat := by rw [Vector.length_toList]; omega
  rw [indB, List.getElem?_eq_none hlen]

/-! ### What a lookup does to the state -/

/-- The answer is all that an instruction which ends without a bus operation changes. -/
theorem State.ok_answers (s : State) (d : BitVec 32) :
    (s.ok d).answered d ∧ s.sameBus (s.ok d) ∧ s.sameFixed (s.ok d) ∧ s.sameDatapath (s.ok d) :=
  ⟨⟨rfl, rfl, rfl, rfl⟩, ⟨rfl, rfl, rfl, rfl, rfl, rfl, rfl⟩,
    ⟨rfl, rfl, rfl, rfl, rfl, rfl, rfl, rfl, rfl, rfl⟩, rfl, rfl, rfl, rfl, rfl, rfl⟩

section

variable {k : Cs} {s : State}

/-- RESOLVE_DIGIT answers what the map gives. -/
theorem exec_resolveDigit_of_some {position : BitVec 7} {value : BitVec 16} {r : BitVec 32}
    (h : resolveDigitResult s.cfg (s.variant k) position value = some r) :
    exec (.resolveDigit k position value) s = .next (s.ok r) := by
  rw [exec, execResolveDigit, h]

/-- Where the map gives nothing RESOLVE_DIGIT is rejected. -/
theorem exec_resolveDigit_of_none {position : BitVec 7} {value : BitVec 16}
    (h : resolveDigitResult s.cfg (s.variant k) position value = none) :
    exec (.resolveDigit k position value) s = .next (s.rejected 1) := by
  rw [exec, execResolveDigit, h]
  rfl

/-- RESOLVE_IND answers the address and the nibble of the indicator. -/
theorem exec_resolveInd_of_some {name a : BitVec 7} {on : Bool} {nib : Nibble}
    (h : indicator s.cfg (s.variant k) name on = some (a, nib)) :
    exec (.resolveInd k name on) s = .next (s.ok (indResult a nib)) := by
  rw [exec, execResolveInd, h]

/-- Where there is no indicator RESOLVE_IND is rejected. -/
theorem exec_resolveInd_of_none {name : BitVec 7} {on : Bool}
    (h : indicator s.cfg (s.variant k) name on = none) :
    exec (.resolveInd k name on) s = .next (s.rejected 1) := by
  rw [exec, execResolveInd, h]
  rfl

end

/-! ### The result of RESOLVE_DIGIT (42_address_element_map.md R124) -/

section

variable {c : Config} {position : BitVec 7} {value : BitVec 16}

/-- A digit slot of variant A, with width 16. -/
theorem resolveDigitResult_A_of_le (h : position.toNat ≤ 14) :
    resolveDigitResult c .A position value =
      some (BitVec.ofNat 32 (0x04 + 4 * position.toNat + 16 * 2 ^ 22)) := by
  obtain ⟨hslot, -⟩ := digitSlot_A_of_le h
  rw [resolveDigitResult, hslot, Option.map_some, digitAResult_eq_ofNat, toNat_digitA_address h]

/-- Beyond position 14 there is none. -/
theorem resolveDigitResult_A_of_lt (h : 14 < position.toNat) :
    resolveDigitResult c .A position value = none := by
  rw [resolveDigitResult, digitSlot, digitA_of_lt h, Option.map_none]

/-- The two addresses and the two nibbles of a digit of variant B, with width 4 and the two-part bit. -/
theorem resolveDigitResult_B_of_mem {al ah : Fin 82} {nl nh : Nibble}
    (haddr : c.digAddr[position.toNat]? = some (al, ah))
    (hnib : c.digNib.toList[value.toNat]? = some (nl, nh)) :
    resolveDigitResult c .B position value =
      some (BitVec.ofNat 32 (al.val + ah.val * 2 ^ 7 + nl.toNat * 2 ^ 14 + nh.toNat * 2 ^ 18 +
        4 * 2 ^ 22 + 2 ^ 27)) := by
  have hpair : digitPair c .B position value =
      some (BitVec.ofNat 7 al.val, BitVec.ofNat 7 ah.val, nl, nh) := by
    rw [digitPair, digitB, haddr, hnib]
  have hres := digitBResult_eq_ofNat (BitVec.ofNat 7 al.val) (BitVec.ofNat 7 ah.val) nl nh
  rw [toNat_ofNat_fin, toNat_ofNat_fin] at hres
  rw [resolveDigitResult, hpair]
  exact congrArg some hres

/-- Beyond the table's positions or the decimal digits there is none. -/
theorem resolveDigitResult_B_eq_none (h : c.digAddr.length ≤ position.toNat ∨ 9 < value.toNat) :
    resolveDigitResult c .B position value = none := by
  rw [resolveDigitResult, digitPair, digitB_eq_none h, Option.map_none]

end

end Sys2Proof.Machine
end

section

open Sys2Proof Sys2Proof.Machine

namespace Sys2Proof.Proofs

/-! ### The statements of tier 2 -/

/-- Settles O22: the result of the map in each of the four cases, answered or rejected. -/
theorem resolveDigitAnswersTheMap : Obligations.ResolveDigitAnswersTheMap := by
  intro k position value s
  refine ⟨fun hv hpos => ?_, fun hv hpos => ?_, fun al ah nl nh hv haddr hnib => ?_,
    fun hv hout => ?_⟩
  · exact ⟨_, exec_resolveDigit_of_some (hv ▸ resolveDigitResult_A_of_le hpos), s.ok_answers _⟩
  · exact exec_resolveDigit_of_none (hv ▸ resolveDigitResult_A_of_lt hpos)
  · exact ⟨_, exec_resolveDigit_of_some (hv ▸ resolveDigitResult_B_of_mem haddr hnib),
      s.ok_answers _⟩
  · exact exec_resolveDigit_of_none (hv ▸ resolveDigitResult_B_eq_none hout)

/-- Settles O24: an indicator is found by name on variant B and nowhere else. -/
theorem resolveIndAnswersTheMap : Obligations.ResolveIndAnswersTheMap := by
  intro k name on s
  refine ⟨fun a hv ha => ?_, fun hout => exec_resolveInd_of_none ?_⟩
  · have hind : indicator s.cfg (s.variant k) name on =
        some (BitVec.ofNat 7 a.val, indNibble on) := by
      rw [hv, indicator, indB, ha]
    rw [← toNat_indNibble, ← toNat_ofNat_fin a, ← indResult_eq_ofNat]
    exact ⟨_, exec_resolveInd_of_some hind, s.ok_answers _⟩
  · cases hv : s.variant k with
    | A => rfl
    | B =>
      have hname : 4 < name.toNat := by simpa [hv] using hout
      exact indB_eq_none hname on

/-! ### The statement of tier 1 -/

/-- Settles O23: the address of a slot (`digitSlot_A_of_le`), read as the word of a number. -/
theorem digitSlotsRiseByFour : Obligations.DigitSlotsRiseByFour := by
  refine ⟨fun i hi => ?_, rfl, rfl, fun p hp => digitA_of_lt hp⟩
  have hnat : (BitVec.ofNat 7 i).toNat = i := by rw [BitVec.toNat_ofNat]; omega
  obtain ⟨hslot, -⟩ := digitSlot_A_of_le (hnat.le.trans hi)
  rw [BitVec.ofNat_add, BitVec.ofNat_mul]
  exact hslot

end Sys2Proof.Proofs
end

section
/-! Proofs of the statement of 43_font_rom.md: where the font keeps 'A' and what GLYPH answers for an
index in and beyond the font. -/

namespace Sys2Proof.Machine

/-- 'A' stands behind the ten digits and the symbols (43_font_rom.md R141). -/
theorem fontRom_getElem?_glyphA (c : Config) :
    (fontRom c)[10 + c.fontSymbols.length]? = some glyphA := by
  have hlen : (c.fontDigits.toList ++ c.fontSymbols).length = 10 + c.fontSymbols.length := by
    rw [List.length_append, Vector.length_toList]
  rw [fontRom, ← hlen, List.getElem?_append_right le_rfl, Nat.sub_self, List.getElem?_cons_zero]

/-- Beyond the font's length there is no glyph (43_font_rom.md R143). -/
theorem glyphOf_eq_none {c : Config} {index : BitVec 16}
    (h : 36 + c.fontSymbols.length ≤ index.toNat) : glyphOf c index = none := by
  rw [← fontRom_length] at h
  exact List.getElem?_eq_none h

section

variable {index : BitVec 16} {s : State}

/-- GLYPH answers the entry of the font. -/
theorem exec_glyph_of_some {p : BitVec 16} (h : glyphOf s.cfg index = some p) :
    exec (.glyph index) s = .next (s.ok (p.setWidth 32)) := by
  rw [exec, execGlyph, h]

/-- Where the font has no entry GLYPH is rejected. -/
theorem exec_glyph_of_none (h : glyphOf s.cfg index = none) :
    exec (.glyph index) s = .next (s.rejected 2) := by
  rw [exec, execGlyph, h]
  rfl

end

end Sys2Proof.Machine
end

section

open Sys2Proof Sys2Proof.Machine

namespace Sys2Proof.Proofs

/-! ### The statement of tier 2 -/

/-- Settles O25: the layout of the font, then GLYPH with an entry and without one. -/
theorem glyphReadsTheFont : Obligations.GlyphReadsTheFont := by
  intro index s
  refine ⟨fontRom_length s.cfg, fontRom_getElem?_glyphA s.cfg, fun p hp => ?_, fun hout => ?_⟩
  · exact ⟨_, exec_glyph_of_some hp, s.ok_answers _⟩
  · exact exec_glyph_of_none (glyphOf_eq_none hout)

end Sys2Proof.Proofs
end

section
/-! Proofs of the statements of 44_display_driver.md: runs of command frames and runs of 4-bit writes,
each as one list of frames and one effect on the controller, and the operations that are made of
them. -/

namespace Sys2Proof.Machine

/-! ### Frames one after another (44_display_driver.md R164) -/

/-- The last bit of two runs is that of the second, or of the first if the second is empty. -/
theorem getLastD_append (xs ys : Bits) (b : Bool) :
    (xs ++ ys).getLastD b = ys.getLastD (xs.getLastD b) := by
  simp only [List.getLastD_eq_getLast?, List.getLast?_append]
  cases ys.getLast? <;> rfl

/-- Where nothing has happened no frame was sent. -/
theorem State.sentFrames_nil (s : State) (k : Cs) : s.sentFrames s k [] :=
  ⟨by simp, by simp, rfl, rfl, rfl, rfl, rfl, rfl⟩

section

variable {s t u : State} {k : Cs} {xs ys : List Bits}

/-- Frames sent and then more frames are all of them in order. -/
theorem State.sentFrames.trans (hst : s.sentFrames t k xs) (hfixed : s.sameFixed t)
    (htu : t.sentFrames u k ys) : s.sentFrames u k (xs ++ ys) := by
  obtain ⟨hcfg, -⟩ := hfixed
  obtain ⟨htr, hsink, hopen, hother, h0, h1, hw, hdata⟩ := hst
  obtain ⟨htr', hsink', hopen', hother', h0', h1', hw', hdata'⟩ := htu
  refine ⟨?_, ?_, hopen'.trans hopen, hother'.trans hother, h0'.trans h0, h1'.trans h1,
    hw'.trans hw, ?_⟩
  · rw [htr', htr, hcfg, List.flatMap_append, List.append_assoc]
  · rw [hsink', hsink, List.append_assoc]
  · rw [hdata', hdata, List.flatten_append, getLastD_append]

/-- What two parts of an operation both leave alone, the whole leaves alone. -/
theorem State.sameFixed.trans (hst : s.sameFixed t) (htu : t.sameFixed u) : s.sameFixed u := by
  unfold State.sameFixed at *
  simp only [htu, hst, and_self]

end

/-- Two frames after each other that move no lifecycle move none together. -/
theorem Ctl.sameLife.trans {c d e : Ctl} (hcd : c.sameLife d) (hde : d.sameLife e) :
    c.sameLife e := by
  obtain ⟨hlife, hclk⟩ := hcd
  obtain ⟨hlife', hclk'⟩ := hde
  exact ⟨hlife'.trans hlife, hclk'.trans hclk⟩

/-! ### Runs of command frames (44_display_driver.md R151) -/

/-- A command frame is received by the controller on its line. -/
theorem State.commandFrame_received (s : State) (hs : s.quiet = true) (k : Cs) (code : BitVec 8) :
    (s.commandFrame k code).ctl k = (s.ctl k).received (s.variant k) (commandBits code) := by
  rw [s.commandFrame_ctl hs, Ctl.received_command]
  exact (Proofs.command_with_sink _ _ _).symm

/-- One command frame for each code, which the controller on the line receives in order, and nothing
else but the registers a frame uses. -/
theorem State.commands_took (s : State) (hs : s.quiet = true) (k : Cs) (codes : List (BitVec 8)) :
    let t := s.commands k codes
    s.sentFrames t k (codes.map commandBits) ∧
      t.ctl k = (s.ctl k).replay (s.variant k) (codes.map commandBits) ∧
      s.sameFixed t ∧ t.acc = s.acc ∧ t.fa = s.fa := by
  induction codes generalizing s with
  | nil => exact ⟨s.sentFrames_nil k, rfl, Effect.start.sameFixed (v := .A) (k := k), rfl, rfl⟩
  | cons code codes ih =>
    have heff : Effect .A k s (s.commandFrame k code) := Effect.commandFrame .start hs code
    obtain ⟨hsent, -, hfixed, hacc, hfa⟩ := s.commandFrame_tookCommand hs k code
    obtain ⟨hsent', hctl', hfixed', hacc', hfa'⟩ := ih _ (heff.quiet hs)
    rw [heff.variant k, s.commandFrame_received hs] at hctl'
    exact ⟨hsent.trans hfixed hsent', hctl', hfixed.trans hfixed', hacc'.trans hacc,
      hfa'.trans hfa⟩

/-- What the five commands of INIT make of a controller (10_state.md R35, 44_display_driver.md R151). -/
theorem Ctl.replay_initCodes (c : Ctl) (v : Variant) :
    let d := c.replay v (initCodes.map commandBits)
    d.life = (if c.life = .unknown then .unknown else .displayOff) ∧ d.clkCfg = true ∧
      d.ram = c.ram := by
  simp only [initCodes, List.map, Ctl.replay, List.foldl, Ctl.received_command]
  obtain ⟨sink, openBits, life, clkCfg, ram⟩ := c
  cases life <;> exact ⟨rfl, rfl, rfl⟩

/-- Display-on leads to DisplayOn only from DisplayOff or DisplayOn with a clock source
(10_state.md R35). -/
theorem Ctl.command_lcdOn (c : Ctl) :
    (c.command 0x03).clkCfg = c.clkCfg ∧ (c.command 0x03).life =
      if c.clkCfg = true ∧ (c.life = .displayOff ∨ c.life = .displayOn) then .displayOn
      else .unknown := by
  obtain ⟨sink, openBits, life, clkCfg, ram⟩ := c
  cases clkCfg <;> cases life <;> exact ⟨rfl, rfl⟩

/-- Display-off leads to DisplayOff, but not from Uninitialized or Unknown (10_state.md R35). -/
theorem Ctl.command_lcdOff (c : Ctl) :
    (c.command 0x02).clkCfg = c.clkCfg ∧ (c.command 0x02).life =
      if c.life = .uninitialized ∨ c.life = .unknown then c.life else .displayOff := by
  obtain ⟨sink, openBits, life, clkCfg, ram⟩ := c
  cases life <;> exact ⟨rfl, rfl⟩

/-! ### Whole nibbles in the RAM (20_memory.md R44, R46) -/

/-- Reading after a write. -/
theorem Ram.read_write (m : Ram) (a : Nat) (v : Nibble) (x : Nat) :
    (m.write a v).read x = if x = a then some v else m.read x := by
  by_cases h : x = a
  · rw [if_pos h, h, Ram.read_write_self]
  · rw [if_neg h, Ram.read_write_ne _ _ _ _ h]

/-- Four payload bits are one nibble written. -/
theorem Ram.writeBits_nibble (m : Ram) (a : Nat) (nib : Nibble) :
    m.writeBits a (bitsLSB nib 4) = m.write a nib := by
  change m.write a (fieldLSB 4 (bitsLSB nib 4)) = m.write a nib
  rw [fieldLSB_bitsLSB]

/-- Payload bits leave the addresses above their own alone. -/
theorem Ram.read_writeBits_of_le (m : Ram) (a : Nat) (d : Bits) {x : Nat}
    (hx : a + (d.length + 3) / 4 ≤ x) : (m.writeBits a d).read x = m.read x := by
  induction m, a, d using Ram.writeBits.induct with
  | case1 m a b0 b1 b2 b3 rest ih =>
    simp only [List.length_cons] at hx
    rw [Ram.writeBits, ih (by omega), Ram.read_write_ne _ _ _ _ (by omega)]
  | case2 m a => rfl
  | case3 d m a h1 h2 =>
    have hd : 0 < d.length := List.length_pos_of_ne_nil h2
    rw [Ram.writeBits]
    · exact Ram.read_forget_ne _ _ _ (by omega)
    · exact h1
    · exact h2

/-- A payload of whole nibbles is read back nibble by nibble, whatever form the RAM had. -/
theorem Ram.read_writeBits_bitsLSB {b : Nat} (m : Ram) (a n : Nat) (p : BitVec b) (x : Nat) :
    (m.writeBits a (bitsLSB p (4 * n))).read x =
      if a ≤ x ∧ x < a + n then some (p.extractLsb' (4 * (x - a)) 4) else m.read x := by
  by_cases hlt : x < a
  · rw [if_neg (by omega), Ram.read_writeBits_of_lt _ _ _ hlt]
  · by_cases hin : x < a + n
    · obtain ⟨j, rfl⟩ : ∃ j, x = a + j := ⟨x - a, by omega⟩
      rw [if_pos (by omega), Nat.add_sub_cancel_left,
        Ram.read_writeBits_nibble _ _ _ _ (by rw [bitsLSB_length]; omega),
        nibble_bitsLSB _ _ _ (by omega)]
    · rw [if_neg (by omega), Ram.read_writeBits_of_le _ _ _ (by rw [bitsLSB_length]; omega)]

/-- One nibble written at each of `n` successive addresses. -/
theorem Ram.read_foldl_write (m : Ram) (a n : Nat) (nib : Nibble) (x : Nat) :
    (((List.range' a n).map (·, nib)).foldl (fun m w => Ram.write m w.1 w.2) m).read x =
      if a ≤ x ∧ x < a + n then some nib else m.read x := by
  induction n generalizing a m with
  | zero => simp
  | succ n ih =>
    rw [List.range'_succ, List.map_cons, List.foldl_cons, ih, Ram.read_write]
    by_cases hx : a + 1 ≤ x ∧ x < a + 1 + n
    · rw [if_pos hx, if_pos (by omega)]
    · rw [if_neg hx]
      exact if_congr (by omega) rfl rfl

/-! ### Runs of writes -/

/-- A write whose span is valid leaves its payload bits in the RAM (20_memory.md R46). -/
theorem State.writeData_ram (s : State) (hs : s.quiet = true) (k : Cs) (a : BitVec 7)
    (p : BitVec 16) {w : Nat} (hw : 1 ≤ w ∧ w ≤ 16)
    (ha : a.toNat + (w + 3) / 4 ≤ (s.variant k).top + 1) :
    ((s.writeData k a p w).ctl k).ram = (s.ctl k).ram.writeBits a.toNat (bitsLSB p w) := by
  obtain ⟨haw, -⟩ := Variant.top_lt (s.variant k)
  rw [s.writeData_ctl k a p w hs hw, Ctl.received_data _ _ _ _ _ hw.1, Nat.mod_eq_of_lt (by omega)]
  exact Ram.memWrite_of_le_top _ _ _ _ (by omega) (by rwa [bitsLSB_length])

/-- The nibbles of a list, one 4-bit write each, in order (44_display_driver.md R164). -/
def State.writeNibbles (s : State) (k : Cs) (ws : List (Nat × Nibble)) : State :=
  ws.foldl (fun s w => s.writeData k (BitVec.ofNat 7 w.1) (w.2.setWidth 16) 4) s

/-- Filling is such a run. -/
theorem State.fill_eq_writeNibbles (k : Cs) (nib : Nibble) (n a : Nat) (s : State) :
    State.fill k nib n a s = s.writeNibbles k ((List.range' a n).map (·, nib)) := by
  induction n generalizing a s with
  | zero => rfl
  | succ n ih => exact ih _ _

/-- ALLSET is a run of 4-bit writes, one to each valid address (44_display_driver.md R153). -/
theorem exec_allset (k : Cs) (on : Bool) (s : State) :
    exec (.allset k on) s = .next ((s.writeNibbles k
      ((List.range ((s.variant k).top + 1)).map (·, allNibble on))).ok 0) := by
  rw [exec, execAllset, State.fill_eq_writeNibbles, List.range_eq_range']

/-- What a run of 4-bit writes to valid addresses does: their frames in order, their nibbles in the
RAM, and nothing else but the registers a frame uses. -/
theorem State.writeNibbles_took (s : State) (hs : s.quiet = true) (k : Cs)
    (ws : List (Nat × Nibble)) (hws : ∀ w ∈ ws, w.1 ≤ (s.variant k).top) :
    let t := s.writeNibbles k ws
    s.sentFrames t k (ws.map fun w => dataBits (s.variant k).aw (BitVec.ofNat 7 w.1) 4 w.2) ∧
      (t.ctl k).ram = ws.foldl (fun m w => Ram.write m w.1 w.2) (s.ctl k).ram ∧
      (s.ctl k).sameLife (t.ctl k) ∧ s.sameFixed t := by
  induction ws generalizing s with
  | nil => exact ⟨s.sentFrames_nil k, rfl, ⟨rfl, rfl⟩, Effect.start.sameFixed (v := .A) (k := k)⟩
  | cons w ws ih =>
    obtain ⟨hw, hrest⟩ := List.forall_mem_cons.1 hws
    obtain ⟨-, h7⟩ := Variant.top_lt (s.variant k)
    have hnat : (BitVec.ofNat 7 w.1).toNat = w.1 := by rw [BitVec.toNat_ofNat]; omega
    have hbits : bitsLSB (w.2.setWidth 16) 4 = bitsLSB w.2 4 := by
      rw [bitsLSB, bitsLSB, bitsMSB_setWidth _ _ _ (by decide)]
    have heff := Effect.writeData (k := k) .start hs (BitVec.ofNat 7 w.1) (w.2.setWidth 16) 4
      (by decide)
    obtain ⟨hsent, hlife, hfixed⟩ :=
      s.writeData_tookData hs k (BitVec.ofNat 7 w.1) (w.2.setWidth 16) (w := 4) (by decide)
    have hram := s.writeData_ram hs k (BitVec.ofNat 7 w.1) (w.2.setWidth 16) (w := 4) (by decide)
      (by omega)
    rw [hnat, hbits, Ram.writeBits_nibble] at hram
    obtain ⟨hsent', hram', hlife', hfixed'⟩ :=
      ih _ (heff.quiet hs) (by rw [heff.variant k]; exact hrest)
    rw [hram] at hram'
    rw [heff.variant k] at hsent'
    rw [dataBits, hbits] at hsent
    exact ⟨hsent.trans hfixed hsent', hram', hlife.trans hlife', hfixed.trans hfixed'⟩

/-! ### What the operations reject (44_display_driver.md R163) -/

/-- Variant A has no two-part digits, and variant B none beyond its positions or the decimal digits. -/
theorem digitPair_eq_none {c : Config} {v : Variant} {position : BitVec 7} {value : BitVec 16}
    (h : v = .A ∨ c.digAddr.length ≤ position.toNat ∨ 9 < value.toNat) :
    digitPair c v position value = none := by
  cases v with
  | A => rfl
  | B => exact digitB_eq_none (h.resolve_left nofun)

/-- Variant B has no 16-bit digit slots, and variant A none beyond position 14. -/
theorem digitSlot_eq_none {v : Variant} {position : BitVec 7} (h : v = .B ∨ 14 < position.toNat) :
    digitSlot v position = none := by
  cases v with
  | A => exact digitA_of_lt (h.resolve_left nofun)
  | B => rfl

/-- Variant A has no indicators, and variant B none beyond name 4. -/
theorem indicator_eq_none {c : Config} {v : Variant} {name : BitVec 7}
    (h : v = .A ∨ 4 < name.toNat) (on : Bool) : indicator c v name on = none := by
  cases v with
  | A => rfl
  | B => exact indB_eq_none (h.resolve_left nofun) on

section

variable {k : Cs} {s : State}

/-- Where there is no pair of addresses and nibbles RENDER_DIGIT is rejected. -/
theorem exec_renderDigit_of_none {position : BitVec 7} {value : BitVec 16}
    (h : digitPair s.cfg (s.variant k) position value = none) :
    exec (.renderDigit k position value) s = .next (s.rejected 1) := by
  rw [exec, execRenderDigit, h]
  rfl

/-- Where there is no slot RENDER_CHAR is rejected, whatever the index. -/
theorem exec_renderChar_of_no_slot {position : BitVec 7} {index : BitVec 16}
    (h : digitSlot (s.variant k) position = none) :
    exec (.renderChar k position index) s = .next (s.rejected 1) := by
  rw [exec, execRenderChar, h]
  rfl

/-- With a slot but no glyph it is rejected for the glyph. -/
theorem exec_renderChar_of_no_glyph {position a : BitVec 7} {index : BitVec 16}
    (ha : digitSlot (s.variant k) position = some a) (hp : glyphOf s.cfg index = none) :
    exec (.renderChar k position index) s = .next (s.rejected 2) := by
  rw [exec, execRenderChar, ha, hp]
  rfl

/-- Where there is no indicator SET_IND is rejected. -/
theorem exec_setInd_of_none {name : BitVec 7} {on : Bool}
    (h : indicator s.cfg (s.variant k) name on = none) :
    exec (.setInd k name on) s = .next (s.rejected 1) := by
  rw [exec, execSetInd, h]
  rfl

end

end Sys2Proof.Machine
end

section

open Sys2Proof Sys2Proof.Machine

namespace Sys2Proof.Proofs

/-! ### The statements of tier 2 -/

/-- Settles O26: the five frames are a run of commands, and their replay gives the lifecycle. -/
theorem initSendsFiveCommandsInOrder : Obligations.InitSendsFiveCommandsInOrder := by
  intro k s hs
  obtain ⟨hsent, hctl, hfixed, hacc, hfa⟩ := s.commands_took hs k initCodes
  obtain ⟨hlife, hclk, hram⟩ := (s.ctl k).replay_initCodes (s.variant k)
  refine ⟨(s.commands k initCodes).ok 0, rfl, ⟨rfl, rfl, rfl, rfl⟩, hsent, ?_, ?_, ?_, hfixed,
    hacc, hfa⟩
  · rw [State.ok_ctl, hctl, hlife]
  · rw [State.ok_ctl, hctl, hclk]
  · rw [State.ok_ctl, hctl, hram]

/-- Settles O27: the run of writes goes over the addresses from 0 to the top. -/
theorem allsetWritesEveryNibble : Obligations.AllsetWritesEveryNibble := by
  intro k on s hs v nib
  have hws : ∀ w ∈ (List.range (v.top + 1)).map (·, allNibble on), w.1 ≤ v.top := by
    simp
  obtain ⟨hsent, hram, hlife, hfixed⟩ := s.writeNibbles_took hs k _ hws
  rw [List.map_map] at hsent
  refine ⟨_, exec_allset k on s, ⟨rfl, rfl, rfl, rfl⟩, hsent, fun a => ?_, hlife, hfixed⟩
  rw [State.ok_ctl, hram, List.range_eq_range', Ram.read_foldl_write]
  exact if_congr (by omega) rfl rfl

/-- Settles O28: by O27 the frames depend on the line, the operand, the configuration and the variant
alone, and the nibbles are written whatever was there. -/
theorem allsetTwiceIsTheSameOnTheBus : Obligations.AllsetTwiceIsTheSameOnTheBus := by
  intro k on s hs
  obtain ⟨t, ht, -, ⟨htr, -⟩, hread, -, hcfg, -⟩ := allsetWritesEveryNibble k on s hs
  obtain ⟨v, heff⟩ := effect_of_exec hs ht
  obtain ⟨u, hu, -, ⟨hutr, -⟩, huread, -⟩ := allsetWritesEveryNibble k on t (heff.quiet hs)
  rw [heff.variant k, hcfg] at hutr
  rw [heff.variant k] at huread
  refine ⟨t, u, _, ht, hu, htr, hutr, fun a => ?_, fun s' hs' hcfg' hv' => ?_⟩
  · rw [huread, hread]
    split_ifs <;> rfl
  · obtain ⟨t', ht', -, ⟨htr', -⟩, -⟩ := allsetWritesEveryNibble k on s' hs'
    rw [hv', hcfg'] at htr'
    exact ⟨t', ht', htr'⟩

/-- Settles O29: a run of two writes, the low address first, or no pair in the map. -/
theorem renderDigitWritesTwoNibbles : Obligations.RenderDigitWritesTwoNibbles := by
  intro k position value s hs
  refine ⟨fun al ah nl nh hv haddr hnib => ?_,
    fun hout => exec_renderDigit_of_none (digitPair_eq_none hout)⟩
  have hpair : digitPair s.cfg (s.variant k) position value =
      some (BitVec.ofNat 7 al.val, BitVec.ofNat 7 ah.val, nl, nh) := by
    rw [hv, digitPair, digitB, haddr, hnib]
  have hws : ∀ w ∈ [(al.val, nl), (ah.val, nh)], w.1 ≤ (s.variant k).top := by
    simp [hv, Variant.top]; omega
  obtain ⟨hsent, hram, hlife, hfixed⟩ := s.writeNibbles_took hs k _ hws
  rw [hv] at hsent
  refine ⟨_, exec_renderDigit_of_valid hpair, ⟨rfl, rfl, rfl, rfl⟩, hsent, fun a => ?_, hlife,
    hfixed⟩
  rw [State.ok_ctl]
  exact (congrArg (Ram.read · a) hram).trans (by simp [Ram.read_write])

/-- Settles O30: one 16-bit write at the slot's address, or no slot, or no glyph. -/
theorem renderCharWritesTheGlyph : Obligations.RenderCharWritesTheGlyph := by
  intro k position index s hs
  refine ⟨fun p hv hpos hp => ?_, fun hout => exec_renderChar_of_no_slot (digitSlot_eq_none hout),
    fun hv hpos hout => ?_⟩
  · intro a
    obtain ⟨hslot, -⟩ := digitSlot_A_of_le hpos
    have hnat := toNat_digitA_address hpos
    have haddr : (0x04 + 4 * position : BitVec 7) = BitVec.ofNat 7 a :=
      BitVec.eq_of_toNat_eq (by rw [hnat, BitVec.toNat_ofNat]; omega)
    have htook := s.writeData_tookData hs k (0x04 + 4 * position) p (w := 16) (by decide)
    have hram := s.writeData_ram hs k (0x04 + 4 * position) p (w := 16) (by decide)
      (by rw [hnat, hv]; simp only [Variant.top]; omega)
    rw [hnat] at hram
    rw [hv, haddr] at htook
    rw [haddr] at hram hslot
    refine ⟨_, exec_renderChar_of_valid (hv ▸ hslot) hp, ⟨rfl, rfl, rfl, rfl⟩, htook, fun x => ?_⟩
    rw [State.ok_ctl, hram]
    exact Ram.read_writeBits_bitsLSB _ a 4 p x
  · obtain ⟨hslot, -⟩ := digitSlot_A_of_le hpos
    rw [fontRom_length] at hout
    exact exec_renderChar_of_no_glyph (hv ▸ hslot) (glyphOf_eq_none hout)

/-- Settles O31: a run of one write, or no indicator in the map. -/
theorem setIndWritesTheWholeNibble : Obligations.SetIndWritesTheWholeNibble := by
  intro k name on s hs
  refine ⟨fun a hv ha => ?_, fun hout => exec_setInd_of_none (indicator_eq_none hout on)⟩
  intro nib
  have hind : indicator s.cfg (s.variant k) name on = some (BitVec.ofNat 7 a.val, nib) := by
    rw [hv, indicator, indB, ha]
    rfl
  have hws : ∀ w ∈ [(a.val, nib)], w.1 ≤ (s.variant k).top := by
    simp [hv, Variant.top]; omega
  obtain ⟨hsent, hram, hlife, hfixed⟩ := s.writeNibbles_took hs k _ hws
  rw [hv] at hsent
  refine ⟨_, exec_setInd_of_valid hind, ⟨rfl, rfl, rfl, rfl⟩, ⟨hsent, hlife, hfixed⟩, fun x => ?_⟩
  rw [State.ok_ctl]
  exact (congrArg (Ram.read · x) hram).trans (Ram.read_write _ _ _ _)

/-- Settles O32: one command frame each, with the lifecycle its code leads to. -/
theorem powerOnAndOffSendOneCommand : Obligations.PowerOnAndOffSendOneCommand := by
  intro k s hs
  refine ⟨⟨(s.commandFrame k 0x03).ok 0, rfl, ⟨rfl, rfl, rfl, rfl⟩,
    s.commandFrame_tookCommand hs k 0x03, ?_⟩, ⟨(s.commandFrame k 0x02).ok 0, rfl,
    ⟨rfl, rfl, rfl, rfl⟩, s.commandFrame_tookCommand hs k 0x02, ?_⟩⟩
  · rw [State.ok_ctl, s.commandFrame_ctl hs]
    exact (s.ctl k).command_lcdOn
  · rw [State.ok_ctl, s.commandFrame_ctl hs]
    exact (s.ctl k).command_lcdOff

end Sys2Proof.Proofs
end

section
/-! Proofs of the statements of 45_controller_commands.md: a command frame as an instruction of its
own, and the lifecycle each code leads to. -/

namespace Sys2Proof.Machine

/-! ### What the codes make of a controller (10_state.md R35) -/

/-- System-enable leads to SystemEnabled from Uninitialized alone (10_state.md R35). -/
theorem Ctl.command_sysEn (c : Ctl) :
    (c.command 0x01).clkCfg = c.clkCfg ∧ (c.command 0x01).life =
      if c.life = .uninitialized then .systemEnabled else c.life := by
  obtain ⟨sink, openBits, life, clkCfg, ram⟩ := c
  cases life <;> exact ⟨rfl, rfl⟩

/-- After a code without a name nothing is known of the lifecycle (10_state.md R35). -/
theorem Ctl.command_of_unnamed (c : Ctl) {code : BitVec 8} (h : code ∉ namedCodes) :
    c.command code = { c with life := .unknown } := by
  have hne := toNat_ne_of_unnamed h
  unfold Ctl.command
  split
  case h_12 => rfl
  all_goals
    rename_i hcode
    exact absurd hcode (hne _ (by decide))

/-! ### Command frames as instructions (45_controller_commands.md R171 to R183) -/

section

variable {s : State} (hs : s.quiet = true) (code : BitVec 8)
include hs

/-- The controller on the selected line executes the code and has the frame in its sink. -/
theorem State.runCommand_ctl : (s.runCommand code).ctl s.feCs =
    { (s.ctl s.feCs).command code with sink := (s.ctl s.feCs).sink ++ [commandBits code] } := by
  rw [State.runCommand, State.frameEnd_ctl, s.commandFrame_ctl hs]

/-- Nothing else changes but the bus and the registers a frame uses. -/
theorem State.runCommand_tookCommand : s.tookCommand (s.runCommand code) s.feCs code := by
  simp only [State.runCommand, State.tookCommand, State.sentFrames, State.frameEnd_ctl]
  exact s.commandFrame_tookCommand hs s.feCs code

/-- A wire frame leaves the response as it was. -/
theorem State.runCommand_sameResponse : s.sameResponse (s.runCommand code) := by
  rw [State.runCommand, State.commandFrame_eq _ _ _ hs]
  exact ⟨rfl, rfl, rfl, rfl⟩

/-- An instruction that runs the command frame of `code` sends it on the selected line, and the
controller there is left in the lifecycle, and with the clock flag, that the code leads to. -/
theorem exec_runCommand_effect {i : Instr} (hi : exec i s = .next (s.runCommand code))
    {life : Life} {clkCfg : Bool}
    (hcommand : ((s.ctl s.feCs).command code).life = life ∧
      ((s.ctl s.feCs).command code).clkCfg = clkCfg) :
    ∃ t, exec i s = .next t ∧ s.tookCommand t s.feCs code ∧ s.sameResponse t ∧
      (t.ctl s.feCs).life = life ∧ (t.ctl s.feCs).clkCfg = clkCfg := by
  refine ⟨_, hi, State.runCommand_tookCommand hs code, State.runCommand_sameResponse hs code, ?_⟩
  rw [State.runCommand_ctl hs]
  exact hcommand

end

end Sys2Proof.Machine
end

section

open Sys2Proof Sys2Proof.Machine

namespace Sys2Proof.Proofs

/-! ### The statements of tier 2 -/

/-- Settles O36: each runs the frame of its code, and R35 says per code what that leads to. -/
theorem lifecycleFramesTakeEffect : Obligations.LifecycleFramesTakeEffect := by
  intro s hs k
  refine ⟨?sysDis, ?sysEn, ?lcdOff, ?lcdOn, ?rcSel, fun code hwf => ?cmdUnnamed⟩
  case sysDis => exact exec_runCommand_effect hs 0x00 rfl ⟨rfl, rfl⟩
  case sysEn => exact exec_runCommand_effect hs 0x01 rfl (s.ctl k).command_sysEn.symm
  case lcdOff => exact exec_runCommand_effect hs 0x02 rfl (s.ctl k).command_lcdOff.symm
  case lcdOn => exact exec_runCommand_effect hs 0x03 rfl (s.ctl k).command_lcdOn.symm
  case rcSel => exact exec_runCommand_effect hs 0x18 rfl ⟨rfl, rfl⟩
  case cmdUnnamed =>
    have hcommand := (s.ctl k).command_of_unnamed ((cmdUnnamed_wf_iff code).1 hwf)
    exact exec_runCommand_effect hs code rfl (by rw [hcommand]; exact ⟨rfl, rfl⟩)

/-- Settles O37: each runs the frame of its code, which leaves the controller as it is
(10_state.md R35). -/
theorem otherCommandFramesChangeNoGhostState :
    Obligations.OtherCommandFramesChangeNoGhostState := by
  intro s hs k
  refine ⟨?timerDis, ?wdtDis, ?toneOff, ?tone4k40, ?tone4k60, ?irqDis, ?irqEn⟩
  case timerDis => exact exec_runCommand_effect hs 0x04 rfl ⟨rfl, rfl⟩
  case wdtDis => exact exec_runCommand_effect hs 0x05 rfl ⟨rfl, rfl⟩
  case toneOff => exact exec_runCommand_effect hs 0x08 rfl ⟨rfl, rfl⟩
  case tone4k40 => exact exec_runCommand_effect hs 0x40 rfl ⟨rfl, rfl⟩
  case tone4k60 => exact exec_runCommand_effect hs 0x60 rfl ⟨rfl, rfl⟩
  case irqDis => exact exec_runCommand_effect hs 0x80 rfl ⟨rfl, rfl⟩
  case irqEn => exact exec_runCommand_effect hs 0x88 rfl ⟨rfl, rfl⟩

end Sys2Proof.Proofs
end

section
/-! Proofs of the statements of 60_exceptions.md: how a request ends, which operands each operation
takes, and that every instruction and every step answers. -/

namespace Sys2Proof

/-- The two lines are different. -/
theorem Cs.ne_other (k : Cs) : k ≠ k.other := by cases k <;> nofun

end Sys2Proof

namespace Sys2Proof.Machine

/-! ### Every step answers (60_exceptions.md R202) -/

/-- No arm of `exec` stops. -/
theorem exec_completes (i : Instr) (s : State) : ∃ t, exec i s = .next t := by
  cases i <;> exact ⟨_, rfl⟩

/-- What comes next at `s`: an instruction runs, a next state is answered without one, or the first
input is one of the two on which the model stops (log 16, log 8). -/
inductive State.Fetched (s : State) : Next → Prop
  | run (i : Instr) (u : State) : s.Fetched (.run i u)
  | next (t : State) : s.Fetched (.done (.next t))
  | foreign (rest : List Input) : s.inbox = .foreignDrive :: rest →
      s.Fetched (.done (.fault .busContention))
  | noFrame (k : Cs) (bits : Bits) (rest : List Input) (e : DecodeError) :
      s.inbox = .frame k bits :: rest → decodeFrame (s.variant k) bits = .error e →
      s.Fetched (.done (.refused (.noSuchFrame e)))

/-- Taking the first input is one of these. -/
theorem State.takeInput_fetched {s : State} {i : Input} {rest : List Input}
    (hi : s.inbox = i :: rest) : s.Fetched (s.popInput.takeInput i) := by
  cases i with
  | request w => exact .run _ _
  | cutRequest | idle | rst => exact .next _
  | foreignDrive => exact .foreign rest hi
  | frame k bits =>
    rw [State.takeInput, State.takeFrame, State.popInput_variant]
    cases hd : decodeFrame (s.variant k) bits with
    | ok i => exact .run _ _
    | error e => exact .noFrame k bits rest e hi hd

/-- So is everything that comes next. -/
theorem State.fetch_fetched (s : State) : s.Fetched s.fetch := by
  unfold State.fetch
  cases hi : s.inbox with
  | nil =>
    dsimp only
    split_ifs <;> exact .next _
  | cons i rest =>
    dsimp only
    split_ifs
    · exact State.takeInput_fetched hi
    · exact .next _
    · exact .next _
    · exact State.takeInput_fetched hi

/-! ### How a request ends (60_exceptions.md R195, R202) -/

/-- The two ends of an operation: `ok` after whatever it has done, or `raise` before it has done
anything. -/
inductive State.Ended (s : State) : State → Prop
  | ok (u : State) (d : BitVec 32) : s.Ended (u.ok d)
  | raise (e : Err) : s.Ended (s.raise e)

/-- Every host request ends in one of the two. -/
theorem exec_ended {i : Instr} (hi : isRequest i = true) (s : State) :
    ∃ t, exec i s = .next t ∧ s.Ended t := by
  cases i with
  | sendbits | revbits | resolveDigit | resolveInd | glyph | renderDigit | setInd =>
    refine ⟨_, rfl, ?_⟩
    split
    · exact .ok _ _
    · exact .raise _
  | wrdata =>
    refine ⟨_, rfl, ?_⟩
    split
    · exact .raise _
    · split
      · exact .ok _ _
      · exact .raise _
  | renderChar =>
    refine ⟨_, rfl, ?_⟩
    split
    · exact .raise _
    · exact .raise _
    · exact .ok _ _
  | sendcmd | init | allset | pwrOn | pwrOff => exact ⟨_, rfl, .ok _ _⟩
  | unassigned7 | unassignedF => exact ⟨_, rfl, .raise _⟩
  | _ => cases hi

/-- An error code can only come from `raise`. -/
theorem State.Ended.eq_rejected {s t : State} (h : s.Ended t) (he : t.rspErr ≠ 0) :
    t = s.rejected t.rspErr := by
  cases h with
  | ok u d => exact absurd rfl he
  | raise e => rfl

/-- The error code of an instruction is read off the state it is known to answer. -/
theorem rspErr_of_exec {i : Instr} {s t u : State} (hu : exec i s = .next u)
    (h : exec i s = .next t) : t.rspErr = u.rspErr := by
  rw [Host.Outcome.next.inj (h.symm.trans hu)]

/-- A SENDBITS with a width in 1..16 ends with `ok`, whatever the pins are. -/
theorem exec_sendbits_of_width {x : BitVec 16} {n : BitVec 5} {s : State}
    (hn : 1 ≤ n.toNat ∧ n.toNat ≤ 16) :
    exec (.sendbits x n) s = .next ((s.sendBits x n.toNat).ok 0) := by
  have hok : transmitWidthOk n = true := by simp [transmitWidthOk, hn]
  rw [exec, execSendbits, if_pos hok]

/-! ### Which operands the lookups take (60_exceptions.md R191, R192) -/

section

variable {c : Config} {v : Variant} {position name : BitVec 7} {value index : BitVec 16}

/-- The font has an entry for every index below its length and for no other. -/
theorem glyphOf_isSome_iff :
    (glyphOf c index).isSome ↔ index.toNat < 36 + c.fontSymbols.length := by
  rw [← fontRom_length, glyphOf, isSome_getElem?]

/-- Variant A alone has digit slots, up to position 14. -/
theorem digitSlot_isSome_iff :
    (digitSlot v position).isSome ↔ v = .A ∧ position.toNat ≤ 14 := by
  cases v <;> simp [digitSlot, digitA]

/-- So there is none on variant B or beyond position 14. -/
theorem digitSlot_eq_none_iff : digitSlot v position = none ↔ v = .B ∨ 14 < position.toNat := by
  cases v <;> simp [digitSlot, digitA]

/-- Variant B alone has two-part digits, for the positions of its table and the decimal digits. -/
theorem digitPair_isSome_iff : (digitPair c v position value).isSome ↔
    v = .B ∧ position.toNat < c.digAddr.length ∧ value.toNat ≤ 9 := by
  cases v with
  | A => simp [digitPair]
  | B =>
    by_cases h : position.toNat < c.digAddr.length ∧ value.toNat ≤ 9
    · obtain ⟨al, ah, nl, nh, hpair⟩ := exists_digitPair h.1 h.2
      simp [hpair, h]
    · have hnone := digitB_eq_none (c := c) (position := position) (value := value) (by omega)
      simp [digitPair, hnone, h]

/-- Variant B alone has indicators, up to name 4. -/
theorem indicator_isSome_iff (on : Bool) :
    (indicator c v name on).isSome ↔ v = .B ∧ name.toNat ≤ 4 := by
  cases v with
  | A => simp [indicator]
  | B =>
    by_cases h : name.toNat ≤ 4
    · obtain ⟨a, nib, hind⟩ := exists_indicator (c := c) h on
      simp [hind, h]
    · simp [indicator, indB_eq_none (c := c) (Nat.not_le.1 h), h]

/-- RESOLVE_DIGIT finds the slots of variant A and the two-part digits of variant B. -/
theorem resolveDigitResult_isSome_iff : (resolveDigitResult c v position value).isSome ↔
    (v = .A ∧ position.toNat ≤ 14) ∨
      (v = .B ∧ position.toNat < c.digAddr.length ∧ value.toNat ≤ 9) := by
  rw [← digitSlot_isSome_iff, ← digitPair_isSome_iff (c := c)]
  cases v <;> simp [resolveDigitResult, digitSlot, digitPair]

end

end Sys2Proof.Machine
end

section

open Sys2Proof Sys2Proof.Machine

namespace Sys2Proof.Proofs

/-! ### The statements of tier 2 -/

/-- Settles O40: a request ends with `ok`, which gives code 0, or with `raise`. -/
theorem errorsLeaveNoTrace : Obligations.ErrorsLeaveNoTrace := by
  intro w s t h herr
  obtain ⟨t', ht', hend⟩ := exec_ended (isRequest_decodeRequest w) s
  obtain rfl := Host.Outcome.next.inj (h.symm.trans ht')
  exact hend.eq_rejected herr

/-- Settles O41: each operation with operands in range and out of range; a lookup's condition is
that its map has a value. -/
theorem eachOperationRaisesItsErrors : Obligations.EachOperationRaisesItsErrors := by
  intro k s t v
  refine ⟨fun x b h => ?sendbits, fun c h => ?sendcmd, fun a p b h => ?wrdata,
    fun p b h => ?revbits, fun p x h => ?resolveDigit, fun n on h => ?resolveInd,
    fun i h => ?glyph, fun h => ?init, fun on h => ?allset, fun p x h => ?renderDigit,
    fun p i h => ?renderChar, fun n on h => ?setInd, fun h => ?pwrOn, fun h => ?pwrOff,
    fun h => ?unassigned7, fun h => ?unassignedF⟩
  case sendcmd | init | allset | pwrOn | pwrOff | unassigned7 | unassignedF =>
    exact rspErr_of_exec rfl h
  case sendbits =>
    split_ifs with hb
    · exact rspErr_of_exec (exec_sendbits_of_width hb) h
    · exact rspErr_of_exec (exec_sendbits_of_invalid (by omega)) h
  case wrdata =>
    split_ifs with ha hb
    · exact rspErr_of_exec (exec_wrdata_of_top_lt ha) h
    · exact rspErr_of_exec (exec_wrdata_of_valid (Nat.not_lt.1 ha) hb) h
    · exact rspErr_of_exec (exec_wrdata_of_invalid_width (Nat.not_lt.1 ha) (by omega)) h
  case revbits =>
    split_ifs with hb
    · exact rspErr_of_exec (exec_revbits_of_valid hb) h
    · exact rspErr_of_exec (exec_revbits_of_invalid (by omega)) h
  case resolveDigit =>
    simp only [v, ← resolveDigitResult_isSome_iff]
    cases hr : resolveDigitResult s.cfg (s.variant k) p x with
    | none => exact rspErr_of_exec (exec_resolveDigit_of_none hr) h
    | some r => exact rspErr_of_exec (exec_resolveDigit_of_some hr) h
  case resolveInd =>
    simp only [v, ← indicator_isSome_iff (c := s.cfg) on]
    cases hr : indicator s.cfg (s.variant k) n on with
    | none => exact rspErr_of_exec (exec_resolveInd_of_none hr) h
    | some r => exact rspErr_of_exec (exec_resolveInd_of_some hr) h
  case glyph =>
    simp only [← glyphOf_isSome_iff]
    cases hr : glyphOf s.cfg i with
    | none => exact rspErr_of_exec (exec_glyph_of_none hr) h
    | some g => exact rspErr_of_exec (exec_glyph_of_some hr) h
  case renderDigit =>
    simp only [v, ← digitPair_isSome_iff]
    cases hr : digitPair s.cfg (s.variant k) p x with
    | none => exact rspErr_of_exec (exec_renderDigit_of_none hr) h
    | some r => exact rspErr_of_exec (exec_renderDigit_of_valid hr) h
  case renderChar =>
    simp only [v, ← digitSlot_eq_none_iff, ← glyphOf_isSome_iff]
    cases ha : digitSlot (s.variant k) p with
    | none => exact rspErr_of_exec (exec_renderChar_of_no_slot ha) h
    | some a =>
      cases hr : glyphOf s.cfg i with
      | none => exact rspErr_of_exec (exec_renderChar_of_no_glyph ha hr) h
      | some g => exact rspErr_of_exec (exec_renderChar_of_valid ha hr) h
  case setInd =>
    simp only [v, ← indicator_isSome_iff (c := s.cfg) on]
    cases hr : indicator s.cfg (s.variant k) n on with
    | none => exact rspErr_of_exec (exec_setInd_of_none hr) h
    | some r => exact rspErr_of_exec (exec_setInd_of_valid hr) h

/-- Settles O42: no arm of `exec` stops, and a step that runs no instruction stops on those two
inputs alone. -/
theorem everyInstructionCompletes : Obligations.EveryInstructionCompletes := by
  refine ⟨exec_completes, fun s => ?_⟩
  have hf := s.fetch_fetched
  unfold step
  generalize s.fetch = n at hf
  cases hf with
  | run i u => exact .inl (exec_completes i u)
  | next t => exact .inl ⟨t, rfl⟩
  | foreign rest hi => exact .inr (.inl ⟨rfl, rest, hi⟩)
  | noFrame k bits rest e hi he => exact .inr (.inr ⟨k, bits, rest, e, hi, he, rfl⟩)

/-- Settles O48: an instruction is an effect on its own line, and an effect on one line leaves the
controller on the other alone. -/
theorem onlyTheAddressedControllerIsTouched :
    Obligations.OnlyTheAddressedControllerIsTouched := by
  intro i s t hs h
  obtain ⟨v, heff⟩ := effect_of_exec hs h
  exact heff.ctl_of_ne hs (Cs.ne_other _)

/-! ### The statement of tier 1 -/

/-- Settles O33. -/
theorem unassignedOperationsAreRejected : Obligations.UnassignedOperationsAreRejected :=
  fun _ => ⟨rfl, rfl⟩

end Sys2Proof.Proofs
end

section
/-! Proofs of the statements of 70_reset_and_hazards.md: what a reset leaves, the boot order, and a
foreign master on the bus. -/

namespace Sys2Proof.Machine

/-- A reset or a foreign master is taken whether the CORE is ready or not (70_reset_and_hazards.md
R220, R230). -/
theorem State.fetch_of_unconditional {s : State} {i : Input} {rest : List Input}
    (hu : i.unconditional = true) (hi : s.inbox = i :: rest) :
    s.fetch = State.takeInput { s with inbox := rest } i := by
  simp [State.fetch, hi, hu, State.popInput]

/-! ### What a reset leaves (70_reset_and_hazards.md R220, R221) -/

/-- But for the controllers and the inputs to come, the state is that of a power-up. -/
theorem State.takeReset_registers (s : State) (kind : ResetKind) :
    { s.takeReset kind with ctl0 := Ctl.powerUp, ctl1 := Ctl.powerUp, inbox := [] } =
      State.powerOn s.cfg := rfl

/-- The ghost state is lost if an operation was in progress or the CORE alone was reset. -/
theorem State.takeReset_ctl_eq (s : State) (kind : ResetKind) (j : Cs) :
    (s.takeReset kind).ctl j =
      if s.busy = true ∨ kind = .coreOnly then Ctl.afterBadReset else Ctl.powerUp := by
  have h : (s.takeReset kind).ctl j =
      if (s.busy || kind == .coreOnly) = true then Ctl.afterBadReset else Ctl.powerUp := by
    cases j <;> rfl
  simpa using h

/-- So its lifecycle is Unknown in those two cases, and Uninitialized otherwise. -/
theorem State.takeReset_life (s : State) (kind : ResetKind) (j : Cs) :
    ((s.takeReset kind).ctl j).life =
      if s.busy = true ∨ kind = .coreOnly then .unknown else .uninitialized := by
  rw [s.takeReset_ctl_eq, apply_ite Ctl.life]
  rfl

/-- No reset leaves a clock source configured (log 15). -/
theorem State.takeReset_clkCfg (s : State) (kind : ResetKind) (j : Cs) :
    ((s.takeReset kind).ctl j).clkCfg = false := by
  rcases s.takeReset_ctl kind j with h | h <;> rw [h] <;> rfl

/-- No reset leaves anything known of the RAM. -/
theorem State.takeReset_read (s : State) (kind : ResetKind) (j : Cs) (a : Nat) :
    ((s.takeReset kind).ctl j).ram.read a = none := by
  obtain ⟨-, -, hram⟩ := s.takeReset_ctl_empty kind j
  rw [hram, Ram.read_nil]

/-- A step on `rst` resets. -/
theorem step_rst {s : State} {kind : ResetKind} {rest : List Input}
    (hi : s.inbox = .rst kind :: rest) :
    step s = .next (State.takeReset { s with inbox := rest } kind) := by
  rw [step, State.fetch_of_unconditional rfl hi]
  rfl

/-- A step on a request that is cut short resets from the state that has accepted it. -/
theorem step_cutRequest {s : State} {w : Request} {rest : List Input} (hp : s.porDone = true)
    (hb : s.busy = false) (hi : s.inbox = .cutRequest w :: rest) :
    step s = .next ((State.accept { s with inbox := rest } w).takeReset .board) := by
  rw [step, State.fetch_of_ready hp hb hi]
  rfl

end Sys2Proof.Machine
end

section

open Sys2Proof Sys2Proof.Machine

namespace Sys2Proof.Proofs

/-! ### The statements of tier 2 -/

/-- Settles O14: both inputs come to `State.takeReset`, and the cut request has raised `busy`
before. -/
theorem resetInputLoadsTheResetValues : Obligations.ResetInputLoadsTheResetValues := by
  refine ⟨fun s kind rest hi => ?rst, fun s w rest hp hb hi => ?cut⟩
  case rst =>
    refine ⟨_, step_rst hi, rfl, State.takeReset_registers _ kind, fun k => ?_⟩
    obtain ⟨hopen, hsink, -⟩ := State.takeReset_ctl_empty { s with inbox := rest } kind k
    exact ⟨hsink, hopen, State.takeReset_clkCfg _ kind k, State.takeReset_read _ kind k,
      State.takeReset_life _ kind k⟩
  case cut =>
    exact ⟨_, step_cutRequest hp hb hi, rfl, State.takeReset_registers _ .board, fun k =>
      ⟨(State.takeReset_life _ .board k).trans (if_pos (.inl rfl)),
        State.takeReset_read _ .board k⟩⟩

/-- Settles O34: INIT (O26) leaves the bus at rest, with the clock source and the lifecycle from
which PWR_ON (O32) leads to DisplayOn. -/
theorem initThenPowerOnShowsTheDisplay : Obligations.InitThenPowerOnShowsTheDisplay := by
  intro k s hs hlife
  obtain ⟨t, ht, -, -, htlife, htclk, htram, -⟩ := initSendsFiveCommandsInOrder k s hs
  rw [if_neg hlife] at htlife
  obtain ⟨v, heff⟩ := effect_of_exec hs ht
  obtain ⟨⟨u, hu, -, ⟨-, huram, -⟩, huclk, hulife⟩, -⟩ :=
    powerOnAndOffSendOneCommand k t (heff.quiet hs)
  rw [if_pos ⟨htclk, .inl htlife⟩] at hulife
  exact ⟨t, u, ht, htlife, hu, hulife, huclk.trans htclk, huram.trans htram⟩

/-! ### The statement of tier 1 -/

/-- Settles O12. -/
theorem foreignMasterStopsTheMachine : Obligations.ForeignMasterStopsTheMachine := by
  intro s rest hi
  rw [step, State.fetch_of_unconditional rfl hi]
  rfl

end Sys2Proof.Proofs
end
